-- ==== Sys2Proof/Word.lean ====
section
/-! DEFINITION. The plainest types of the block: the byte and the 16-bit command word (R8, R93).
A sample position, "an integer tick index into the timeline" (R12), is a plain `Nat` throughout: the rules add and
compare positions and never mask or wrap one. Their width `SAMPLE_W` is a bound that the operations test (R64, R201)
and an invariant of the machine. -/

namespace Sys2Proof

/-- A byte: an unsigned 8-bit value, bit 0 the least significant (R8). -/
abbrev Byte := BitVec 8

/-- A command word of the command port (R93). -/
abbrev Word := BitVec 16

end Sys2Proof
end

