-- ==== Sys2Proof/Config.lean ====
section
/-! DEFINITION. What the host's inputs fix at reset: the configuration record `CFG` (R6, R20), the timeline binding
`TLB` (R21, R61), and the one open parameter that no rule reads, `KIND_LABEL` (R194). -/

namespace Sys2Proof

/-- A bus level (R10, R80): `low` is dominant, `high` is recessive and the idle level. -/
inductive Level where
  | low
  | high
  deriving DecidableEq, Repr

/-- `BIT_CLOCK` (R6, R112): how the sample offsets are computed. -/
inductive BitClock where
  /-- `EXACT`, code 0: the exact rational position, floored once. -/
  | exact
  /-- `TRUNCATED`, code 1: an integer half bit, then integer whole bits. -/
  | truncated
  deriving DecidableEq, Repr

/-- `TIMELINE_KIND` (R6): what a request that the timeline cannot answer does (R64 to R69). -/
inductive TimelineKind where
  /-- `FINITE`: a captured timeline; the request raises `Exhausted`. -/
  | finite
  /-- `UNBOUNDED`: a growing timeline; the request suspends. -/
  | unbounded
  deriving DecidableEq, Repr

/-- The configuration record `CFG` (R20), with the parameters `SAMPLE_W` and `TIMELINE_KIND` of R6.
The fields are the numbers the host supplies; that each fits its width is a condition the reset tests (R234).
The default of a field is the default R6 gives; the rates and the version have none. -/
structure Cfg where
  /-- `SAMPLE_RATE`, samples per second; 32 bits. -/
  sampleRate : Nat
  /-- `BIT_RATE`, bits per second; 32 bits. -/
  bitRate : Nat
  /-- `PROTOCOL_VERSION`; 8 bits. -/
  protocolVersion : Nat
  /-- `CHANNEL`, an opaque identifier that no rule reads. -/
  channel : Nat := 0
  /-- `DIAG_CLASSIC`: whether a diagnostic identifier forces the classic checksum (R156). -/
  diagClassic : Bool := true
  /-- `BIT_CLOCK`. -/
  bitClock : BitClock := .exact
  /-- `BREAK_MIN_BITS`, the shortest low run that is a break (R116); 8 bits. -/
  breakMinBits : Nat := 13
  /-- `BREAK_PROBE_BITS`, the first probe window of a low stop bit (R117); 8 bits. -/
  breakProbeBits : Nat := 3
  /-- `MAX_RESPONSE_BYTES` (R161); 4 bits. -/
  maxResponseBytes : Nat := 8
  /-- `SYN_BREAK_BITS` (R206); 8 bits. -/
  synBreakBits : Nat := 13
  /-- `SYN_DELIM_BITS` (R206); 8 bits. -/
  synDelimBits : Nat := 1
  /-- `IDLE_GAP_BITS` (R207); 8 bits. -/
  idleGapBits : Nat := 2
  /-- `SAMPLE_W`, the width of a sample position (R6, R22). -/
  sampleW : Nat := 64
  /-- `TIMELINE_KIND`. -/
  timelineKind : TimelineKind := .finite
  deriving DecidableEq, Repr

/-- The timeline binding `TLB = (S0, L0, EDGES, S_END)` (R21, R61).
`lastSample` is `S_END` of a `FINITE` timeline. Of an `UNBOUNDED` timeline it is the last sample the source has
supplied so far, which R67's "samples up to `pos + n` are available" needs and R21 does not name
(DESIGN CHOICE, notes/assumptions/4.md). -/
structure Timeline where
  /-- `S0`, the first sample. -/
  s0 : Nat
  /-- `L0`, the level before the first edge. -/
  l0 : Level
  /-- `EDGES`, in rising order: each the first sample at its new level. -/
  edges : List Nat
  /-- `S_END`, or the last sample supplied so far. -/
  lastSample : Nat
  deriving DecidableEq, Repr

/-- What the host drives when it asserts reset: the configuration and the timeline binding (R250). -/
structure ResetInputs where
  cfg : Cfg
  tlb : Timeline
  deriving DecidableEq, Repr

/-- One delivery of the timeline source of an `UNBOUNDED` timeline (R69, R261): further edges, in order, and
the sample up to which the timeline is now known. -/
structure Supply where
  edges : List Nat
  upTo : Nat
  deriving DecidableEq, Repr

/-- The inputs behind `State.reset`. R6 and R20 give the rates, the version and the timeline no default: the host
supplies them. DESIGN CHOICE (notes/assumptions/1.md): the rates and the version are the setting of
spec/95_test_vectors.md, and the timeline is the shortest capture, one high sample at position 0 and no edge. -/
def ResetInputs.standard : ResetInputs where
  cfg := { sampleRate := 192000, bitRate := 19200, protocolVersion := 2 }
  tlb := { s0 := 0, l0 := .high, edges := [], lastSample := 0 }

/-- `KIND_LABEL`, the OPEN parameter of R6 and R194: the label of a kind code. It has no body: no rule of the
block depends on it, and no statement can. -/
opaque Config.kindLabel (kindCode : BitVec 3) : String

end Sys2Proof
end

