-- ==== Sys2Proof/Syntax.lean ====
section
/-! DEFINITION. The syntax of the command port: one constructor per row of spec/opcode_table.json (R94). -/

namespace Sys2Proof

/-- The 15 commands. An operand has the type of its immediate class (R95): a `Byte` for the byte and count
classes, six bits for the id6 class, none for the zero class. -/
inductive Instr where
  /-- `CK.CLR`: clear the standalone accumulator (R145). -/
  | ckClr
  /-- `CK.ADD b`: add a byte to the standalone accumulator (R146). -/
  | ckAdd (b : Byte)
  /-- `CK.RES`: read the standalone accumulator's result (R147). -/
  | ckRes
  /-- `BD.BRK`: one `BreakDecode` on the pass's cursor (R119). -/
  | bdBrk
  /-- `BD.BYTE`: one `ByteDecode` on the pass's cursor (R120). -/
  | bdByte
  /-- `FSM.STEP`: one iteration of the decoder pass (R150). -/
  | fsmStep
  /-- `FSM.STOP`: cancel the decoder pass (R165). -/
  | fsmStop
  /-- `SY.IDLE n`: drive the line high for `n` bit-times (R205). -/
  | syIdle (n : Byte)
  /-- `SY.BRK`: synthesize a break field and its delimiter (R206). -/
  | syBrk
  /-- `SY.BYTE b`: synthesize one byte frame and its idle gap (R207). -/
  | syByte (b : Byte)
  /-- `SY.PID id`: start the frame's checksum and synthesize the PID byte (R208). -/
  | syPid (id : BitVec 6)
  /-- `SY.DATA b`: sum a response byte and synthesize it (R209). -/
  | syData (b : Byte)
  /-- `SY.CHK`: synthesize the checksum of the bytes summed so far (R210). -/
  | syChk
  /-- `UT.PAR id`: the PID byte of an identifier (R213). -/
  | utPar (id : BitVec 6)
  /-- `UT.REV b`: the bit reversal of a byte (R214). -/
  | utRev (b : Byte)
  deriving DecidableEq, Repr

end Sys2Proof
end

