-- ==== Sys2Proof/Machine/State.lean ====
section
/-! DEFINITION. The state of the block as plain data: the output records, the registers of each agent (R20 to R38),
the output streams (R70, R71), the pending timeline request (R40), the host's side of the ports (R93, R250, R69), the
reasons a step can stop, and the state after reset (R41). -/

namespace Sys2Proof.Machine

/-- The kind of an emitted frame (R88). -/
inductive Kind where
  | noFrame
  | headerBreak
  | headerSync
  | headerPid
  | responseDataZero
  | responseData
  | responseChecksum
  | responsePotentialChecksum
  deriving DecidableEq, Repr

/-- The frame state machine's state (R23, R92); code 7 is never written and has no constructor. -/
inductive FState where
  | noFrame
  | headerBreak
  | headerSync
  | headerPid
  | responseDataZero
  | responseData
  | responseChecksum
  deriving DecidableEq, Repr

/-- `halted` (R31); code 3 is never written and has no constructor. -/
inductive Halt where
  | run
  | exhausted
  | cancelled
  deriving DecidableEq, Repr

/-- The decoded frame record (R90). `flags` is the 4-bit set of R89. -/
structure Frame where
  startSample : Nat
  endSample : Nat
  kind : Kind
  value : Byte
  sequenceIndex : Nat
  flags : BitVec 4
  deriving DecidableEq, Repr

/-- The output events (R70, R91). `halted` has a tag in R91 and no rule appends it: R151 answers `Halted` on the
response port. -/
inductive Event where
  | frame (f : Frame)
  | beginPacket
  | commitPacket
  | progress (sample : Nat)
  | exhausted (sample : Nat)
  | halted (reason : Halt)
  deriving DecidableEq, Repr

/-- The response records (R97). -/
inductive Response where
  | ack
  | value (b : Byte)
  | brk (value : Byte) (fe : Bool) (startSample endSample : Nat)
  | byte (value : Byte) (fe brk : Bool) (startSample endSample : Nat)
  | events (list : List Event)
  | edges (list : List Nat)
  | exhausted (sample : Nat)
  | halted (reason : Halt)
  | illegal
  deriving DecidableEq, Repr

/-- The decoder pass's registers (R22 to R31) and the bit decoder's transient registers (R32). -/
structure Pass where
  /-- `pos`, the timeline cursor (R22). -/
  pos : Nat
  /-- `fstate` (R23). -/
  fstate : FState
  /-- `byte_count` (R24). -/
  byteCount : Nat
  /-- `CKd.sum` (R25). -/
  ckd : Byte
  /-- `classic` (R26). -/
  classic : Bool
  /-- `pid` (R27). -/
  pid : Byte
  /-- `show_ibs` (R28). -/
  showIbs : Bool
  /-- `last_end` (R29). -/
  lastEnd : Nat
  /-- `packet_open` (R30). -/
  packetOpen : Bool
  /-- `halted` (R31). -/
  halted : Halt
  /-- `A`, the anchor (R32). -/
  anchor : Nat
  /-- `sr`, the receive shift register (R32, R118). -/
  sr : Byte
  /-- `n`, the measured break length in bit-times (R32). -/
  n : Nat
  /-- `fe`, the framing-error result (R32). -/
  fe : Bool
  /-- `brk`, the break-detected result (R32). -/
  brk : Bool
  deriving DecidableEq, Repr

/-- The synthesizer's registers (R33 to R37). -/
structure Synth where
  /-- `T`, the bit-time counter (R33). -/
  t : Nat
  /-- `lvl`, the driven level (R34). -/
  lvl : Level
  /-- `CKs.sum` (R35). -/
  cks : Byte
  /-- `s_classic` (R36). -/
  sClassic : Bool
  /-- `SYN_EDGES`, the output edge stream, oldest first (R37, R71). -/
  edges : List Nat
  deriving DecidableEq, Repr

/-- What the host can do to the block: issue a command word (R93), assert reset with its inputs (R250), and let the
timeline source deliver more of an `UNBOUNDED` timeline (R69). -/
inductive HostInput where
  | command (w : Word)
  | reset (inputs : ResetInputs)
  | extend (supply : Supply)
  deriving DecidableEq, Repr

/-- The machine's state. The first nine fields are the block's; `refused` is the mark R233 asks a model to keep, and
`inbox` is the host's side of the ports. -/
structure State where
  /-- `CFG`, latched at reset (R20). -/
  cfg : Cfg
  /-- `TLB`, latched at reset (R21); of an `UNBOUNDED` timeline, as extended since (R69). -/
  tlb : Timeline
  /-- The decoder pass. -/
  pass : Pass
  /-- The synthesizer. -/
  synth : Synth
  /-- `CKt.sum`, the standalone accumulator (R38). -/
  ckt : Byte
  /-- The event stream of the pass, oldest first (R70, R97). -/
  events : List Event
  /-- The response port: the record the last completed command returned (R97). -/
  response : Option Response
  /-- The pending timeline request: the command in progress that a primitive has suspended (R40, R69). -/
  request : Option Instr
  /-- The sticky refusal mark of the run (R233). -/
  refused : Bool
  /-- The host's inputs the block has not accepted yet, the next one first (R72). -/
  inbox : List HostInput
  deriving DecidableEq, Repr

/-- The faults. The spec has none (R230); a model may add its own for a violated premise
(spec/93_implementation_defined.md). -/
inductive Fault where
  /-- Raised by `BD.BRK`, `BD.BYTE` and `FSM.STEP` if a sample point ever lay before the cursor, so that `TL.advance`
  would be asked for a negative count. R124 shows that none does, and no state of the model raises it: the case
  stands so that R124 is a theorem and not a silent clamp at zero. Safe: the machine would stop. -/
  | cursorBackward
  deriving DecidableEq, Repr

/-- The refusals. None is an instruction's: a reserved word and an overflowing `SY.*` command answer `Illegal` and
the machine goes on (R233). -/
inductive Refusal where
  /-- Raised by an arm of `exec` for an instruction that has no meaning yet; no arm does. Safe. -/
  | notModelled (mnemonic : String)
  /-- Raised when the host asserts reset with an illegal configuration or timeline: the block does not leave reset,
  and the model has no next state (R234). Safe. -/
  | illegalReset
  /-- Raised when the timeline source breaks a duty of R261: it extends a `FINITE` timeline, or extends out of order,
  over samples already supplied, or past the last sample position. Such a host has no move in the model. Safe. -/
  | hostDuty
  deriving DecidableEq, Repr

/-- The pass's registers after reset (R41). Only `fstate` is the source's; `anchor`, `sr`, `n`, `fe` and `brk` are
unspecified there and are zero here (DESIGN CHOICE, notes/assumptions/2.md: every procedure writes them first). -/
def Pass.atReset (s0 : Nat) : Pass where
  pos := s0
  fstate := .noFrame
  byteCount := 0
  ckd := 0#8
  classic := true
  pid := 0#8
  showIbs := false
  lastEnd := s0
  packetOpen := false
  halted := .run
  anchor := 0
  sr := 0#8
  n := 0
  fe := false
  brk := false

/-- The synthesizer's registers after reset (R41). -/
def Synth.atReset : Synth where
  t := 0
  lvl := .high
  cks := 0#8
  sClassic := true
  edges := []

/-- The state that a reset with these inputs leaves: the inputs latched, every register at its value of R41, no event
and no response. The legality of the inputs is tested before (`resetWith`, R251). -/
def State.ofInputs (inputs : ResetInputs) : State where
  cfg := inputs.cfg
  tlb := inputs.tlb
  pass := Pass.atReset inputs.tlb.s0
  synth := Synth.atReset
  ckt := 0#8
  events := []
  response := none
  request := none
  refused := false
  inbox := []

/-- The machine right after a reset with the standard inputs, with nothing from the host yet. -/
def State.reset : State := State.ofInputs ResetInputs.standard

end Sys2Proof.Machine
end

