-- ==== Sys2Proof/Machine/Operands.lean ====
section
/-! DEFINITION. What the operand bytes mean: the PID byte and its parity (R84, R85), the diagnostic identifiers (R86),
the byte frame on the wire (R81), bit reversal (R204), and the shift register that receives a byte (R118). -/

namespace Sys2Proof.Machine

/-- `SYNC_BYTE` (R83). -/
def syncByte : Byte := 0x55#8

/-- A level as a bit value: `High = 1`, `Low = 0` (R10). -/
def levelBit : Level → Bool
  | .low => false
  | .high => true

/-- The level of a bit value (R10). -/
def levelOfBit (b : Bool) : Level := if b then .high else .low

/-- The other level. -/
def otherLevel : Level → Level
  | .low => .high
  | .high => .low

/-- The identifier of a PID byte, `p[5:0]` (R84). -/
def idOf (p : Byte) : BitVec 6 := p.extractLsb' 0 6

/-- `P0 = id[0] ^ id[1] ^ id[2] ^ id[4]` (R85). -/
def parity0 (id : BitVec 6) : Bool :=
  ((id.getLsbD 0 ^^ id.getLsbD 1) ^^ id.getLsbD 2) ^^ id.getLsbD 4

/-- `P1 = ~(id[1] ^ id[3] ^ id[4] ^ id[5])` (R85). -/
def parity1 (id : BitVec 6) : Bool :=
  !(((id.getLsbD 1 ^^ id.getLsbD 3) ^^ id.getLsbD 4) ^^ id.getLsbD 5)

/-- The PID byte of an identifier: `id | (P0 << 6) | (P1 << 7)` (R84, R85). -/
def parity (id : BitVec 6) : Byte :=
  BitVec.ofBool (parity1 id) ++ (BitVec.ofBool (parity0 id) ++ id)

/-- Whether an identifier is in `DIAG_IDS = {0x3C, 0x3D}` (R86). -/
def isDiagnostic (id : BitVec 6) : Bool := id == 0x3C#6 || id == 0x3D#6

/-- `IsClassic(p)`, the checksum mode a PID byte selects (R156). -/
def isClassic (c : Cfg) (p : Byte) : Bool :=
  decide (c.protocolVersion < 2) || (c.diagClassic && isDiagnostic (idOf p))

/-- `reverse_bits(b)`: bit `7 - i` of the result is bit `i` of `b` (R204). -/
def reverseBits (b : Byte) : Byte :=
  BitVec.ofBool (b.getLsbD 0) ++ (BitVec.ofBool (b.getLsbD 1) ++ (BitVec.ofBool (b.getLsbD 2) ++
    (BitVec.ofBool (b.getLsbD 3) ++ (BitVec.ofBool (b.getLsbD 4) ++ (BitVec.ofBool (b.getLsbD 5) ++
      (BitVec.ofBool (b.getLsbD 6) ++ BitVec.ofBool (b.getLsbD 7)))))))

/-- The ten bit-times of a byte frame from its falling edge: start `Low`, the data bits least significant first,
stop `High` (R81). -/
def byteFrame (b : Byte) : List Level :=
  .low :: ((List.range 8).map (fun i => levelOfBit (b.getLsbD i)) ++ [.high])

/-- One sampled level enters the receive shift register at bit 7: `(sr >> 1) | (L << 7)` (R118). -/
def shiftIn (sr : Byte) (l : Level) : Byte :=
  (sr >>> 1) ||| ((BitVec.ofBool (levelBit l)).setWidth 8 <<< 7)

end Sys2Proof.Machine
end

