-- ==== Sys2Proof/Machine/Flags.lean ====
section
/-! DEFINITION. The block's flags (R39): the four bits of a frame's `flags` field (R89) and how each iteration
computes them (R155, R158, R162, R164). No flag is kept in a register. -/

namespace Sys2Proof.Machine

/-- `FramingError`, bit 0 (R89). -/
def flagFramingError : BitVec 4 := 0x1#4

/-- `HeaderBreakExpected`, bit 1 (R89). -/
def flagHeaderBreakExpected : BitVec 4 := 0x2#4

/-- `HeaderSyncExpected`, bit 2 (R89). -/
def flagHeaderSyncExpected : BitVec 4 := 0x4#4

/-- `ChecksumMismatch`, bit 3 (R89). -/
def flagChecksumMismatch : BitVec 4 := 0x8#4

/-- The flags a decode result alone gives its frame: `FramingError` exactly when `fe = 1` (R164). -/
def decodeFlags (fe : Bool) : BitVec 4 := if fe then flagFramingError else 0#4

/-- The flags of a failed break header (R155). -/
def breakFailFlags (flags : BitVec 4) : BitVec 4 := flags ||| flagHeaderBreakExpected

/-- The flags of a failed sync byte (R158). -/
def syncFailFlags (flags : BitVec 4) : BitVec 4 := flags ||| flagHeaderSyncExpected

/-- The flags of a terminating checksum byte `v` against the running result (R162). -/
def checksumFlags (flags : BitVec 4) (v result : Byte) : BitVec 4 :=
  if v = result then flags else flags ||| flagChecksumMismatch

end Sys2Proof.Machine
end

