-- ==== Sys2Proof/Machine/Ops.lean ====
section
/-! DEFINITION. The shared operations: the bit timing (R110 to R114, R202), the timeline primitives (R60 to R69), the
checksum accumulator (R140 to R142), the event list of an iteration and the packet markers (R70, R154), the driven
line of the synthesizer (R201), and how a command ends: with its response (R97), exhausted (R232), refused (R233),
halted (R245) or suspended (R69).
The block has no exception to take and none to return from (R230, R238). -/

namespace Sys2Proof.Machine

/-! ### Bit timing -/

/-- The greatest sample position, `2^SAMPLE_W - 1` (R68). -/
def maxSample (c : Cfg) : Nat := 2 ^ c.sampleW - 1

/-- `off(h)`: the offset of the point `h` half-bits after the anchor, for an odd `h = 2k + 1` (R112). -/
def off (c : Cfg) (h : Nat) : Nat :=
  match c.bitClock with
  | .exact => h * c.sampleRate / (2 * c.bitRate)
  | .truncated => c.sampleRate / (2 * c.bitRate) + (h / 2) * (c.sampleRate / c.bitRate)

/-- `win(m)`: the samples of `m` bit-times (R113). -/
def win (c : Cfg) (m : Nat) : Nat := m * c.sampleRate / c.bitRate

/-- `half`: the samples of a half bit-time (R113). -/
def half (c : Cfg) : Nat := c.sampleRate / (2 * c.bitRate)

/-- `nbits(gap)`: the bit-times of a low run, to the nearest, halves up (R114). -/
def nbits (c : Cfg) (gap : Nat) : Nat :=
  (2 * gap * c.bitRate + c.sampleRate) / (2 * c.sampleRate)

/-- `E(T)`: the sample at which bit-time `T` of the synthesized line begins (R202). -/
def edgeAt (c : Cfg) (t : Nat) : Nat := t * c.sampleRate / c.bitRate

/-! ### The timeline primitives -/

/-- How a request to the timeline ends. -/
inductive Read (α : Type) where
  /-- Answered, with the pass as the request left it. -/
  | ok (v : α) (p : Pass)
  /-- `raise Exhausted()` with the cursor at `pos` (R68, R232). -/
  | exhausted (pos : Nat)
  /-- The answer needs samples the host has not supplied (R69). -/
  | suspended
  /-- `AdvanceTo` of a point before the cursor: never, by R124. -/
  | backward
  deriving DecidableEq, Repr

/-- One request after another: the second sees the answer and the pass of the first. -/
def andThen {α β : Type} (r : Read α) (f : α → Pass → Read β) : Read β :=
  match r with
  | .ok v p => f v p
  | .exhausted q => .exhausted q
  | .suspended => .suspended
  | .backward => .backward

/-- `Level(s)`: `L0` after an even number of edges, the other level after an odd one (R61). -/
def levelAt (tl : Timeline) (s : Nat) : Level :=
  if tl.edges.countP (fun e => decide (e ≤ s)) % 2 = 0 then tl.l0 else otherLevel tl.l0

/-- The first edge after a position: the least, since `EDGES` rises (R61, R65). -/
def edgeAfter (tl : Timeline) (s : Nat) : Option Nat :=
  tl.edges.find? (fun e => decide (s < e))

/-- What a request for an edge that the timeline does not have does (R65, R66). -/
def noEdge {α : Type} (c : Cfg) (p : Pass) : Read α :=
  match c.timelineKind with
  | .finite => .exhausted p.pos
  | .unbounded => .suspended

/-- `TL.level()`: the level at the cursor (R62). -/
def tlLevel (tl : Timeline) (p : Pass) : Level := levelAt tl p.pos

/-- `TL.advance(n)` (R64). -/
def tlAdvance (c : Cfg) (tl : Timeline) (count : Nat) (p : Pass) : Read Unit :=
  if c.timelineKind = .finite ∧ tl.lastSample < p.pos + count then .exhausted p.pos
  else if maxSample c < p.pos + count then .exhausted p.pos
  else if tl.lastSample < p.pos + count then .suspended
  else .ok () { p with pos := p.pos + count }

/-- `TL.advance_to_next_edge()` (R65). -/
def tlAdvanceToNextEdge (c : Cfg) (tl : Timeline) (p : Pass) : Read Unit :=
  match edgeAfter tl p.pos with
  | some e => .ok () { p with pos := e }
  | none => noEdge c p

/-- `TL.next_edge()` (R66). -/
def tlNextEdge (c : Cfg) (tl : Timeline) (p : Pass) : Read Nat :=
  match edgeAfter tl p.pos with
  | some e => .ok e p
  | none => noEdge c p

/-- `TL.would_transition_within(n)` (R67). -/
def tlWouldTransitionWithin (c : Cfg) (tl : Timeline) (count : Nat) (p : Pass) : Read Bool :=
  if tl.edges.any (fun e => decide (p.pos < e ∧ e ≤ p.pos + count)) then .ok true p
  else if tl.lastSample < p.pos + count then
    match c.timelineKind with
    | .finite => .exhausted p.pos
    | .unbounded => .suspended
  else .ok false p

/-- `AdvanceTo(t) = TL.advance(t - TL.pos)`, for a point `t` that is not before the cursor (R64, R124). -/
def advanceTo (c : Cfg) (tl : Timeline) (t : Nat) (p : Pass) : Read Unit :=
  if t < p.pos then .backward else tlAdvance c tl (t - p.pos) p

/-! ### The checksum accumulator -/

/-- `clear()` (R140). -/
def sumClear : Byte := 0#8

/-- `add(b)`: end-around carry at 255, not modulo 256 (R141). -/
def sumAdd (sum b : Byte) : Byte :=
  let s := sum.toNat + b.toNat
  if 255 < s then BitVec.ofNat 8 (s - 255) else BitVec.ofNat 8 s

/-- `result()`: the one's complement of the sum (R142). -/
def sumResult (sum : Byte) : Byte := ~~~sum

/-- The checksum of a response: the accumulator's result over the bytes its mode sums (R149). -/
def checksum (classic : Bool) (pid : Byte) (data : List Byte) : Byte :=
  sumResult (data.foldl sumAdd (if classic then sumClear else sumAdd sumClear pid))

/-! ### The events of an iteration -/

/-- A pass in the middle of an iteration, with the events emitted so far, oldest first (R70). -/
structure Iteration where
  pass : Pass
  ev : List Event
  deriving DecidableEq, Repr

/-- `Emit(ev)` (R70). -/
def emit (e : Event) (x : Iteration) : Iteration := { x with ev := x.ev ++ [e] }

/-- `commit()`, idempotent (R154). -/
def commitPacket (x : Iteration) : Iteration :=
  if x.pass.packetOpen then
    let y := emit .commitPacket x
    { y with pass := { y.pass with packetOpen := false } }
  else x

/-- `begin()` (R154). -/
def beginPacket (x : Iteration) : Iteration :=
  let y := emit .beginPacket x
  { y with pass := { y.pass with packetOpen := true } }

/-- `state <- S` (R11). -/
def goTo (f : FState) (x : Iteration) : Iteration := { x with pass := { x.pass with fstate := f } }

/-! ### The driven line -/

/-- `drive(level, n)`: an edge where the level changes, then `n` bit-times (R201). -/
def drive (c : Cfg) (l : Level) (count : Nat) (y : Synth) : Synth :=
  if l = y.lvl then { y with t := y.t + count }
  else { y with t := y.t + count, lvl := l, edges := y.edges ++ [edgeAt c y.t] }

/-- Whether `N` more bit-times fit both the counter and the sample positions (R201). -/
def synthFits (c : Cfg) (count : Nat) (y : Synth) : Bool :=
  decide (y.t + count ≤ 2 ^ 64 - 1 ∧ edgeAt c (y.t + count) ≤ maxSample c)

/-- The timeline that the synthesizer's output defines (R217). -/
def synthTimeline (c : Cfg) (y : Synth) : Timeline where
  s0 := 0
  l0 := .high
  edges := y.edges
  lastSample := edgeAt c y.t

/-! ### How a command ends -/

/-- The one response of a completed command (R97). -/
def respond (r : Response) (s : State) : State := { s with response := some r }

/-- `raise IllegalCommand()`: the response is `Illegal`, the model's mark is set, nothing else changes (R233). -/
def refuseCommand (s : State) : State := { s with response := some .illegal, refused := true }

/-- The pass once `Exhausted` was raised at `pos`: of the pass `p` before the decode only the cursor and `halted`
change (R73, R232). -/
def exhaustPass (p : Pass) (pos : Nat) : Pass := { p with pos := pos, halted := .exhausted }

/-- A suspended command stays in progress, with no response and no effect the host can see (R40, R69). -/
def suspendCommand (i : Instr) (s : State) : State := { s with request := some i, response := none }

/-- The events of one `FSM.STEP` go to the host together, and are its response (R73, R97). -/
def deliver (ev : List Event) (s : State) : State :=
  { s with events := s.events ++ ev, response := some (.events ev) }

/-- A decoder-pass command while the pass is halted: nothing changes but the response (R245). -/
def answerHalted (s : State) : State := respond (.halted s.pass.halted) s

end Sys2Proof.Machine
end

