-- ==== Sys2Proof/Machine/Checksum.lean ====
section
/-! DEFINITION. The standalone accumulator's commands `CK.CLR`, `CK.ADD` and `CK.RES` (R145 to R147). They act on `CKt`
alone, halted or not (R144, R245). -/

namespace Sys2Proof.Machine

/-- `CK.CLR` (R145). -/
def execCkClr (s : State) : Host.Outcome State Fault Refusal :=
  .next (respond .ack { s with ckt := sumClear })

/-- `CK.ADD b` (R146). -/
def execCkAdd (b : Byte) (s : State) : Host.Outcome State Fault Refusal :=
  .next (respond .ack { s with ckt := sumAdd s.ckt b })

/-- `CK.RES` (R147). -/
def execCkRes (s : State) : Host.Outcome State Fault Refusal :=
  .next (respond (.value (sumResult s.ckt)) s)

end Sys2Proof.Machine
end

