-- ==== Sys2Proof/Machine/BitDecoder.lean ====
section
/-! DEFINITION. The byte-level bit decoder: `WaitFalling` (R115), `BreakDecode` (R116), `ByteDecode` (R117), and the
commands `BD.BRK` (R119) and `BD.BYTE` (R120). The display marks of R121 are no output and are not recorded. -/

namespace Sys2Proof.Machine

/-- What a decode procedure returns: `(value, fe, brk, start, end)` (R116, R117). -/
structure Decoded where
  value : Byte
  fe : Bool
  brk : Bool
  startSample : Nat
  endSample : Nat
  deriving DecidableEq, Repr

/-- `WaitFalling`: to the next falling edge, skipping at most one rising edge (R115). -/
def waitFalling (c : Cfg) (tl : Timeline) (p : Pass) : Read Unit :=
  andThen (tlAdvanceToNextEdge c tl p) fun _ p =>
    if tlLevel tl p = .high then tlAdvanceToNextEdge c tl p else .ok () p

/-- Nat `count` bits at the points `h`, `h + 2`, … half-bits after the anchor, each into the shift register
(R112, R118). -/
def sampleBits (c : Cfg) (tl : Timeline) : (count h : Nat) → Pass → Read Unit
  | 0, _, p => .ok () p
  | count + 1, h, p =>
    andThen (advanceTo c tl (p.anchor + off c h) p) fun _ p =>
      sampleBits c tl count (h + 2) { p with sr := shiftIn p.sr (tlLevel tl p) }

/-- One turn of `BreakDecode`'s loop: the next low run, anchored and measured (R116). -/
def measureLowRun (c : Cfg) (tl : Timeline) (p : Pass) : Read Unit :=
  andThen (waitFalling c tl p) fun _ p =>
    andThen (tlNextEdge c tl p) fun e p =>
      .ok () { p with anchor := p.pos, n := nbits c (e - p.pos) }

/-- `BreakDecode`'s loop (R116), on a count of edges: each turn consumes at least one edge (R258), so a count of all
the edges is enough, and once it is used up no edge is left after the cursor. -/
def seekBreak (c : Cfg) (tl : Timeline) : Nat → Pass → Read Unit
  | 0, p => noEdge c p
  | turns + 1, p =>
    andThen (measureLowRun c tl p) fun _ p =>
      if c.breakMinBits ≤ p.n then .ok () p else seekBreak c tl turns p

/-- `BreakDecode` (R116). -/
def breakDecode (c : Cfg) (tl : Timeline) (p : Pass) : Read Decoded :=
  andThen (seekBreak c tl tl.edges.length p) fun _ p =>
    andThen (sampleBits c tl p.n 1 { p with sr := 0#8 }) fun _ p =>
      andThen (advanceTo c tl (p.anchor + off c (2 * p.n + 1)) p) fun _ p =>
        let p := { p with fe := decide (tlLevel tl p ≠ .high) }
        .ok { value := p.sr, fe := p.fe, brk := false, startSample := p.anchor, endSample := p.pos } p

/-- One return of `ByteDecode`: the results in their registers and in the record (R117). -/
def byteResult (value : Byte) (fe brk : Bool) (p : Pass) : Read Decoded :=
  .ok { value := value, fe := fe, brk := brk, startSample := p.anchor, endSample := p.pos }
    { p with fe := fe, brk := brk }

/-- `ByteDecode` once the stop bit has read `Low`: the two probes, the second only if the first saw no edge (R117). -/
def probeBreak (c : Cfg) (tl : Timeline) (p : Pass) : Read Decoded :=
  andThen (tlWouldTransitionWithin c tl (win c c.breakProbeBits) p) fun first p =>
    if first then byteResult p.sr true false p
    else
      andThen (tlAdvanceToNextEdge c tl p) fun _ p =>
        andThen (tlWouldTransitionWithin c tl (half c) p) fun second p =>
          if second then byteResult p.sr true false p else byteResult 0x00#8 false true p

/-- `ByteDecode` (R117). -/
def byteDecode (c : Cfg) (tl : Timeline) (p : Pass) : Read Decoded :=
  andThen (waitFalling c tl p) fun _ p =>
    andThen (advanceTo c tl (p.pos + off c 1) { p with anchor := p.pos }) fun _ p =>
      andThen (sampleBits c tl 8 3 { p with sr := 0#8 }) fun _ p =>
        andThen (advanceTo c tl (p.anchor + off c 19) p) fun _ p =>
          if tlLevel tl p = .high then byteResult p.sr false false p else probeBreak c tl p

/-- The common body of the two commands: a halted pass answers `Halted`, an unanswered request ends the pass or
suspends the command, and a decode's result is the response (R119, R120, R232, R245). -/
def runDecode (i : Instr) (decode : Cfg → Timeline → Pass → Read Decoded) (answer : Decoded → Response) (s : State) :
    Host.Outcome State Fault Refusal :=
  if s.pass.halted = .run then
    match decode s.cfg s.tlb s.pass with
    | .ok d p => .next (respond (answer d) { s with pass := p })
    | .exhausted q => .next (respond (.exhausted q) { s with pass := exhaustPass s.pass q })
    | .suspended => .next (suspendCommand i s)
    | .backward => .fault .cursorBackward
  else .next (answerHalted s)

/-- `BD.BRK` (R119). -/
def execBdBrk (s : State) : Host.Outcome State Fault Refusal :=
  runDecode .bdBrk breakDecode (fun d => .brk d.value d.fe d.startSample d.endSample) s

/-- `BD.BYTE` (R120). -/
def execBdByte (s : State) : Host.Outcome State Fault Refusal :=
  runDecode .bdByte byteDecode (fun d => .byte d.value d.fe d.brk d.startSample d.endSample) s

end Sys2Proof.Machine
end

