-- ==== Sys2Proof/Machine/FrameFsm.lean ====
section
/-! DEFINITION. The frame protocol state machine: the arms of an iteration (R153 to R163) and the commands `FSM.STEP`
(R150) and `FSM.STOP` (R165). -/

namespace Sys2Proof.Machine

/-- `Emit(Frame(start, end, kind, value, sequence_index, flags))` for the decoded element `d` (R90, R163). -/
def emitFrame (d : Decoded) (kind : Kind) (value : Byte) (sequenceIndex : Nat) (flags : BitVec 4)
    (x : Iteration) : Iteration :=
  emit (.frame { startSample := d.startSample, endSample := d.endSample, kind := kind, value := value,
                 sequenceIndex := sequenceIndex, flags := flags }) x

/-- The inter-byte-space frame, from the last frame's end to this anchor (R153). -/
def emitGap (d : Decoded) (x : Iteration) : Iteration :=
  if x.pass.showIbs then
    emit (.frame { startSample := x.pass.lastEnd, endSample := d.startSample, kind := .noFrame, value := 0x00#8,
                   sequenceIndex := 0, flags := 0#4 }) x
  else x

/-- A confirmed break opens a packet, and its header begins (R155, R157). -/
def confirmBreak (d : Decoded) (value : Byte) (flags : BitVec 4) (x : Iteration) : Iteration :=
  let x := emitFrame d .headerBreak value 0 flags (beginPacket (commitPacket x))
  goTo .headerSync { x with pass := { x.pass with showIbs := true, byteCount := 0 } }

/-- `HeaderBreakArm` (R155). -/
def headerBreakArm (d : Decoded) (flags : BitVec 4) (x : Iteration) : Iteration :=
  if d.value = 0x00#8 then confirmBreak d d.value flags x
  else goTo .noFrame (commitPacket (emitFrame d .headerBreak d.value 0 (breakFailFlags flags) x))

/-- `BreakInByteArm`: a disguised break is a new header (R157). -/
def breakInByteArm (d : Decoded) (x : Iteration) : Iteration := confirmBreak d 0x00#8 0#4 x

/-- `HeaderSyncArm` (R158). -/
def headerSyncArm (d : Decoded) (flags : BitVec 4) (x : Iteration) : Iteration :=
  if d.value = syncByte then goTo .headerPid (emitFrame d .headerSync d.value 0 flags x)
  else goTo .noFrame (commitPacket (emitFrame d .headerSync d.value 0 (syncFailFlags flags) x))

/-- `HeaderPIDArm`: any byte is the PID, and its checksum mode is chosen (R156, R159). -/
def headerPidArm (c : Cfg) (d : Decoded) (flags : BitVec 4) (x : Iteration) : Iteration :=
  let x := { x with pass := { x.pass with ckd := sumAdd sumClear d.value, pid := d.value,
                                          classic := isClassic c d.value } }
  goTo .responseDataZero (emitFrame d .headerPid d.value 0 flags x)

/-- `DataZeroArm`: the first response byte, always data (R160). -/
def dataZeroArm (c : Cfg) (d : Decoded) (flags : BitVec 4) (x : Iteration) : Iteration :=
  let sum := if x.pass.classic then sumClear else x.pass.ckd
  let x := emitFrame d .responseDataZero d.value 0 flags x
  goTo (if 1 < c.maxResponseBytes then .responseData else .responseChecksum)
    { x with pass := { x.pass with ckd := sumAdd sum d.value, byteCount := 1 } }

/-- `DataArm`: a later response byte, which may be the checksum and is folded in as data all the same (R161). -/
def dataArm (c : Cfg) (d : Decoded) (flags : BitVec 4) (x : Iteration) : Iteration :=
  let kind := if d.value = sumResult x.pass.ckd then .responsePotentialChecksum else .responseData
  let x := emitFrame d kind d.value x.pass.byteCount flags x
  let x := { x with pass := { x.pass with ckd := sumAdd x.pass.ckd d.value, byteCount := x.pass.byteCount + 1 } }
  if c.maxResponseBytes ≤ x.pass.byteCount then goTo .responseChecksum x else x

/-- `ChecksumArm`: the byte after the last data byte (R162). -/
def checksumArm (d : Decoded) (flags : BitVec 4) (x : Iteration) : Iteration :=
  goTo .noFrame (commitPacket (emitFrame d .responseChecksum d.value x.pass.byteCount
    (checksumFlags flags d.value (sumResult x.pass.ckd)) x))

/-- The arm of this iteration: the state's own, but a disguised break wins over it in every state other than
`HeaderBreak` (R150, R235). `NoFrame` has become `HeaderBreak` before the decode (R152). -/
def arm (c : Cfg) (d : Decoded) (x : Iteration) : Iteration :=
  let flags := decodeFlags d.fe
  match x.pass.fstate with
  | .noFrame => headerBreakArm d flags x
  | .headerBreak => headerBreakArm d flags x
  | .headerSync => if d.brk then breakInByteArm d x else headerSyncArm d flags x
  | .headerPid => if d.brk then breakInByteArm d x else headerPidArm c d flags x
  | .responseDataZero => if d.brk then breakInByteArm d x else dataZeroArm c d flags x
  | .responseData => if d.brk then breakInByteArm d x else dataArm c d flags x
  | .responseChecksum => if d.brk then breakInByteArm d x else checksumArm d flags x

/-- The end of a completed iteration: `last_end <- e`, then `Progress(TL.pos)` (R163). -/
def finishIteration (d : Decoded) (x : Iteration) : Iteration :=
  emit (.progress x.pass.pos) { x with pass := { x.pass with lastEnd := d.endSample } }

/-- What an iteration does once its decode has completed: the gap, the arm, the end (R150). -/
def iterate (c : Cfg) (d : Decoded) (p : Pass) : Iteration :=
  finishIteration d (arm c d (emitGap d { pass := p, ev := [] }))

/-- `NoFrame` re-enters as `HeaderBreak` at once, before the decode (R152). -/
def leaveNoFrame (p : Pass) : Pass :=
  if p.fstate = .noFrame then { p with fstate := .headerBreak } else p

/-- The decode of an iteration: a break in `HeaderBreak`, a byte in every other state (R150). -/
def decodeFor (c : Cfg) (tl : Timeline) (p : Pass) : Read Decoded :=
  if p.fstate = .headerBreak then breakDecode c tl p else byteDecode c tl p

/-- `FSM.STEP` (R150, R151, R232). -/
def execFsmStep (s : State) : Host.Outcome State Fault Refusal :=
  if s.pass.halted = .run then
    match decodeFor s.cfg s.tlb (leaveNoFrame s.pass) with
    | .ok d p => .next (deliver (iterate s.cfg d p).ev { s with pass := (iterate s.cfg d p).pass })
    | .exhausted q => .next (deliver [.exhausted q] { s with pass := exhaustPass (leaveNoFrame s.pass) q })
    | .suspended => .next (suspendCommand .fsmStep s)
    | .backward => .fault .cursorBackward
  else .next (answerHalted s)

/-- `FSM.STOP` (R165): a running pass is cancelled; a pass already ended stays as it ended. -/
def execFsmStop (s : State) : Host.Outcome State Fault Refusal :=
  .next (respond .ack
    (if s.pass.halted = .run then { s with pass := { s.pass with halted := .cancelled } } else s))

end Sys2Proof.Machine
end

