-- ==== Sys2Proof/Machine/Synthesizer.lean ====
section
/-! DEFINITION. The waveform synthesizer's commands `SY.*` (R200 to R210). They read `CFG` and act on the
synthesizer's registers alone, halted or not (R200, R245). -/

namespace Sys2Proof.Machine

/-- The bit-times of a byte command: ten and the idle gap (R203). -/
def byteCost (c : Cfg) : Nat := 10 + c.idleGapBits

/-- The bit-times of `SY.BRK` (R203). -/
def breakCost (c : Cfg) : Nat := c.synBreakBits + c.synDelimBits

/-- The eight data bit-times: `r` shifted out most significant bit first (R207). -/
def driveBits (c : Cfg) (r : Byte) (y : Synth) : Synth :=
  [7, 6, 5, 4, 3, 2, 1, 0].foldl (fun y j => drive c (levelOfBit (r.getLsbD j)) 1 y) y

/-- `SY.BYTE`'s drive calls: start, the reversed byte most significant bit first, stop, gap (R207). -/
def driveByte (c : Cfg) (b : Byte) (y : Synth) : Synth :=
  drive c .high c.idleGapBits (drive c .high 1 (driveBits c (reverseBits b) (drive c .low 1 y)))

/-- `SY.BRK`'s drive calls (R206). -/
def driveBreak (c : Cfg) (y : Synth) : Synth :=
  drive c .high c.synDelimBits (drive c .low c.synBreakBits y)

/-- A synthesis command: refused with nothing changed if its bit-times do not fit, and otherwise it runs and answers
with the edges it appended (R201). -/
def synthesize (cost : Nat) (run : Synth → Synth) (s : State) : Host.Outcome State Fault Refusal :=
  if synthFits s.cfg cost s.synth then
    .next (respond (.edges ((run s.synth).edges.drop s.synth.edges.length)) { s with synth := run s.synth })
  else .next (refuseCommand s)

/-- `SY.IDLE n` (R205). A count of 0 is `Illegal`; the decoder already rejects its word (R96). -/
def execSyIdle (n : Byte) (s : State) : Host.Outcome State Fault Refusal :=
  if n = 0#8 then .next (refuseCommand s)
  else synthesize n.toNat (drive s.cfg .high n.toNat) s

/-- `SY.BRK` (R206). -/
def execSyBrk (s : State) : Host.Outcome State Fault Refusal :=
  synthesize (breakCost s.cfg) (driveBreak s.cfg) s

/-- `SY.BYTE b` (R207). -/
def execSyByte (b : Byte) (s : State) : Host.Outcome State Fault Refusal :=
  synthesize (byteCost s.cfg) (driveByte s.cfg b) s

/-- The checksum a PID byte starts: cleared, and in enhanced mode the PID byte summed (R208). -/
def startChecksum (c : Cfg) (p : Byte) (y : Synth) : Synth :=
  { y with cks := if isClassic c p then sumClear else sumAdd sumClear p, sClassic := isClassic c p }

/-- `SY.PID id` (R208). -/
def execSyPid (id : BitVec 6) (s : State) : Host.Outcome State Fault Refusal :=
  synthesize (byteCost s.cfg)
    (fun y => driveByte s.cfg (parity id) (startChecksum s.cfg (parity id) y)) s

/-- `SY.DATA b` (R209). -/
def execSyData (b : Byte) (s : State) : Host.Outcome State Fault Refusal :=
  synthesize (byteCost s.cfg) (fun y => driveByte s.cfg b { y with cks := sumAdd y.cks b }) s

/-- `SY.CHK` (R210). -/
def execSyChk (s : State) : Host.Outcome State Fault Refusal :=
  synthesize (byteCost s.cfg) (driveByte s.cfg (sumResult s.synth.cks)) s

end Sys2Proof.Machine
end

