-- ==== Sys2Proof/Machine/Utility.lean ====
section
/-! DEFINITION. The utility commands `UT.PAR` and `UT.REV` (R213, R214): no state is read, and none but the response is
written. -/

namespace Sys2Proof.Machine

/-- `UT.PAR id` (R213). -/
def execUtPar (id : BitVec 6) (s : State) : Host.Outcome State Fault Refusal :=
  .next (respond (.value (parity id)) s)

/-- `UT.REV b` (R214). -/
def execUtRev (b : Byte) (s : State) : Host.Outcome State Fault Refusal :=
  .next (respond (.value (reverseBits b)) s)

end Sys2Proof.Machine
end

