-- ==== Sys2Proof/Machine/Dispatch.lean ====
section
/-! DEFINITION. One arm per command: the meaning of each row of spec/opcode_table.json. -/

namespace Sys2Proof.Machine

def exec (i : Instr) (s : State) : Host.Outcome State Fault Refusal :=
  match i with
  | .ckClr => Sys2Proof.Machine.execCkClr s
  | .ckAdd b => Sys2Proof.Machine.execCkAdd b s
  | .ckRes => Sys2Proof.Machine.execCkRes s
  | .bdBrk => Sys2Proof.Machine.execBdBrk s
  | .bdByte => Sys2Proof.Machine.execBdByte s
  | .fsmStep => Sys2Proof.Machine.execFsmStep s
  | .fsmStop => Sys2Proof.Machine.execFsmStop s
  | .syIdle n => Sys2Proof.Machine.execSyIdle n s
  | .syBrk => Sys2Proof.Machine.execSyBrk s
  | .syByte b => Sys2Proof.Machine.execSyByte b s
  | .syPid id => Sys2Proof.Machine.execSyPid id s
  | .syData b => Sys2Proof.Machine.execSyData b s
  | .syChk => Sys2Proof.Machine.execSyChk s
  | .utPar id => Sys2Proof.Machine.execUtPar id s
  | .utRev b => Sys2Proof.Machine.execUtRev b s

end Sys2Proof.Machine
end

