-- ==== Sys2Proof/WellFormed.lean ====
section
/-! DEFINITION. Which terms of `Instr` are commands: the operand lies in its immediate class (R95).
The zero, byte and id6 classes are met by the operand's type; the count class is the one that needs a check. -/

namespace Sys2Proof

/-- A command whose operand the block accepts: a count of bit-times is not 0 (R95, R96). -/
def Instr.wellFormed : Instr → Bool
  | .ckClr => true
  | .ckAdd _ => true
  | .ckRes => true
  | .bdBrk => true
  | .bdByte => true
  | .fsmStep => true
  | .fsmStop => true
  | .syIdle n => n != 0#8
  | .syBrk => true
  | .syByte _ => true
  | .syPid _ => true
  | .syData _ => true
  | .syChk => true
  | .utPar _ => true
  | .utRev _ => true

end Sys2Proof
end

