-- ==== Sys2Proof/Decode.lean ====
section
/-! DEFINITION. The command word: its two fields (R93), its opcode map (R94), its immediate classes (R95), the reserved
space (R96), the decoder, and the encoder written from the same table. -/

namespace Sys2Proof

/-- `op = word[15:8]` (R93). -/
def opField (w : Word) : Byte := w.extractLsb' 8 8

/-- `imm = word[7:0]` (R93). -/
def immField (w : Word) : Byte := w.extractLsb' 0 8

/-- The word of an op byte and an immediate: `(op << 8) | imm` (R98). -/
def wordOf (op imm : Byte) : Word := op ++ imm

/-- The four immediate classes (R95). -/
inductive ImmClass where
  | zero
  | byte
  | count
  | id6
  deriving DecidableEq, Repr

/-- The legal immediates of a class (R95). -/
def ImmClass.legal : ImmClass → Byte → Bool
  | .zero, imm => imm == 0#8
  | .byte, _ => true
  | .count, imm => imm != 0#8
  | .id6, imm => imm.extractLsb' 6 2 == 0#2

/-- The class of each op of R94, none for a reserved op. -/
def immClassOf (op : Byte) : Option ImmClass :=
  match op with
  | 0x01#8 => some .zero
  | 0x02#8 => some .byte
  | 0x03#8 => some .zero
  | 0x10#8 => some .zero
  | 0x11#8 => some .zero
  | 0x20#8 => some .zero
  | 0x21#8 => some .zero
  | 0x30#8 => some .count
  | 0x31#8 => some .zero
  | 0x32#8 => some .byte
  | 0x33#8 => some .id6
  | 0x34#8 => some .byte
  | 0x35#8 => some .zero
  | 0x40#8 => some .id6
  | 0x41#8 => some .byte
  | _ => none

/-- Why a word is reserved (R96). -/
inductive Reserved where
  /-- The op byte is not in the table of R94. -/
  | op (op : Byte)
  /-- The immediate lies outside the class of its op. -/
  | imm (op imm : Byte)
  deriving DecidableEq, Repr

/-- The command of an op of R94 with an immediate of its class; a reserved op has none. -/
def commandOf (op imm : Byte) : Option Instr :=
  match op with
  | 0x01#8 => some .ckClr
  | 0x02#8 => some (.ckAdd imm)
  | 0x03#8 => some .ckRes
  | 0x10#8 => some .bdBrk
  | 0x11#8 => some .bdByte
  | 0x20#8 => some .fsmStep
  | 0x21#8 => some .fsmStop
  | 0x30#8 => some (.syIdle imm)
  | 0x31#8 => some .syBrk
  | 0x32#8 => some (.syByte imm)
  | 0x33#8 => some (.syPid (imm.extractLsb' 0 6))
  | 0x34#8 => some (.syData imm)
  | 0x35#8 => some .syChk
  | 0x40#8 => some (.utPar (imm.extractLsb' 0 6))
  | 0x41#8 => some (.utRev imm)
  | _ => none

/-- The decoder, total on 16-bit words. The decoding depends on the word alone (R100): a reserved op is rejected
first, then an immediate outside the class of its op. -/
def decode (w : Word) : Except Reserved Instr :=
  match immClassOf (opField w), commandOf (opField w) (immField w) with
  | some cls, some i => if cls.legal (immField w) then .ok i else .error (.imm (opField w) (immField w))
  | _, _ => .error (.op (opField w))

/-- The op byte of each command (R94). -/
def opByte : Instr → Byte
  | .ckClr => 0x01#8
  | .ckAdd _ => 0x02#8
  | .ckRes => 0x03#8
  | .bdBrk => 0x10#8
  | .bdByte => 0x11#8
  | .fsmStep => 0x20#8
  | .fsmStop => 0x21#8
  | .syIdle _ => 0x30#8
  | .syBrk => 0x31#8
  | .syByte _ => 0x32#8
  | .syPid _ => 0x33#8
  | .syData _ => 0x34#8
  | .syChk => 0x35#8
  | .utPar _ => 0x40#8
  | .utRev _ => 0x41#8

/-- The immediate of each command: its operand, zero-extended, or 0 for the zero class (R95). -/
def immByte : Instr → Byte
  | .ckClr => 0#8
  | .ckAdd b => b
  | .ckRes => 0#8
  | .bdBrk => 0#8
  | .bdByte => 0#8
  | .fsmStep => 0#8
  | .fsmStop => 0#8
  | .syIdle n => n
  | .syBrk => 0#8
  | .syByte b => b
  | .syPid id => id.setWidth 8
  | .syData b => b
  | .syChk => 0#8
  | .utPar id => id.setWidth 8
  | .utRev b => b

/-- The encoder: the word of a command (R98). -/
def encode (i : Instr) : Word := wordOf (opByte i) (immByte i)

/-- What the decoder reads from an instruction whose bits are `w`, numbered as spec/opcode_table.json numbers them:
a command is one 16-bit word (R100), so the bits above `nbits` are zeros and there is no word order to lay out. -/
def decodeTableWord (nbits w : Nat) : Option Instr :=
  match decode (BitVec.ofNat 16 (w % 2 ^ nbits)) with
  | .ok i => some i
  | .error _ => none

end Sys2Proof
end

