-- ==== Sys2Proof/Machine/Reset.lean ====
section
/-! DEFINITION. Reset: the legality of its inputs (R234), the reset itself (R250, R251), and the delivery of more of an
`UNBOUNDED` timeline (R69, R261). -/

namespace Sys2Proof.Machine

/-- The conditions of R234 on the configuration; the last rows are the widths of R20. -/
abbrev CfgLegal (c : Cfg) : Prop :=
  (c.protocolVersion = 1 ∨ c.protocolVersion = 2) ∧
  0 < c.sampleRate ∧ 0 < c.bitRate ∧ 2 * c.bitRate ≤ c.sampleRate ∧
  11 ≤ c.breakMinBits ∧ 1 ≤ c.breakProbeBits ∧ 1 ≤ c.maxResponseBytes ∧ c.maxResponseBytes ≤ 8 ∧
  c.breakMinBits ≤ c.synBreakBits ∧ 1 ≤ c.synDelimBits ∧
  c.sampleRate < 2 ^ 32 ∧ c.bitRate < 2 ^ 32 ∧ c.breakMinBits < 2 ^ 8 ∧ c.breakProbeBits < 2 ^ 8 ∧
  c.synBreakBits < 2 ^ 8 ∧ c.synDelimBits < 2 ^ 8 ∧ c.idleGapBits < 2 ^ 8

/-- The conditions of R234 on the timeline: `EDGES` strictly increasing, every edge from `S0` on and up to the last
sample, every position within `SAMPLE_W`. For an `UNBOUNDED` timeline the last sample is the last one supplied
(notes/assumptions/4.md). -/
abbrev TimelineLegal (c : Cfg) (tl : Timeline) : Prop :=
  tl.s0 ≤ tl.lastSample ∧ tl.lastSample ≤ maxSample c ∧
  tl.edges.Pairwise (fun a b => a < b) ∧ ∀ e ∈ tl.edges, tl.s0 ≤ e ∧ e ≤ tl.lastSample

/-- The legality of a reset's inputs (R234). -/
abbrev InputsLegal (inputs : ResetInputs) : Prop :=
  CfgLegal inputs.cfg ∧ TimelineLegal inputs.cfg inputs.tlb

/-- The reset function: no state for illegal inputs (R234, R251). -/
def resetWith (inputs : ResetInputs) : Option State :=
  if InputsLegal inputs then some (State.ofInputs inputs) else none

/-- Reset asserted in a run: the block is as `resetWith` leaves it. The host's further inputs and the model's refusal
mark are no state of the block and stay (R233, R251; notes/assumptions/7.md). -/
def assertReset (inputs : ResetInputs) (s : State) : Option State :=
  (resetWith inputs).map fun t => { t with inbox := s.inbox, refused := s.refused }

/-- A delivery that keeps the duties of R261: of an `UNBOUNDED` timeline, in order, after the samples already supplied,
within `SAMPLE_W`. -/
abbrev SupplyLegal (c : Cfg) (tl : Timeline) (x : Supply) : Prop :=
  c.timelineKind = .unbounded ∧ tl.lastSample ≤ x.upTo ∧ x.upTo ≤ maxSample c ∧
  x.edges.Pairwise (fun a b => a < b) ∧ ∀ e ∈ x.edges, tl.lastSample < e ∧ e ≤ x.upTo

/-- The timeline with a delivery added (R69). -/
def extendTimeline (tl : Timeline) (x : Supply) : Timeline :=
  { tl with edges := tl.edges ++ x.edges, lastSample := x.upTo }

/-- The timeline source delivers: only the binding changes. -/
def acceptSupply (x : Supply) (s : State) : Option State :=
  if SupplyLegal s.cfg s.tlb x then some { s with tlb := extendTimeline s.tlb x } else none

end Sys2Proof.Machine
end

