-- ==== Sys2Proof/Machine/Ports.lean ====
section
/-! DEFINITION. The ports: which of the host's inputs the block accepts next, and what it is (R72, R93, R250, R69). -/

namespace Sys2Proof.Machine

/-- What the next step does. -/
inductive Turn where
  /-- No command runs: the state is `s`. -/
  | hold (s : State)
  /-- The command `i` runs in the state `s`. -/
  | run (i : Instr) (s : State)
  /-- The host has made no legal move. -/
  | refuse (r : Refusal)
  deriving DecidableEq, Repr

/-- A turn that takes the state given, or refuses where there is none. -/
def turnOf (r : Refusal) : Option State → Turn
  | some s => .hold s
  | none => .refuse r

/-- A command word on the command port: a legal word is its command, a reserved one is refused (R96, R233). -/
def acceptWord (w : Word) (s : State) : Turn :=
  match decode w with
  | .ok i => .run i s
  | .error _ => .hold (refuseCommand s)

/-- While no command is in progress, the block takes the host's next input; with none it idles and holds its
state (R72, R244). -/
def acceptNext (s : State) : Turn :=
  match s.inbox with
  | [] => .hold s
  | .command w :: rest => acceptWord w { s with inbox := rest }
  | .reset inputs :: rest => turnOf .illegalReset (assertReset inputs { s with inbox := rest })
  | .extend x :: rest => turnOf .hostDuty (acceptSupply x { s with inbox := rest })

/-- While the command `i` is suspended, a delivery of the timeline source lets it go on, a reset ends it, and a further
command word waits: the port takes one command at a time (R5, R69). The command then runs anew; since a
delivery never changes a sample already supplied, what it read before it reads again. -/
def acceptSuspended (i : Instr) (s : State) : Turn :=
  match s.inbox with
  | [] => .hold s
  | .command _ :: _ => .hold s
  | .reset inputs :: rest => turnOf .illegalReset (assertReset inputs { s with inbox := rest })
  | .extend x :: rest =>
    match acceptSupply x { s with inbox := rest, request := none } with
    | some t => .run i t
    | none => .refuse .hostDuty

/-- What the block does next. -/
def nextTurn (s : State) : Turn :=
  match s.request with
  | none => acceptNext s
  | some i => acceptSuspended i s

/-- The command word `w` placed as the host's next input, with no command in progress before it. -/
def placeCommand (w : Word) (s : State) : State :=
  { s with request := none, inbox := .command w :: s.inbox }

end Sys2Proof.Machine
end

