-- ==== Sys2Proof/Machine/Assembler.lean ====
section
/-! DEFINITION. The assembler syntax of command words (R98) and the expansion of the pseudo-instructions (R99, R212). The
block never sees this text: it is how a host writes a program. -/

namespace Sys2Proof.Machine

/-- The mnemonics of R94, each with its op byte. -/
def mnemonicTable : List (String × Byte) :=
  [("CK.CLR", 0x01#8), ("CK.ADD", 0x02#8), ("CK.RES", 0x03#8), ("BD.BRK", 0x10#8), ("BD.BYTE", 0x11#8),
   ("FSM.STEP", 0x20#8), ("FSM.STOP", 0x21#8), ("SY.IDLE", 0x30#8), ("SY.BRK", 0x31#8), ("SY.BYTE", 0x32#8),
   ("SY.PID", 0x33#8), ("SY.DATA", 0x34#8), ("SY.CHK", 0x35#8), ("UT.PAR", 0x40#8), ("UT.REV", 0x41#8)]

/-- The op byte a mnemonic names (R94). -/
def opOfMnemonic (name : List Char) : Option Byte :=
  (mnemonicTable.find? (fun row => decide (row.1.toList = name))).map Prod.snd

/-- The mnemonic of a command, by its op byte (R94). -/
def mnemonicOf (i : Instr) : String :=
  match mnemonicTable.find? (fun row => decide (row.2 = opByte i)) with
  | some row => row.1
  | none => ""

/-- The value of a digit in base 16. -/
def digitValue (ch : Char) : Option Nat :=
  if 48 ≤ ch.toNat ∧ ch.toNat ≤ 57 then some (ch.toNat - 48)
  else if 97 ≤ ch.toNat ∧ ch.toNat ≤ 102 then some (ch.toNat - 87)
  else if 65 ≤ ch.toNat ∧ ch.toNat ≤ 70 then some (ch.toNat - 55)
  else none

/-- The number its digits write, most significant first, on top of `acc`. -/
def digits (base : Nat) : Nat → List Char → Option Nat
  | acc, [] => some acc
  | acc, ch :: rest =>
    match digitValue ch with
    | some d => if d < base then digits base (base * acc + d) rest else none
    | none => none

/-- An immediate, in hex (`0x50`) or decimal, that fits eight bits (R98). -/
def parseImmediate (cs : List Char) : Option Byte :=
  let value := match cs with
    | '0' :: 'x' :: ch :: rest => digits 16 0 (ch :: rest)
    | ch :: rest => digits 10 0 (ch :: rest)
    | [] => none
  match value with
  | some v => if v < 256 then some (BitVec.ofNat 8 v) else none
  | none => none

/-- A line up to its comment: `;` starts one (R98). -/
def beforeComment (line : List Char) : List Char := line.takeWhile (fun ch => decide (ch ≠ ';'))

/-- The words of a line, in order: the runs of characters between blanks. -/
def lineWords : List Char → List (List Char)
  | [] => []
  | ch :: rest =>
    if ch = ' ' ∨ ch = '\t' then [] :: lineWords rest
    else
      match lineWords rest with
      | [] => [[ch]]
      | w :: ws => (ch :: w) :: ws

/-- What one line of a program is. -/
inductive AsmLine where
  | blank
  | word (w : Word)
  | malformed
  deriving DecidableEq, Repr

/-- One line: `MNEMONIC` or `MNEMONIC imm`, its word `(op << 8) | imm` (R98). The word may be a reserved one: the
decoder judges it, not the assembler. -/
def assembleLine (line : List Char) : AsmLine :=
  match (lineWords (beforeComment line)).filter (fun w => !w.isEmpty) with
  | [] => .blank
  | [name] =>
    match opOfMnemonic name with
    | some op => .word (wordOf op 0#8)
    | none => .malformed
  | [name, imm] =>
    match opOfMnemonic name, parseImmediate imm with
    | some op, some b => .word (wordOf op b)
    | _, _ => .malformed
  | _ => .malformed

/-- The lines of a text. -/
def textLines : List Char → List (List Char)
  | [] => [[]]
  | ch :: rest =>
    if ch = '\n' then [] :: textLines rest
    else
      match textLines rest with
      | [] => [[ch]]
      | l :: ls => (ch :: l) :: ls

/-- The command words of a program text, none if a line is malformed (R98). -/
def assemble (text : String) : Option (List Word) :=
  (textLines text.toList).foldr
    (fun line acc => match assembleLine line, acc with
      | .blank, some ws => some ws
      | .word w, some ws => some (w :: ws)
      | _, _ => none)
    (some [])

/-- The pseudo-instructions (R99). -/
inductive Pseudo where
  /-- `SY.SYNC`. -/
  | sync
  /-- `SY.FRAME id, [d0, ..., dk-1] (idle j) (chk c)`. -/
  | frame (id : BitVec 6) (data : List Byte) (idle chk : Option Byte)
  deriving DecidableEq, Repr

/-- The commands a pseudo-instruction expands to, none outside `1 ≤ k ≤ 8` and `1 ≤ j ≤ 255` (R99, R212). -/
def expand : Pseudo → Option (List Instr)
  | .sync => some [.syByte syncByte]
  | .frame id data idle chk =>
    if 1 ≤ data.length ∧ data.length ≤ 8 ∧ idle ≠ some 0#8 then
      some ((match idle with | some j => [.syIdle j] | none => [])
        ++ [.syBrk, .syByte syncByte, .syPid id]
        ++ data.map .syData
        ++ (match chk with | some c => [.syByte c] | none => [.syChk]))
    else none

end Sys2Proof.Machine
end

