-- ==== Sys2Proof/Machine/Emission.lean ====
section
/-! DEFINITION. Frame emission: the numeric codes of the output records (R31, R88, R91, R92), the state-to-kind mapping
(R190), and the annotated view of a frame (R192 to R195). All of it is a function of what was emitted: nothing
here feeds back into the machine (R195). -/

namespace Sys2Proof.Machine

/-- The kind codes (R88). -/
def kindCode : Kind → BitVec 3
  | .noFrame => 0#3
  | .headerBreak => 1#3
  | .headerSync => 2#3
  | .headerPid => 3#3
  | .responseDataZero => 4#3
  | .responseData => 5#3
  | .responseChecksum => 6#3
  | .responsePotentialChecksum => 7#3

/-- The state codes (R92). -/
def fstateCode : FState → BitVec 3
  | .noFrame => 0#3
  | .headerBreak => 1#3
  | .headerSync => 2#3
  | .headerPid => 3#3
  | .responseDataZero => 4#3
  | .responseData => 5#3
  | .responseChecksum => 6#3

/-- The codes of `halted` (R31). -/
def haltCode : Halt → BitVec 2
  | .run => 0#2
  | .exhausted => 1#2
  | .cancelled => 2#2

/-- The event tags (R91). -/
def eventTag : Event → Nat
  | .frame _ => 0
  | .beginPacket => 1
  | .commitPacket => 2
  | .progress _ => 3
  | .exhausted _ => 4
  | .halted _ => 5

/-- The kind of an iteration's frame, from the state at decode, the decode result and the checksum comparison, and
from nothing else (R190). -/
def emittedKind (f : FState) (brk matched : Bool) : Kind :=
  match f with
  | .noFrame => .headerBreak
  | .headerBreak => .headerBreak
  | .headerSync => if brk then .headerBreak else .headerSync
  | .headerPid => if brk then .headerBreak else .headerPid
  | .responseDataZero => if brk then .headerBreak else .responseDataZero
  | .responseData =>
    if brk then .headerBreak else if matched then .responsePotentialChecksum else .responseData
  | .responseChecksum => if brk then .headerBreak else .responseChecksum

/-- The frames of a list of events, in order. -/
def framesOf (ev : List Event) : List Frame :=
  ev.filterMap fun e => match e with
    | .frame f => some f
    | .beginPacket => none
    | .commitPacket => none
    | .progress _ => none
    | .exhausted _ => none
    | .halted _ => none

/-- The named fields of the annotated view (R192) and its flag booleans (R193): an absent field is `none`, and a
boolean field that is absent is `false`. -/
structure Annotated where
  protectedIdentifier : Option (BitVec 6)
  data : Option Byte
  index : Option Nat
  checksum : Option Byte
  byteFramingError : Bool
  headerBreakExpected : Bool
  headerSyncExpected : Bool
  checksumMismatch : Bool
  deriving DecidableEq, Repr

/-- The view with no named field, and the flag booleans of a frame's flags (R193). -/
def annotateFlags (flags : BitVec 4) : Annotated where
  protectedIdentifier := none
  data := none
  index := none
  checksum := none
  byteFramingError := flags &&& flagFramingError != 0#4
  headerBreakExpected := flags &&& flagHeaderBreakExpected != 0#4
  headerSyncExpected := flags &&& flagHeaderSyncExpected != 0#4
  checksumMismatch := flags &&& flagChecksumMismatch != 0#4

/-- `Annotate(f)` (R192, R193). -/
def annotate (f : Frame) : Annotated :=
  match f.kind with
  | .noFrame => annotateFlags f.flags
  | .headerBreak => annotateFlags f.flags
  | .headerSync => annotateFlags f.flags
  | .headerPid => { annotateFlags f.flags with protectedIdentifier := some (idOf f.value) }
  | .responseDataZero => { annotateFlags f.flags with data := some f.value, index := some f.sequenceIndex }
  | .responseData => { annotateFlags f.flags with data := some f.value, index := some f.sequenceIndex }
  | .responseChecksum => { annotateFlags f.flags with checksum := some f.value }
  | .responsePotentialChecksum =>
    { annotateFlags f.flags with checksum := some f.value, data := some f.value, index := some f.sequenceIndex }

/-- `emit_annotated(view, kind_label, start_sample, end_sample)` of a frame (R192, R194). -/
def annotatedRecord (f : Frame) : Annotated × String × Nat × Nat :=
  (annotate f, Config.kindLabel (kindCode f.kind), f.startSample, f.endSample)

end Sys2Proof.Machine
end

