-- ==== Sys2Proof/Safety.lean ====
section
/-! DEFINITION. What a good state and a good event stream are, in the terms the statements use: the invariants of the
registers (R22 to R38, R246), of the packets and flags (R167), of the frame order (R168), and of the synthesized line
(R71, R217). -/

namespace Sys2Proof.Safety

open Sys2Proof.Machine

/-! ### Registers -/

/-- The latched configuration and timeline are legal (R234). -/
abbrev InputsHeld (s : State) : Prop := CfgLegal s.cfg ∧ TimelineLegal s.cfg s.tlb

/-- The cursor is a valid sample, and `last_end` is a former cursor (R22, R29, R62, R246). -/
abbrev CursorLegal (s : State) : Prop :=
  s.tlb.s0 ≤ s.pass.lastEnd ∧ s.pass.lastEnd ≤ s.pass.pos ∧ s.pass.pos ≤ s.tlb.lastSample

/-- Whether the state machine is past a confirmed break, that is inside a packet (R154, R155). -/
def insidePacket : FState → Bool
  | .noFrame => false
  | .headerBreak => false
  | .headerSync => true
  | .headerPid => true
  | .responseDataZero => true
  | .responseData => true
  | .responseChecksum => true

/-- The frame registers agree with the state: `byte_count` counts the response (R24, R160 to R162), a packet is open
exactly past a confirmed break (R30, R155), and then inter-byte spaces are shown (R28). -/
abbrev FsmLegal (s : State) : Prop :=
  s.pass.byteCount ≤ s.cfg.maxResponseBytes ∧
  (s.pass.fstate = .responseData → 1 ≤ s.pass.byteCount ∧ s.pass.byteCount < s.cfg.maxResponseBytes) ∧
  (s.pass.fstate = .responseChecksum → s.pass.byteCount = s.cfg.maxResponseBytes) ∧
  s.pass.packetOpen = insidePacket s.pass.fstate ∧
  (s.pass.packetOpen = true → s.pass.showIbs = true)

/-- A command in progress is one of the three that read the timeline, of a pass that runs, on a timeline that can
grow (R40, R69, R245). -/
abbrev RequestLegal (s : State) : Prop :=
  ∀ i, s.request = some i →
    (i = .bdBrk ∨ i = .bdByte ∨ i = .fsmStep) ∧ s.pass.halted = .run ∧ s.cfg.timelineKind = .unbounded

/-! ### The event stream -/

/-- Where an event stream stands with respect to its packets. -/
inductive PacketScan where
  | outside
  | opened
  | inside
  deriving DecidableEq, Repr

/-- One event of a stream whose packets are well formed (R167): a packet is opened outside packets only, its break
follows at once with value `0x00`, no other `HeaderBreak` frame lies inside it, and only an open packet is committed;
outside packets only inter-byte spaces and failed breaks stand. -/
def scanEvent : PacketScan → Event → Option PacketScan
  | .outside, .beginPacket => some .opened
  | .outside, .commitPacket => none
  | .outside, .frame f =>
    if f.kind = .noFrame ∨ (f.kind = .headerBreak ∧ f.value ≠ 0x00#8) then some .outside else none
  | .outside, .progress _ => some .outside
  | .outside, .exhausted _ => some .outside
  | .outside, .halted _ => some .outside
  | .opened, .frame f => if f.kind = .headerBreak ∧ f.value = 0x00#8 then some .inside else none
  | .opened, .beginPacket => none
  | .opened, .commitPacket => none
  | .opened, .progress _ => none
  | .opened, .exhausted _ => none
  | .opened, .halted _ => none
  | .inside, .beginPacket => none
  | .inside, .commitPacket => some .outside
  | .inside, .frame f => if f.kind = .headerBreak then none else some .inside
  | .inside, .progress _ => some .inside
  | .inside, .exhausted _ => some .inside
  | .inside, .halted _ => some .inside

/-- The scan of a stream, none where an event breaks the rule. -/
def scanEvents : PacketScan → List Event → Option PacketScan
  | st, [] => some st
  | st, e :: rest =>
    match scanEvent st e with
    | some st' => scanEvents st' rest
    | none => none

/-- The packets of the stream are well formed, and `packet_open` says whether one is open (R30, R167). -/
abbrev PacketsLegal (s : State) : Prop :=
  scanEvents .outside s.events = some (if s.pass.packetOpen then .inside else .outside)

/-- The `flags` values that can occur, per kind (R167). -/
def flagsAllowed : Kind → BitVec 4 → Bool
  | .noFrame, fl => fl == 0x0#4
  | .headerBreak, fl => fl == 0x0#4 || fl == 0x1#4 || fl == 0x2#4 || fl == 0x3#4
  | .headerSync, fl => fl == 0x0#4 || fl == 0x1#4 || fl == 0x4#4 || fl == 0x5#4
  | .headerPid, fl => fl == 0x0#4 || fl == 0x1#4
  | .responseDataZero, fl => fl == 0x0#4 || fl == 0x1#4
  | .responseData, fl => fl == 0x0#4 || fl == 0x1#4
  | .responsePotentialChecksum, fl => fl == 0x0#4 || fl == 0x1#4
  | .responseChecksum, fl => fl == 0x0#4 || fl == 0x1#4 || fl == 0x8#4 || fl == 0x9#4

/-- Every frame of the stream has flags its kind can have (R167). -/
abbrev FlagsLegal (s : State) : Prop := ∀ f ∈ framesOf s.events, flagsAllowed f.kind f.flags = true

/-- The frames of the stream are in order: each ends no earlier than it starts, each starts no earlier than every
frame before it ends, and none ends after `last_end` (R168). -/
abbrev FramesOrdered (s : State) : Prop :=
  (framesOf s.events).Pairwise (fun f g => f.endSample ≤ g.startSample) ∧
  ∀ f ∈ framesOf s.events, f.startSample ≤ f.endSample ∧ f.endSample ≤ s.pass.lastEnd

/-! ### The synthesized line -/

/-- The synthesizer between commands: `T` and the last sample fit their widths (R33, R246), the line is high (R205),
and the edges rise, an even number of them, each before the present bit-time (R71, R201). -/
abbrev SynthLegal (s : State) : Prop :=
  s.synth.t ≤ 2 ^ 64 - 1 ∧ edgeAt s.cfg s.synth.t ≤ maxSample s.cfg ∧ s.synth.lvl = .high ∧
  s.synth.edges.Pairwise (fun a b => a < b) ∧ s.synth.edges.length % 2 = 0 ∧
  ∀ e ∈ s.synth.edges, e < edgeAt s.cfg s.synth.t

/-! ### All of it -/

/-- The invariant of the block: it holds after every reset and every step keeps it. -/
abbrev BlockLegal (s : State) : Prop :=
  InputsHeld s ∧ CursorLegal s ∧ FsmLegal s ∧ RequestLegal s ∧ PacketsLegal s ∧ FlagsLegal s ∧
  FramesOrdered s ∧ SynthLegal s

/-- A run in which no command was refused (R233): the premise a claim about a run may take. -/
abbrev NoRefusal (s : State) : Prop := s.refused = false

/-! ### The words the statements use -/

/-- The events of the inter-byte space that an iteration emits before a break or byte anchored at `start` (R153). -/
def gapEvents (p : Pass) (start : Nat) : List Event :=
  if p.showIbs then
    [.frame { startSample := p.lastEnd, endSample := start, kind := .noFrame, value := 0x00#8, sequenceIndex := 0,
              flags := 0x0#4 }]
  else []

/-- The `CommitPacket` of an open packet (R154). -/
def commitEvents (p : Pass) : List Event := if p.packetOpen then [.commitPacket] else []

/-- The frame event of a decoded element (R90, R163). -/
def frameEvent (d : Decoded) (kind : Kind) (value : Byte) (sequenceIndex : Nat) (flags : BitVec 4) : Event :=
  .frame { startSample := d.startSample, endSample := d.endSample, kind := kind, value := value,
           sequenceIndex := sequenceIndex, flags := flags }

/-- A state after an `FSM.STEP` that answered with the events `ev` and left the pass `p`: nothing else differs. -/
def afterStep (s : State) (ev : List Event) (p : Pass) : State :=
  { s with pass := p, events := s.events ++ ev, response := some (.events ev) }

/-- The pass `q` differs from `p` in the cursor and the bit decoder's transient registers at most (R22, R32). -/
abbrev OnlyCursorMoved (p q : Pass) : Prop :=
  q = { p with pos := q.pos, anchor := q.anchor, sr := q.sr, n := q.n, fe := q.fe, brk := q.brk }

/-- `e` is the first edge after `a` (R65). -/
abbrev FirstEdgeAfter (tl : Timeline) (a e : Nat) : Prop :=
  e ∈ tl.edges ∧ a < e ∧ ∀ x ∈ tl.edges, a < x → e ≤ x

/-- `e` is the first falling edge after `a` (R61, R115). -/
abbrev FirstFallAfter (tl : Timeline) (a e : Nat) : Prop :=
  e ∈ tl.edges ∧ a < e ∧ levelAt tl e = .low ∧ ∀ x ∈ tl.edges, a < x → levelAt tl x = .low → e ≤ x

/-- No edge lies in `(a, b]` (R67). -/
abbrev QuietBetween (tl : Timeline) (a b : Nat) : Prop := ∀ e ∈ tl.edges, ¬ (a < e ∧ e ≤ b)

/-- The byte whose bit `i` is the level at the data-bit centre `i` of a byte anchored at `a` (R117, R118). -/
abbrev SampledByte (c : Cfg) (tl : Timeline) (a : Nat) (v : Byte) : Prop :=
  ∀ i < 8, v.getLsbD i = decide (levelAt tl (a + off c (2 * i + 3)) = .high)

/-- The byte whose bits are the levels at the last eight low-bit centres of a break of `n` bit-times anchored at `a`,
the oldest in bit 0 (R116, R118). -/
abbrev SampledBreak (c : Cfg) (tl : Timeline) (a : Nat) (n : Nat) (v : Byte) : Prop :=
  ∀ i < 8, v.getLsbD i = decide (levelAt tl (a + off c (2 * (n - 8 + i) + 1)) = .high)

/-- A cursor move to the sample `t` raises `Exhausted`: `t` lies past `S_END` of a `FINITE` timeline, or past the last
sample position there is (R64, R68). -/
abbrev OutOfReach (c : Cfg) (tl : Timeline) (t : Nat) : Prop :=
  (c.timelineKind = .finite ∧ tl.lastSample < t) ∨ 2 ^ c.sampleW - 1 < t

/-- Of the first `count` bit centres after the anchor `a`, the one with number `k` is the first that the timeline does
not reach, and `q` is the place before it: the anchor, or the centre of bit `k - 1` (R64, R112). -/
abbrev CentresRunOut (c : Cfg) (tl : Timeline) (a count q : Nat) : Prop :=
  ∃ k < count, OutOfReach c tl (a + off c (2 * k + 1)) ∧ (∀ j < k, a + off c (2 * j + 1) ≤ tl.lastSample) ∧
    q = if k = 0 then a else a + off c (2 * (k - 1) + 1)

/-- `q` is the last edge after the cursor `pos`, or the cursor itself if no edge is after it: where a search that uses
up the edges ends (R65). -/
abbrev EdgesRunOut (tl : Timeline) (pos q : Nat) : Prop :=
  (∀ e ∈ tl.edges, e ≤ q) ∧ (q = pos ∨ (pos < q ∧ q ∈ tl.edges))

/-- `BreakDecode` from the cursor `pos` raises `Exhausted` with the cursor at `q` (R116): every low run after the cursor
that ends is too short and the edges run out; or the first long enough one, at `a`, has a low-bit centre or the
delimiter's out of reach. -/
abbrev BreakRunsOut (c : Cfg) (tl : Timeline) (pos q : Nat) : Prop :=
  (c.timelineKind = .finite ∧ EdgesRunOut tl pos q ∧
    ∀ a ∈ tl.edges, pos < a → levelAt tl a = .low → ∀ e, FirstEdgeAfter tl a e → nbits c (e - a) < c.breakMinBits) ∨
  ∃ a e, a ∈ tl.edges ∧ pos < a ∧ levelAt tl a = .low ∧ FirstEdgeAfter tl a e ∧ c.breakMinBits ≤ nbits c (e - a) ∧
    (∀ a' ∈ tl.edges, pos < a' → a' < a → levelAt tl a' = .low →
      ∀ e', FirstEdgeAfter tl a' e' → nbits c (e' - a') < c.breakMinBits) ∧
    CentresRunOut c tl a (nbits c (e - a) + 1) q

/-- `ByteDecode` from the cursor `pos` raises `Exhausted` with the cursor at `q` (R117): there is no falling edge and the
edges run out; or a centre of the start bit, a data bit or the stop bit of the byte anchored at `a` is out of reach; or
its stop bit reads low and no edge follows it, so that `q` is the stop-bit centre whether the probe window or the wait
for the edge fails; or an edge follows the window and the half bit after that edge, which has no edge in it, is not
reached. -/
abbrev ByteRunsOut (c : Cfg) (tl : Timeline) (pos q : Nat) : Prop :=
  (c.timelineKind = .finite ∧ EdgesRunOut tl pos q ∧ ∀ a ∈ tl.edges, pos < a → levelAt tl a ≠ .low) ∨
  ∃ a, FirstFallAfter tl pos a ∧
    (CentresRunOut c tl a 10 q ∨
      (c.timelineKind = .finite ∧ a + off c 19 ≤ tl.lastSample ∧ levelAt tl (a + off c 19) = .low ∧
        (((∀ e ∈ tl.edges, e ≤ a + off c 19) ∧ q = a + off c 19) ∨
          (FirstEdgeAfter tl (a + off c 19) q ∧ a + off c 19 + win c c.breakProbeBits < q ∧
            QuietBetween tl q (q + half c) ∧ tl.lastSample < q + half c))))

/-- The word is refused on the command port: its response is `Illegal`, the model's mark is set, and nothing else
changes (R96, R233). -/
abbrev WordRefused (w : Word) : Prop :=
  ∀ (s : State) (rest : List HostInput), s.request = none → s.inbox = .command w :: rest →
    step s = .next { s with inbox := rest, response := some .illegal, refused := true }

/-- Commands run one after another, each to its end (R72). -/
def execAll : List Instr → State → Option State
  | [], s => some s
  | i :: rest, s =>
    match exec i s with
    | .next t => execAll rest t
    | .fault _ => none
    | .refused _ => none

end Sys2Proof.Safety
end

