-- ==== Sys2Proof/Certificates/Slice0/Obligations.lean ====
section
/-! DEFINITION. The statements for the provers, from the numbered rules of spec/. Each docstring names the rules it
formalises. A value the spec computes is written here from the rule's own words, not by the model's name for it,
wherever that is shorter than a page. -/

open Sys2Proof Sys2Proof.Machine Sys2Proof.Safety

/-! ### Encoding -/

/-- R93 to R95, R98: the decoder reads back every well-formed command from its word. -/
def Obligations.DecodeReadsBackEveryCommand : Prop :=
  ∀ i : Instr, i.wellFormed = true → decode (encode i) = .ok i

/-- R94, R95, R100: a word has one meaning; the word of the command it decodes to is that word. -/
def Obligations.EveryLegalWordIsItsCommandsEncoding : Prop :=
  ∀ (w : Word) (i : Instr), decode w = .ok i → encode i = w ∧ i.wellFormed = true

/-- R96: the reserved words are the listed ones, and a reserved word changes nothing but the response and the model's
refusal mark. -/
def Obligations.ReservedWordsAreTheListedOnes : Prop :=
  ∀ w : Word,
    let op : Byte := w.extractLsb' 8 8
    let imm : Byte := w.extractLsb' 0 8
    ((∃ r, decode w = .error r) ↔
      (op ∉ [0x01#8, 0x02#8, 0x03#8, 0x10#8, 0x11#8, 0x20#8, 0x21#8, 0x30#8, 0x31#8, 0x32#8, 0x33#8, 0x34#8, 0x35#8,
             0x40#8, 0x41#8]) ∨
      (op ∈ [0x01#8, 0x03#8, 0x10#8, 0x11#8, 0x20#8, 0x21#8, 0x31#8, 0x35#8] ∧ imm ≠ 0x00#8) ∨
      (op = 0x30#8 ∧ imm = 0x00#8) ∨
      (op ∈ [0x33#8, 0x40#8] ∧ imm.extractLsb' 6 2 ≠ 0#2)) ∧
    ((∃ r, decode w = .error r) → WordRefused w)

/-- R93, R94, R98: one word of each command, written out from the opcode map, decodes to it. -/
def Obligations.SpecWordsDecodeToTheirCommands : Prop :=
  decode 0x0100#16 = .ok .ckClr ∧ decode 0x0250#16 = .ok (.ckAdd 0x50#8) ∧ decode 0x0300#16 = .ok .ckRes ∧
  decode 0x1000#16 = .ok .bdBrk ∧ decode 0x1100#16 = .ok .bdByte ∧
  decode 0x2000#16 = .ok .fsmStep ∧ decode 0x2100#16 = .ok .fsmStop ∧
  decode 0x3002#16 = .ok (.syIdle 2#8) ∧ decode 0x3100#16 = .ok .syBrk ∧ decode 0x3255#16 = .ok (.syByte 0x55#8) ∧
  decode 0x3310#16 = .ok (.syPid 0x10#6) ∧ decode 0x3401#16 = .ok (.syData 0x01#8) ∧ decode 0x3500#16 = .ok .syChk ∧
  decode 0x4010#16 = .ok (.utPar 0x10#6) ∧ decode 0x41A3#16 = .ok (.utRev 0xA3#8)

/-- R98, R99, R212: the words of a synthesized frame are those the pseudo-instruction expands to, in order, and each
of them decodes to its command. -/
def Obligations.FramePseudoExpandsToItsCommands : Prop :=
  ∀ (id : BitVec 6) (data : List Byte) (j : Byte), 1 ≤ data.length → data.length ≤ 8 → j ≠ 0#8 →
    ∃ is : List Instr, expand (.frame id data (some j) none) = some is ∧
      is.map encode =
        [0x30#8 ++ j, 0x3100#16, 0x3255#16, 0x33#8 ++ (0#2 ++ id)] ++ data.map (fun d => 0x34#8 ++ d) ++ [0x3500#16] ∧
      ∀ i ∈ is, decode (encode i) = .ok i

/-! ### The ports and reset -/

/-- R5, R72: with no command in progress and a legal word next, the step is the command's own effect on the state
whose inbox has lost that word. -/
def Obligations.StepRunsTheDecodedCommand : Prop :=
  ∀ (s : State) (w : Word) (i : Instr) (rest : List HostInput),
    s.request = none → s.inbox = .command w :: rest → decode w = .ok i →
    step s = exec i { s with inbox := rest }

/-- R40, R69, R244, R261: with nothing from the host the block holds its state; a command in progress holds off further
words; a delivery that keeps the duties of R261 adds its edges and samples to the timeline and changes nothing else,
whereupon the command in progress, if there is one, goes on; and any other delivery has no move.
What "available" is, and so where a delivery may begin, is the model's reading (notes/assumptions/4.md); that a
command goes on by running anew is its choice (notes/assumptions/5.md), and so is the refusal `hostDuty` of a host
outside its duties (notes/assumptions/7.md). -/
def Obligations.SuspendedCommandGoesOnWithADelivery : Prop :=
  (∀ s : State, s.inbox = [] → step s = .next s) ∧
  (∀ (s : State) (i : Instr) (w : Word) (rest : List HostInput),
    s.request = some i → s.inbox = .command w :: rest → step s = .next s) ∧
  (∀ (s : State) (x : Supply) (rest : List HostInput), s.inbox = .extend x :: rest →
    let legal :=
      s.cfg.timelineKind = .unbounded ∧ s.tlb.lastSample ≤ x.upTo ∧ x.upTo ≤ 2 ^ s.cfg.sampleW - 1 ∧
      x.edges.Pairwise (fun a b => a < b) ∧ ∀ e ∈ x.edges, s.tlb.lastSample < e ∧ e ≤ x.upTo
    let supplied : Timeline := { s.tlb with edges := s.tlb.edges ++ x.edges, lastSample := x.upTo }
    (legal → s.request = none → step s = .next { s with inbox := rest, tlb := supplied }) ∧
    (∀ i, legal → s.request = some i →
      step s = exec i { s with request := none, inbox := rest, tlb := supplied }) ∧
    (¬ legal → step s = .refused .hostDuty))

/-- R41, R250: a legal reset latches its inputs and leaves every register at the value R41 lists (the transients of
R32, which R41 leaves unspecified, are left out here). -/
def Obligations.ResetLeavesTheListedValues : Prop :=
  ∀ inputs : ResetInputs, InputsLegal inputs →
    ∃ t : State, resetWith inputs = some t ∧ t.cfg = inputs.cfg ∧ t.tlb = inputs.tlb ∧
      t.pass.pos = inputs.tlb.s0 ∧ t.pass.fstate = .noFrame ∧ t.pass.byteCount = 0 ∧ t.pass.ckd = 0#8 ∧
      t.pass.classic = true ∧ t.pass.pid = 0x00#8 ∧ t.pass.showIbs = false ∧ t.pass.lastEnd = inputs.tlb.s0 ∧
      t.pass.packetOpen = false ∧ t.pass.halted = .run ∧
      t.synth.t = 0 ∧ t.synth.lvl = .high ∧ t.synth.cks = 0#8 ∧ t.synth.sClassic = true ∧ t.synth.edges = [] ∧
      t.ckt = 0#8 ∧ t.events = []

/-- R234, R250, R251: asserted in any state, a reset with inputs that meet the conditions of R234 leaves the reset
state, and with any other inputs the block does not leave reset. The conditions on the timeline are R234's for
`FINITE`; for `UNBOUNDED` the model asks the same of the samples supplied so far (the model's choice,
notes/assumptions/4.md). That the host's further inputs and the refusal mark outlive a reset is the model's choice too
(notes/assumptions/7.md). -/
def Obligations.ResetTakesExactlyTheLegalInputs : Prop :=
  ∀ (s : State) (inputs : ResetInputs) (rest : List HostInput), s.inbox = .reset inputs :: rest →
    let c := inputs.cfg
    let tl := inputs.tlb
    let legal :=
      (c.protocolVersion = 1 ∨ c.protocolVersion = 2) ∧ 0 < c.sampleRate ∧ 0 < c.bitRate ∧
      2 * c.bitRate ≤ c.sampleRate ∧ 11 ≤ c.breakMinBits ∧ 1 ≤ c.breakProbeBits ∧ 1 ≤ c.maxResponseBytes ∧
      c.maxResponseBytes ≤ 8 ∧ c.breakMinBits ≤ c.synBreakBits ∧ 1 ≤ c.synDelimBits ∧
      c.sampleRate < 2 ^ 32 ∧ c.bitRate < 2 ^ 32 ∧ c.breakMinBits ≤ 255 ∧ c.breakProbeBits ≤ 255 ∧
      c.synBreakBits ≤ 255 ∧ c.synDelimBits ≤ 255 ∧ c.idleGapBits ≤ 255 ∧
      tl.s0 ≤ tl.lastSample ∧ tl.lastSample < 2 ^ c.sampleW ∧ tl.edges.Pairwise (fun a b => a < b) ∧
      ∀ e ∈ tl.edges, tl.s0 ≤ e ∧ e ≤ tl.lastSample
    (legal → step s = .next { State.ofInputs inputs with inbox := rest, refused := s.refused }) ∧
    (¬ legal → step s = .refused .illegalReset)

/-! ### The checksum accumulator -/

/-- R145: `CK.CLR`, its word, its reserved immediates, and its effect. -/
def Obligations.CkClrClearsTheStandaloneSum : Prop :=
  (decode 0x0100#16 = .ok .ckClr ∧ ∀ imm : Byte, imm ≠ 0#8 → WordRefused (0x01#8 ++ imm)) ∧
  ∀ s : State, exec .ckClr s = .next { s with ckt := 0x00#8, response := some .ack }

/-- R146: `CK.ADD b`, its words, and its end-around carry at 255. -/
def Obligations.CkAddFoldsItsByteIn : Prop :=
  (∀ b : Byte, decode (0x02#8 ++ b) = .ok (.ckAdd b)) ∧
  ∀ (b : Byte) (s : State), ∃ v : Byte,
    exec (.ckAdd b) s = .next { s with ckt := v, response := some .ack } ∧
    v.toNat = (if s.ckt.toNat + b.toNat > 255 then s.ckt.toNat + b.toNat - 255 else s.ckt.toNat + b.toNat)

/-- R147: `CK.RES`, its word, its reserved immediates, and its answer. -/
def Obligations.CkResAnswersTheComplement : Prop :=
  (decode 0x0300#16 = .ok .ckRes ∧ ∀ imm : Byte, imm ≠ 0#8 → WordRefused (0x03#8 ++ imm)) ∧
  ∀ s : State, exec .ckRes s = .next { s with response := some (.value (BitVec.ofNat 8 (255 - s.ckt.toNat))) }

/-- R143: the sum is 0 exactly when every byte added since `clear()` was 0, and otherwise it is the value in 1..255
congruent modulo 255 to the plain sum of the bytes; so a nonzero total that is a multiple of 255 is stored as `0xFF`. -/
def Obligations.SumIsTheTotalModulo255 : Prop :=
  ∀ bytes : List Byte,
    let sum := bytes.foldl sumAdd sumClear
    let total := (bytes.map BitVec.toNat).sum
    (sum = 0x00#8 ↔ ∀ b ∈ bytes, b = 0x00#8) ∧ sum.toNat % 255 = total % 255 ∧
    (sumResult sum = 0xFF#8 ↔ ∀ b ∈ bytes, b = 0x00#8) ∧
    (total ≠ 0 → total % 255 = 0 → sum = 0xFF#8 ∧ sumResult sum = 0x00#8)

/-- R144, R148: the standalone sum depends on the operands added since the last clear and on nothing else: not on the
commands between them, nor on the order of the bytes. -/
def Obligations.SumIgnoresBatchingAndOrder : Prop :=
  (∀ (is : List Instr) (s t : State), execAll is s = some t → (∀ i ∈ is, i ≠ .ckClr) →
    t.ckt = (is.filterMap (fun i => match i with | .ckAdd b => some b | _ => none)).foldl sumAdd s.ckt) ∧
  (∀ (a b : List Byte) (sum : Byte), a.Perm b → a.foldl sumAdd sum = b.foldl sumAdd sum)

/-! ### Bit timing and the timeline -/

/-- R122: under `EXACT`, the centre of bit-time `j` after an anchor on a synthesized bit boundary lies in that bit. -/
def Obligations.ExactCentresLieInTheirBits : Prop :=
  ∀ (c : Cfg) (t j : Nat), CfgLegal c → c.bitClock = .exact →
    edgeAt c (t + j) ≤ edgeAt c t + off c (2 * j + 1) ∧
    edgeAt c t + off c (2 * j + 1) < edgeAt c (t + j + 1)

/-- R114: `nbits` is `gap / spb` to the nearest whole bit-time, exact halves up: `n ≤ gap / spb + 1/2 < n + 1`. -/
def Obligations.LowRunsMeasureToTheNearestBit : Prop :=
  ∀ (c : Cfg) (gap n : Nat), CfgLegal c →
    (nbits c gap = n ↔ 2 * n * c.sampleRate ≤ 2 * gap * c.bitRate + c.sampleRate ∧
      2 * gap * c.bitRate + c.sampleRate < 2 * (n + 1) * c.sampleRate)

/-- R61: an edge is the first sample at the new level, and the level changes at edges only. -/
def Obligations.LevelChangesExactlyAtEdges : Prop :=
  ∀ (c : Cfg) (tl : Timeline) (x : Nat), TimelineLegal c tl →
    (x + 1 ∈ tl.edges → levelAt tl (x + 1) ≠ levelAt tl x) ∧
    (x + 1 ∉ tl.edges → levelAt tl (x + 1) = levelAt tl x) ∧
    (tl.s0 ∉ tl.edges → levelAt tl tl.s0 = tl.l0)

/-- R115: `WaitFalling` ends on the first falling edge after the cursor, whether or not it meets a rising edge first,
and moves nothing but the cursor. -/
def Obligations.WaitFallingFindsTheFirstFall : Prop :=
  ∀ (c : Cfg) (tl : Timeline) (p : Pass) (a : Nat), TimelineLegal c tl → FirstFallAfter tl p.pos a →
    waitFalling c tl p = .ok () { p with pos := a }

/-! ### The bit decoder -/

/-- R116, R119: `BD.BRK` on a running pass finds the first low run after the cursor that measures `BREAK_MIN_BITS` or
more, skips the shorter ones before it, and answers with the last eight low-bit samples and the delimiter's check. -/
def Obligations.BdBrkReadsTheFirstLongLowRun : Prop :=
  ∀ (s : State) (a e : Nat),
    let n := nbits s.cfg (e - a)
    let stop := a + off s.cfg (2 * n + 1)
    CfgLegal s.cfg → TimelineLegal s.cfg s.tlb → s.pass.halted = .run →
    a ∈ s.tlb.edges → s.pass.pos < a → levelAt s.tlb a = .low → FirstEdgeAfter s.tlb a e → s.cfg.breakMinBits ≤ n →
    (∀ a' ∈ s.tlb.edges, s.pass.pos < a' → a' < a → levelAt s.tlb a' = .low →
      ∀ e', FirstEdgeAfter s.tlb a' e' → nbits s.cfg (e' - a') < s.cfg.breakMinBits) →
    stop ≤ s.tlb.lastSample →
    ∃ v : Byte, SampledBreak s.cfg s.tlb a n v ∧
      exec .bdBrk s = .next { s with
        response := some (.brk v (decide (levelAt s.tlb stop ≠ .high)) a stop),
        pass := { s.pass with pos := stop, anchor := a, n := n, sr := v,
                              fe := decide (levelAt s.tlb stop ≠ .high) } }

/-- R117, R118, R120: `BD.BYTE` on a running pass whose next byte has a high stop bit answers with the byte its eight
data-bit centres read, least significant bit first, and the cursor at the stop-bit centre. -/
def Obligations.BdByteReadsAByteWithAHighStop : Prop :=
  ∀ (s : State) (a : Nat),
    let stop := a + off s.cfg 19
    CfgLegal s.cfg → TimelineLegal s.cfg s.tlb → s.pass.halted = .run → FirstFallAfter s.tlb s.pass.pos a →
    stop ≤ s.tlb.lastSample → levelAt s.tlb stop = .high →
    ∃ v : Byte, SampledByte s.cfg s.tlb a v ∧
      exec .bdByte s = .next { s with
        response := some (.byte v false false a stop),
        pass := { s.pass with pos := stop, anchor := a, sr := v, fe := false, brk := false } }

/-- R117, R123: a low stop bit with no edge in the probe window after it, and none in the half bit after the edge that
then ends the low run, is a disguised break: value `0x00`, no framing error, the end on the rising edge. -/
def Obligations.BdByteTakesAQuietLowStopForABreak : Prop :=
  ∀ (s : State) (a e : Nat),
    let stop := a + off s.cfg 19
    let probe := stop + s.cfg.breakProbeBits * s.cfg.sampleRate / s.cfg.bitRate
    let halfBit := s.cfg.sampleRate / (2 * s.cfg.bitRate)
    CfgLegal s.cfg → TimelineLegal s.cfg s.tlb → s.pass.halted = .run → FirstFallAfter s.tlb s.pass.pos a →
    levelAt s.tlb stop = .low → QuietBetween s.tlb stop probe → FirstEdgeAfter s.tlb stop e →
    QuietBetween s.tlb e (e + halfBit) → e + halfBit ≤ s.tlb.lastSample →
    ∃ v : Byte, SampledByte s.cfg s.tlb a v ∧
      exec .bdByte s = .next { s with
        response := some (.byte 0x00#8 false true a e),
        pass := { s.pass with pos := e, anchor := a, sr := v, fe := false, brk := true } }

/-- R117: a low stop bit is a framing error, with the byte as sampled, if an edge lies in the probe window (the end is
the stop-bit centre), or if the low run that outlasts the window ends and the line falls again within half a bit
(the end is the rising edge). -/
def Obligations.BdByteFlagsAFramingError : Prop :=
  ∀ (s : State) (a e : Nat),
    let stop := a + off s.cfg 19
    let probe := stop + s.cfg.breakProbeBits * s.cfg.sampleRate / s.cfg.bitRate
    let halfBit := s.cfg.sampleRate / (2 * s.cfg.bitRate)
    CfgLegal s.cfg → TimelineLegal s.cfg s.tlb → s.pass.halted = .run → FirstFallAfter s.tlb s.pass.pos a →
    stop ≤ s.tlb.lastSample → levelAt s.tlb stop = .low → FirstEdgeAfter s.tlb stop e →
    (e ≤ probe →
      ∃ v : Byte, SampledByte s.cfg s.tlb a v ∧
        exec .bdByte s = .next { s with
          response := some (.byte v true false a stop),
          pass := { s.pass with pos := stop, anchor := a, sr := v, fe := true, brk := false } }) ∧
    (probe < e → ¬ QuietBetween s.tlb e (e + halfBit) →
      ∃ v : Byte, SampledByte s.cfg s.tlb a v ∧
        exec .bdByte s = .next { s with
          response := some (.byte v true false a e),
          pass := { s.pass with pos := e, anchor := a, sr := v, fe := true, brk := false } })

/-- R119, R120, R243, R254: whatever it reads, a `BD.*` command writes the cursor, the transients and `halted` of the
pass and nothing else of it, and nothing of the other agents; a result lies after the old cursor and within the
timeline, and `fe` and `brk` are never both set. -/
def Obligations.DirectDecodeMovesOnlyTheCursor : Prop :=
  ∀ (s t : State) (i : Instr), TimelineLegal s.cfg s.tlb → s.pass.pos ≤ s.tlb.lastSample →
    i = .bdBrk ∨ i = .bdByte → exec i s = .next t →
    OnlyCursorMoved { s.pass with halted := t.pass.halted } t.pass ∧
    t = { s with pass := t.pass, response := t.response, request := t.request } ∧
    s.pass.pos ≤ t.pass.pos ∧ t.pass.pos ≤ s.tlb.lastSample ∧
    (∀ v fe a e, t.response = some (.brk v fe a e) →
      s.pass.pos < a ∧ a ≤ e ∧ t.pass.pos = e ∧ t.pass.halted = s.pass.halted) ∧
    (∀ v fe brk a e, t.response = some (.byte v fe brk a e) →
      s.pass.pos < a ∧ a ≤ e ∧ t.pass.pos = e ∧ t.pass.halted = s.pass.halted ∧ ¬ (fe = true ∧ brk = true))

/-- R64 to R68, R73, R116, R117, R232: an exhausted command of a running pass sets `halted`, answers with the cursor `q`
that the last completed primitive left, and of the rest writes only `NoFrame → HeaderBreak`; the one event of an
exhausted `FSM.STEP` is `Exhausted`. On a legal timeline a command ends so at `q` exactly where its decode runs out at
`q`: in a search for an edge, at a bit centre out of reach, or in one of the two probes after a low stop bit.
That the transients stay as they were before the command is read from R73 (notes/assumptions/11.md, DEDUCED,
unsafe). -/
def Obligations.ExhaustionEndsThePass : Prop :=
  let endsAt := fun (s : State) (q : Nat) =>
    { s with pass := { s.pass with pos := q, halted := .exhausted }, response := some (.exhausted q) }
  let stepEndsAt := fun (s : State) (q : Nat) =>
    { s with
      pass := { s.pass with pos := q, halted := .exhausted,
                            fstate := if s.pass.fstate = .noFrame then .headerBreak else s.pass.fstate },
      events := s.events ++ [.exhausted q], response := some (.events [.exhausted q]) }
  (∀ s t : State, s.pass.halted = .run → t.pass.halted = .exhausted →
    (∀ i, i = .bdBrk ∨ i = .bdByte → exec i s = .next t → ∃ q, s.pass.pos ≤ q ∧ t = endsAt s q) ∧
    (exec .fsmStep s = .next t → ∃ q, s.pass.pos ≤ q ∧ t = stepEndsAt s q)) ∧
  (∀ (s : State) (q : Nat), TimelineLegal s.cfg s.tlb → s.pass.halted = .run →
    (exec .bdBrk s = .next (endsAt s q) ↔ BreakRunsOut s.cfg s.tlb s.pass.pos q) ∧
    (exec .bdByte s = .next (endsAt s q) ↔ ByteRunsOut s.cfg s.tlb s.pass.pos q) ∧
    (exec .fsmStep s = .next (stepEndsAt s q) ↔
      if s.pass.fstate = .noFrame ∨ s.pass.fstate = .headerBreak
        then BreakRunsOut s.cfg s.tlb s.pass.pos q else ByteRunsOut s.cfg s.tlb s.pass.pos q))

/-- R65, R69, R232: with no edge left after the cursor, a decoder-pass command of a running pass ends the pass on a
`FINITE` timeline, at the cursor, and is suspended with no effect on an `UNBOUNDED` one. That a suspended command is
held as the request, with the response port empty, is the model's choice (notes/assumptions/5.md). -/
def Obligations.NoEdgeLeftExhaustsOrSuspends : Prop :=
  ∀ s : State, s.pass.halted = .run → (∀ e ∈ s.tlb.edges, e ≤ s.pass.pos) →
    (s.cfg.timelineKind = .finite →
      (∀ i, i = .bdBrk ∨ i = .bdByte →
        exec i s = .next { s with pass := { s.pass with halted := .exhausted },
                                  response := some (.exhausted s.pass.pos) }) ∧
      exec .fsmStep s = .next { s with
        pass := { s.pass with halted := .exhausted,
                              fstate := if s.pass.fstate = .noFrame then .headerBreak else s.pass.fstate },
        events := s.events ++ [.exhausted s.pass.pos], response := some (.events [.exhausted s.pass.pos]) }) ∧
    (s.cfg.timelineKind = .unbounded →
      ∀ i, i = .bdBrk ∨ i = .bdByte ∨ i = .fsmStep →
        exec i s = .next { s with request := some i, response := none })

/-- R245: while the pass is halted its three commands answer `Halted` and `FSM.STOP` answers `Ack`, and none changes
anything else; the other commands run as they would with any other pass. -/
def Obligations.HaltedPassAnswersHalted : Prop :=
  (∀ s : State, s.pass.halted ≠ .run →
    exec .fsmStep s = .next { s with response := some (.halted s.pass.halted) } ∧
    exec .bdBrk s = .next { s with response := some (.halted s.pass.halted) } ∧
    exec .bdByte s = .next { s with response := some (.halted s.pass.halted) } ∧
    exec .fsmStop s = .next { s with response := some .ack }) ∧
  (∀ (s t : State) (i : Instr) (p : Pass), i ∉ [.fsmStep, .bdBrk, .bdByte, .fsmStop] → exec i s = .next t →
    exec i { s with pass := p } = .next { t with pass := p })

/-! ### The frame state machine -/

/-- R165: `FSM.STOP`, its word, its reserved immediates, and its effect: a running pass is cancelled, with no event and
no commit; a pass already ended stays as it ended. -/
def Obligations.FsmStopCancelsARunningPass : Prop :=
  (decode 0x2100#16 = .ok .fsmStop ∧ ∀ imm : Byte, imm ≠ 0#8 → WordRefused (0x21#8 ++ imm)) ∧
  ∀ s : State,
    (s.pass.halted = .run →
      exec .fsmStop s = .next { s with pass := { s.pass with halted := .cancelled }, response := some .ack }) ∧
    (s.pass.halted ≠ .run → exec .fsmStop s = .next { s with response := some .ack })

/-- R152, R153, R154, R155, R163, R164: in `NoFrame` or `HeaderBreak`, a break whose value is `0x00` closes an open
packet, opens one, and begins its header, whatever its delimiter read. -/
def Obligations.ConfirmedBreakBeginsAPacket : Prop :=
  ∀ (s : State) (d : Decoded) (p : Pass),
    s.pass.halted = .run → s.pass.fstate = .noFrame ∨ s.pass.fstate = .headerBreak →
    breakDecode s.cfg s.tlb s.pass = .ok d p → d.value = 0x00#8 →
    OnlyCursorMoved s.pass p ∧ p.pos = d.endSample ∧
    exec .fsmStep s = .next (afterStep s
      (gapEvents s.pass d.startSample ++ commitEvents s.pass ++
        [.beginPacket, frameEvent d .headerBreak 0x00#8 0 (if d.fe then 0x1#4 else 0x0#4), .progress d.endSample])
      { p with fstate := .headerSync, packetOpen := true, showIbs := true, byteCount := 0, lastEnd := d.endSample })

/-- R153, R155, R163, R164: a break whose value is not `0x00` is flagged `HeaderBreakExpected`, beside `FramingError` if
its delimiter read low, and the machine seeks anew. -/
def Obligations.FailedBreakIsFlagged : Prop :=
  ∀ (s : State) (d : Decoded) (p : Pass),
    s.pass.halted = .run → s.pass.fstate = .noFrame ∨ s.pass.fstate = .headerBreak →
    breakDecode s.cfg s.tlb s.pass = .ok d p → d.value ≠ 0x00#8 →
    OnlyCursorMoved s.pass p ∧ p.pos = d.endSample ∧
    exec .fsmStep s = .next (afterStep s
      (gapEvents s.pass d.startSample ++ [frameEvent d .headerBreak d.value 0 (if d.fe then 0x3#4 else 0x2#4)] ++
        commitEvents s.pass ++ [.progress d.endSample])
      { p with fstate := .noFrame, packetOpen := false, lastEnd := d.endSample })

/-- R153, R154, R157, R163, R235: in every state other than `NoFrame` and `HeaderBreak`, a disguised break wins over
the state's arm: it closes the packet, opens the next, and begins its header, with no flag. -/
def Obligations.DisguisedBreakBeginsAPacket : Prop :=
  ∀ (s : State) (d : Decoded) (p : Pass),
    s.pass.halted = .run → s.pass.fstate ≠ .noFrame → s.pass.fstate ≠ .headerBreak →
    byteDecode s.cfg s.tlb s.pass = .ok d p → d.brk = true →
    OnlyCursorMoved s.pass p ∧ p.pos = d.endSample ∧ d.fe = false ∧
    exec .fsmStep s = .next (afterStep s
      (gapEvents s.pass d.startSample ++ commitEvents s.pass ++
        [.beginPacket, frameEvent d .headerBreak 0x00#8 0 0x0#4, .progress d.endSample])
      { p with fstate := .headerSync, packetOpen := true, showIbs := true, byteCount := 0, lastEnd := d.endSample })

/-- R153, R154, R158, R163, R164: the sync byte `0x55` leads on to the PID, framing error or not; any other byte is
flagged `HeaderSyncExpected`, its packet is committed, and the machine seeks anew. -/
def Obligations.SyncByteIsChecked : Prop :=
  ∀ (s : State) (d : Decoded) (p : Pass),
    s.pass.halted = .run → s.pass.fstate = .headerSync → byteDecode s.cfg s.tlb s.pass = .ok d p → d.brk = false →
    OnlyCursorMoved s.pass p ∧ p.pos = d.endSample ∧
    (d.value = 0x55#8 →
      exec .fsmStep s = .next (afterStep s
        (gapEvents s.pass d.startSample ++
          [frameEvent d .headerSync 0x55#8 0 (if d.fe then 0x1#4 else 0x0#4), .progress d.endSample])
        { p with fstate := .headerPid, lastEnd := d.endSample })) ∧
    (d.value ≠ 0x55#8 →
      exec .fsmStep s = .next (afterStep s
        (gapEvents s.pass d.startSample ++ [frameEvent d .headerSync d.value 0 (if d.fe then 0x5#4 else 0x4#4)] ++
          commitEvents s.pass ++ [.progress d.endSample])
        { p with fstate := .noFrame, packetOpen := false, lastEnd := d.endSample }))

/-- R153, R156, R159, R163, R164: any byte is the PID; it is summed after a clear, and it selects classic mode for
version 1, or for identifiers `0x3C` and `0x3D` if `DIAG_CLASSIC`. -/
def Obligations.AnyByteIsTakenAsThePid : Prop :=
  ∀ (s : State) (d : Decoded) (p : Pass),
    s.pass.halted = .run → s.pass.fstate = .headerPid → byteDecode s.cfg s.tlb s.pass = .ok d p → d.brk = false →
    OnlyCursorMoved s.pass p ∧ p.pos = d.endSample ∧
    exec .fsmStep s = .next (afterStep s
      (gapEvents s.pass d.startSample ++
        [frameEvent d .headerPid d.value 0 (if d.fe then 0x1#4 else 0x0#4), .progress d.endSample])
      { p with fstate := .responseDataZero, lastEnd := d.endSample, pid := d.value, ckd := d.value,
               classic := decide (s.cfg.protocolVersion < 2 ∨
                 (s.cfg.diagClassic = true ∧ (d.value.extractLsb' 0 6 = 0x3C#6 ∨ d.value.extractLsb' 0 6 = 0x3D#6))) })

/-- R153, R160, R163, R164: the first response byte is data; classic mode clears the sum first. -/
def Obligations.FirstResponseByteIsData : Prop :=
  ∀ (s : State) (d : Decoded) (p : Pass),
    s.pass.halted = .run → s.pass.fstate = .responseDataZero → byteDecode s.cfg s.tlb s.pass = .ok d p →
    d.brk = false →
    OnlyCursorMoved s.pass p ∧ p.pos = d.endSample ∧
    exec .fsmStep s = .next (afterStep s
      (gapEvents s.pass d.startSample ++
        [frameEvent d .responseDataZero d.value 0 (if d.fe then 0x1#4 else 0x0#4), .progress d.endSample])
      { p with fstate := if 1 < s.cfg.maxResponseBytes then .responseData else .responseChecksum,
               byteCount := 1, lastEnd := d.endSample,
               ckd := if s.pass.classic then d.value else sumAdd s.pass.ckd d.value })

/-- R153, R161, R163, R164, R191: a later response byte is a potential checksum if it equals the running result, and
data if not; either way it is summed and counted, and the last one leads on to the checksum. -/
def Obligations.LaterResponseByteIsSummedEitherWay : Prop :=
  ∀ (s : State) (d : Decoded) (p : Pass),
    s.pass.halted = .run → s.pass.fstate = .responseData → byteDecode s.cfg s.tlb s.pass = .ok d p → d.brk = false →
    OnlyCursorMoved s.pass p ∧ p.pos = d.endSample ∧
    exec .fsmStep s = .next (afterStep s
      (gapEvents s.pass d.startSample ++
        [frameEvent d (if d.value = ~~~s.pass.ckd then .responsePotentialChecksum else .responseData) d.value
          s.pass.byteCount (if d.fe then 0x1#4 else 0x0#4), .progress d.endSample])
      { p with fstate := if s.cfg.maxResponseBytes ≤ s.pass.byteCount + 1 then .responseChecksum else .responseData,
               byteCount := s.pass.byteCount + 1, lastEnd := d.endSample, ckd := sumAdd s.pass.ckd d.value })

/-- R153, R154, R162, R163, R164, R191: the byte after the last data byte is the checksum: a mismatch is flagged, the
packet closes either way, and the sum is left as it was. -/
def Obligations.TerminatingByteIsTheChecksum : Prop :=
  ∀ (s : State) (d : Decoded) (p : Pass),
    s.pass.halted = .run → s.pass.fstate = .responseChecksum → byteDecode s.cfg s.tlb s.pass = .ok d p →
    d.brk = false →
    OnlyCursorMoved s.pass p ∧ p.pos = d.endSample ∧
    exec .fsmStep s = .next (afterStep s
      (gapEvents s.pass d.startSample ++
        [frameEvent d .responseChecksum d.value s.pass.byteCount
          ((if d.fe then 0x1#4 else 0x0#4) ||| (if d.value = ~~~s.pass.ckd then 0x0#4 else 0x8#4))] ++
        commitEvents s.pass ++ [.progress d.endSample])
      { p with fstate := .noFrame, packetOpen := false, lastEnd := d.endSample })

/-- R117, R118, R153, R156, R159, R163, R164: in `HeaderPID`, `FSM.STEP` reads the next byte of the line, and if its stop
bit is high takes it for the PID: one iteration, from the samples to the events and the registers. -/
def Obligations.FsmStepReadsThePidFromTheLine : Prop :=
  ∀ (s : State) (a : Nat),
    let stop := a + off s.cfg 19
    CfgLegal s.cfg → TimelineLegal s.cfg s.tlb → s.pass.halted = .run → s.pass.fstate = .headerPid →
    FirstFallAfter s.tlb s.pass.pos a → stop ≤ s.tlb.lastSample → levelAt s.tlb stop = .high →
    ∃ v : Byte, SampledByte s.cfg s.tlb a v ∧
      exec .fsmStep s = .next (afterStep s
        (gapEvents s.pass a ++
          [.frame { startSample := a, endSample := stop, kind := .headerPid, value := v, sequenceIndex := 0,
                    flags := 0x0#4 }, .progress stop])
        { s.pass with pos := stop, anchor := a, sr := v, fe := false, brk := false, fstate := .responseDataZero,
                      lastEnd := stop, pid := v, ckd := v,
                      classic := decide (s.cfg.protocolVersion < 2 ∨ (s.cfg.diagClassic = true ∧
                        (v.extractLsb' 0 6 = 0x3C#6 ∨ v.extractLsb' 0 6 = 0x3D#6))) })

/-! ### The whole machine -/

/-- R124, R230, R233: every command, on any operand and in any state whatever, answers a next state: no sample point lies
before the cursor, and the block has no fault, no trap and no refusal of an instruction. -/
def Obligations.EveryCommandAnswersANextState : Prop :=
  ∀ (i : Instr) (s : State), ∃ t, exec i s = .next t

/-- R69, R258: on a `FINITE` timeline no command is suspended, and every command has its response. -/
def Obligations.FiniteTimelineNeverSuspends : Prop :=
  ∀ (i : Instr) (s t : State), s.cfg.timelineKind = .finite → s.request = none → exec i s = .next t →
    t.request = none ∧ t.response ≠ none

/-- R40, R69: a command that is suspended is one of the three that read the timeline, of a running pass on an
`UNBOUNDED` timeline, and has no effect yet but to be in progress (how that is held is the model's choice,
notes/assumptions/5.md). -/
def Obligations.SuspendedCommandHasNoEffectYet : Prop :=
  ∀ (i j : Instr) (s t : State), s.request = none → exec i s = .next t → t.request = some j →
    j = i ∧ (i = .bdBrk ∨ i = .bdByte ∨ i = .fsmStep) ∧ s.pass.halted = .run ∧
    s.cfg.timelineKind = .unbounded ∧ t = { s with request := some i, response := none }

/-- R69, R261: what a command has read, a later delivery of the timeline source cannot change: a command that
completes does the same with more of the timeline supplied. What a legal delivery is follows R261, with the last
sample supplied as the model's reading of "available" (notes/assumptions/4.md). -/
def Obligations.DeliveryDoesNotChangeACompletedCommand : Prop :=
  ∀ (i : Instr) (s t : State) (x : Supply), TimelineLegal s.cfg s.tlb → SupplyLegal s.cfg s.tlb x →
    exec i s = .next t → t.request = none →
    exec i { s with tlb := extendTimeline s.tlb x } = .next { t with tlb := extendTimeline s.tlb x }

/-- R20, R21, R22, R31, R70, R71, R72: a command never writes the configuration, the timeline or the host's inputs; it
only appends to the event stream and to `SYN_EDGES`, only moves the cursor forward, and never restarts a halted
pass; the refusal mark stays set. -/
def Obligations.CommandsOnlyAppendAndAdvance : Prop :=
  ∀ (i : Instr) (s t : State), exec i s = .next t →
    t.cfg = s.cfg ∧ t.tlb = s.tlb ∧ t.inbox = s.inbox ∧ (∃ ev, t.events = s.events ++ ev) ∧
    (∃ new, t.synth.edges = s.synth.edges ++ new) ∧ s.pass.pos ≤ t.pass.pos ∧
    (s.pass.halted ≠ .run → t.pass.halted = s.pass.halted) ∧ (s.refused = true → t.refused = true)

/-- R5, R144, R200, R213, R214, R243: the three agents share no register. A decoder-pass command leaves the synthesizer
and `CKt` alone and does not read them; a synthesizer command leaves the pass, its events and `CKt` alone and reads
of the block only `CFG` and its own registers; `CK.*` writes `CKt` alone and reads nothing else of the block, not even
`CFG`; and `UT.*` reads nothing and writes nothing but the response. -/
def Obligations.AgentsShareNoRegister : Prop :=
  (∀ (i : Instr) (s t : State), i ∈ [.bdBrk, .bdByte, .fsmStep, .fsmStop] → exec i s = .next t →
    t = { s with pass := t.pass, events := t.events, response := t.response, request := t.request } ∧
    ∀ (y : Synth) (k : Byte),
      exec i { s with synth := y, ckt := k } = .next { t with synth := y, ckt := k }) ∧
  (∀ (i : Instr) (s t : State),
    i = .syBrk ∨ i = .syChk ∨ (∃ n, i = .syIdle n) ∨ (∃ b, i = .syByte b) ∨ (∃ id, i = .syPid id) ∨
      (∃ b, i = .syData b) → exec i s = .next t →
    t = { s with synth := t.synth, response := t.response, refused := t.refused } ∧
    ∀ (p : Pass) (tl : Timeline) (ev : List Event) (k : Byte),
      exec i { s with pass := p, tlb := tl, events := ev, ckt := k } =
        .next { t with pass := p, tlb := tl, events := ev, ckt := k }) ∧
  (∀ (i : Instr) (s t : State), i = .ckClr ∨ i = .ckRes ∨ (∃ b, i = .ckAdd b) → exec i s = .next t →
    t = { s with ckt := t.ckt, response := t.response } ∧
    ∀ (c : Cfg) (p : Pass) (tl : Timeline) (ev : List Event) (y : Synth),
      exec i { s with cfg := c, pass := p, tlb := tl, events := ev, synth := y } =
        .next { t with cfg := c, pass := p, tlb := tl, events := ev, synth := y }) ∧
  (∀ (i : Instr) (s t : State), (∃ id, i = .utPar id) ∨ (∃ b, i = .utRev b) → exec i s = .next t →
    t = { s with response := t.response } ∧ ∀ u : State, exec i u = .next { u with response := t.response })

/-! ### The synthesizer -/

/-- R201, R233: a synthesis command whose bit-times would take `T` past `2^64 - 1`, or an edge past the last sample
position, is refused with no state change; `halted` is not set. -/
def Obligations.OverflowingSynthesisIsRefused : Prop :=
  ∀ (i : Instr) (s : State) (count : Nat),
    (i = .syBrk ∧ count = s.cfg.synBreakBits + s.cfg.synDelimBits) ∨
      (∃ n : Byte, i = .syIdle n ∧ count = n.toNat) ∨
      (((∃ b, i = .syByte b) ∨ (∃ id, i = .syPid id) ∨ (∃ b, i = .syData b) ∨ i = .syChk) ∧
        count = 10 + s.cfg.idleGapBits) →
    2 ^ 64 - 1 < s.synth.t + count ∨
      2 ^ s.cfg.sampleW - 1 < (s.synth.t + count) * s.cfg.sampleRate / s.cfg.bitRate →
    exec i s = .next { s with response := some .illegal, refused := true }

/-- R205: `SY.IDLE n`, its words, and its effect: `n` bit-times high, with an edge only if the line was low; or its
refusal, if they do not fit. -/
def Obligations.SyIdleDrivesHigh : Prop :=
  (∀ n : Byte, n ≠ 0#8 → decode (0x30#8 ++ n) = .ok (.syIdle n)) ∧ WordRefused 0x3000#16 ∧
  ∀ (n : Byte) (s : State), n ≠ 0#8 →
    let fits := s.synth.t + n.toNat ≤ 2 ^ 64 - 1 ∧
      (s.synth.t + n.toNat) * s.cfg.sampleRate / s.cfg.bitRate ≤ 2 ^ s.cfg.sampleW - 1
    let new := if s.synth.lvl = .high then [] else [s.synth.t * s.cfg.sampleRate / s.cfg.bitRate]
    (fits → exec (.syIdle n) s = .next { s with
      response := some (.edges new),
      synth := { s.synth with t := s.synth.t + n.toNat, lvl := .high, edges := s.synth.edges ++ new } }) ∧
    (¬ fits → exec (.syIdle n) s = .next { s with response := some .illegal, refused := true })

/-- R206: `SY.BRK`, its word, its reserved immediates, and its effect: `SYN_BREAK_BITS` low, then `SYN_DELIM_BITS` high;
or its refusal, if they do not fit. -/
def Obligations.SyBrkDrivesABreak : Prop :=
  (decode 0x3100#16 = .ok .syBrk ∧ ∀ imm : Byte, imm ≠ 0#8 → WordRefused (0x31#8 ++ imm)) ∧
  ∀ s : State,
    let count := s.cfg.synBreakBits + s.cfg.synDelimBits
    let fits := s.synth.t + count ≤ 2 ^ 64 - 1 ∧
      (s.synth.t + count) * s.cfg.sampleRate / s.cfg.bitRate ≤ 2 ^ s.cfg.sampleW - 1
    let rise := (s.synth.t + s.cfg.synBreakBits) * s.cfg.sampleRate / s.cfg.bitRate
    let new := (if s.synth.lvl = .low then [] else [s.synth.t * s.cfg.sampleRate / s.cfg.bitRate]) ++ [rise]
    (fits → exec .syBrk s = .next { s with
      response := some (.edges new),
      synth := { s.synth with t := s.synth.t + count, lvl := .high, edges := s.synth.edges ++ new } }) ∧
    (¬ fits → exec .syBrk s = .next { s with response := some .illegal, refused := true })

/-- R81, R202, R203, R207: `SY.BYTE b` appends ten bit-times and the idle gap. The line it synthesizes reads, at every
sample of every one of its bit-times, the level of the byte frame: start, `b[0]` to `b[7]`, stop, gap. It does not
touch the checksum. -/
def Obligations.SyByteSendsTheByteFrame : Prop :=
  ∀ (b : Byte) (s : State), CfgLegal s.cfg → SynthLegal s → synthFits s.cfg (10 + s.cfg.idleGapBits) s.synth = true →
    ∃ new : List Nat,
      let y : Synth := { s.synth with t := s.synth.t + 10 + s.cfg.idleGapBits, edges := s.synth.edges ++ new }
      exec (.syByte b) s = .next { s with response := some (.edges new), synth := y } ∧
      ∀ j x, j < 10 + s.cfg.idleGapBits → edgeAt s.cfg (s.synth.t + j) ≤ x → x < edgeAt s.cfg (s.synth.t + j + 1) →
        levelAt (synthTimeline s.cfg y) x =
          (if j = 0 then .low else if j ≤ 8 then (if b.getLsbD (j - 1) then .high else .low) else .high)

/-- R149, R156, R208, R211: `SY.PID id` sends the PID byte, starts the checksum, and chooses the mode as the decoder
does: in enhanced mode the full PID byte is summed. -/
def Obligations.SyPidStartsTheChecksum : Prop :=
  ∀ (id : BitVec 6) (s : State), synthFits s.cfg (10 + s.cfg.idleGapBits) s.synth = true →
    let classic := decide (s.cfg.protocolVersion < 2 ∨ (s.cfg.diagClassic = true ∧ (id = 0x3C#6 ∨ id = 0x3D#6)))
    ∃ u : State, exec (.syByte (parity id)) s = .next u ∧
      exec (.syPid id) s = .next { u with
        synth := { u.synth with sClassic := classic, cks := if classic then 0x00#8 else parity id } }

/-- R209, R210: `SY.DATA b` sums its byte and sends it; `SY.CHK` sends the complement of the sum and leaves it. -/
def Obligations.SyDataSumsAndSyChkSendsTheSum : Prop :=
  ∀ (b : Byte) (s : State), synthFits s.cfg (10 + s.cfg.idleGapBits) s.synth = true →
    (∃ u : State, exec (.syByte b) s = .next u ∧
      exec (.syData b) s = .next { u with synth := { u.synth with cks := sumAdd s.synth.cks b } }) ∧
    exec .syChk s = exec (.syByte (~~~s.synth.cks)) s ∧
    ∃ u : State, exec .syChk s = .next u ∧ u.synth.cks = s.synth.cks ∧ u.synth.sClassic = s.synth.sClassic ∧
      u.synth.t = s.synth.t + 10 + s.cfg.idleGapBits ∧ u.synth.lvl = .high

/-- R71, R217: what the synthesizer has sent is a well-formed timeline, so that the host may bind it at the next
reset. -/
def Obligations.SynthesizedTimelineCanBeBound : Prop :=
  ∀ (s : State) (kind : TimelineKind), CfgLegal s.cfg → SynthLegal s →
    resetWith { cfg := { s.cfg with timelineKind := kind }, tlb := synthTimeline s.cfg s.synth } =
      some (State.ofInputs { cfg := { s.cfg with timelineKind := kind }, tlb := synthTimeline s.cfg s.synth })

/-- R215: under `EXACT`, a synthesized byte decodes to itself, with no flag, from any cursor between the line's earlier
edges and its own falling edge. -/
def Obligations.SynthesizedByteDecodesToItself : Prop :=
  ∀ (b : Byte) (s u v : State), CfgLegal s.cfg → s.cfg.bitClock = .exact → SynthLegal s →
    synthFits s.cfg (10 + s.cfg.idleGapBits) s.synth = true → exec (.syByte b) s = .next u →
    v.cfg = s.cfg → v.tlb = synthTimeline s.cfg u.synth → v.pass.halted = .run →
    (∀ e ∈ s.synth.edges, e ≤ v.pass.pos) → v.pass.pos < edgeAt s.cfg s.synth.t →
    ∃ w : State, exec .bdByte v = .next w ∧
      w.response = some (.byte b false false (edgeAt s.cfg s.synth.t) (edgeAt s.cfg s.synth.t + off s.cfg 19))

/-- R123, R215: under `EXACT`, a synthesized break decodes as a break, with value `0x00` and no flag, both by
`BreakDecode` and, met in place of a byte, by `ByteDecode` (which needs it to outlast the probe window). -/
def Obligations.SynthesizedBreakDecodesAsABreak : Prop :=
  ∀ s u v : State, CfgLegal s.cfg → s.cfg.bitClock = .exact → SynthLegal s →
    synthFits s.cfg (s.cfg.synBreakBits + s.cfg.synDelimBits) s.synth = true → exec .syBrk s = .next u →
    v.cfg = s.cfg → v.tlb = synthTimeline s.cfg u.synth → v.pass.halted = .run →
    (∀ e ∈ s.synth.edges, e ≤ v.pass.pos) → v.pass.pos < edgeAt s.cfg s.synth.t →
    let a := edgeAt s.cfg s.synth.t
    (∃ w : State, exec .bdBrk v = .next w ∧
      w.response = some (.brk 0x00#8 false a (a + off s.cfg (2 * s.cfg.synBreakBits + 1)))) ∧
    (10 + s.cfg.breakProbeBits ≤ s.cfg.synBreakBits →
      ∃ w : State, exec .bdByte v = .next w ∧
        w.response = some (.byte 0x00#8 false true a (edgeAt s.cfg (s.synth.t + s.cfg.synBreakBits))))

/-! ### Utilities and the annotated view -/

/-- R85, R213: `UT.PAR id`, its words, its reserved immediates, and its answer in every state: the identifier with its
two parity bits. -/
def Obligations.UtParAnswersThePidByte : Prop :=
  (∀ id : BitVec 6, decode (0x40#8 ++ (0#2 ++ id)) = .ok (.utPar id)) ∧
  (∀ imm : Byte, imm.extractLsb' 6 2 ≠ 0#2 → WordRefused (0x40#8 ++ imm)) ∧
  ∀ id : BitVec 6, ∃ v : Byte,
    (∀ s : State, exec (.utPar id) s = .next { s with response := some (.value v) }) ∧
    v.extractLsb' 0 6 = id ∧
    v.getLsbD 6 = (id.getLsbD 0 ^^ id.getLsbD 1 ^^ id.getLsbD 2 ^^ id.getLsbD 4) ∧
    v.getLsbD 7 = !(id.getLsbD 1 ^^ id.getLsbD 3 ^^ id.getLsbD 4 ^^ id.getLsbD 5)

/-- R204, R214: `UT.REV b`, its words, and its answer in every state: bit `7 - i` is bit `i` of `b`; issued again on the
answer it gives `b` back. -/
def Obligations.UtRevAnswersTheReversal : Prop :=
  (∀ b : Byte, decode (0x41#8 ++ b) = .ok (.utRev b)) ∧
  ∀ b : Byte, ∃ v : Byte,
    (∀ s : State, exec (.utRev b) s = .next { s with response := some (.value v) }) ∧
    (∀ i < 8, v.getLsbD (7 - i) = b.getLsbD i) ∧
    ∀ s : State, exec (.utRev v) s = .next { s with response := some (.value b) }

/-- R192, R193: the annotated view of a frame: its named fields by kind, and one boolean per set flag. -/
def Obligations.AnnotatedViewNamesTheFieldsOfItsKind : Prop :=
  ∀ f : Frame,
    (annotate f).protectedIdentifier = (if f.kind = .headerPid then some (f.value.extractLsb' 0 6) else none) ∧
    (annotate f).data =
      (if f.kind = .responseDataZero ∨ f.kind = .responseData ∨ f.kind = .responsePotentialChecksum
        then some f.value else none) ∧
    (annotate f).index =
      (if f.kind = .responseDataZero ∨ f.kind = .responseData ∨ f.kind = .responsePotentialChecksum
        then some f.sequenceIndex else none) ∧
    (annotate f).checksum =
      (if f.kind = .responseChecksum ∨ f.kind = .responsePotentialChecksum then some f.value else none) ∧
    (annotate f).byteFramingError = f.flags.getLsbD 0 ∧ (annotate f).headerBreakExpected = f.flags.getLsbD 1 ∧
    (annotate f).headerSyncExpected = f.flags.getLsbD 2 ∧ (annotate f).checksumMismatch = f.flags.getLsbD 3

/-! ### Invariants -/

/-- The invariant holds after every legal reset, the standard one among them (R41, R234, R250). -/
def Obligations.EveryResetIsLegal : Prop :=
  BlockLegal State.reset ∧ ∀ inputs : ResetInputs, InputsLegal inputs → BlockLegal (State.ofInputs inputs)

/-- R22, R24, R28, R29, R30, R40, R62, R246: every step keeps the registers legal: the cursor within the timeline, the
frame registers in agreement with the state, and at most a legal request. For `UNBOUNDED` the end of the timeline is
the last sample supplied, the model's choice (notes/assumptions/4.md). -/
def Obligations.EveryStepKeepsTheRegistersLegal : Prop :=
  ∀ s t : State, BlockLegal s → step s = .next t →
    InputsHeld t ∧ CursorLegal t ∧ FsmLegal t ∧ RequestLegal t

/-- R154, R167: every step keeps the packets of the event stream well formed: they open and close in turn, each starts
with its one `HeaderBreak` frame of value `0x00`, and a failed break lies outside every packet. -/
def Obligations.EveryStepKeepsThePacketsLegal : Prop :=
  ∀ s t : State, BlockLegal s → step s = .next t → PacketsLegal t

/-- R167: every step keeps the flags of every frame of the stream among those its kind can have. -/
def Obligations.EveryStepKeepsTheFlagsLegal : Prop :=
  ∀ s t : State, BlockLegal s → step s = .next t → FlagsLegal t

/-- R168: every step keeps the frames of the stream in order. -/
def Obligations.EveryStepKeepsTheFramesInOrder : Prop :=
  ∀ s t : State, BlockLegal s → step s = .next t → FramesOrdered t

/-- R33, R34, R71, R246: every step keeps the synthesizer's counter, level and edges legal. -/
def Obligations.EveryStepKeepsTheSynthesizerLegal : Prop :=
  ∀ s t : State, BlockLegal s → step s = .next t → SynthLegal t
end

