-- ==== Sys2Proof/Laws/State.lean ====
section
/-! SUPPORT. One lemma per field per update: what each update of the state, of the pass and of an iteration leaves in each
field. Each unfolds its update once, and the simp set made of them spares a proof the unfolding of a record update. -/

namespace Sys2Proof.Machine

/-! ### `respond` -/

@[simp] theorem respond_cfg (r : Response) (s : State) : (respond r s).cfg = s.cfg := rfl
@[simp] theorem respond_tlb (r : Response) (s : State) : (respond r s).tlb = s.tlb := rfl
@[simp] theorem respond_pass (r : Response) (s : State) : (respond r s).pass = s.pass := rfl
@[simp] theorem respond_synth (r : Response) (s : State) : (respond r s).synth = s.synth := rfl
@[simp] theorem respond_ckt (r : Response) (s : State) : (respond r s).ckt = s.ckt := rfl
@[simp] theorem respond_events (r : Response) (s : State) : (respond r s).events = s.events := rfl
@[simp] theorem respond_response (r : Response) (s : State) : (respond r s).response = some r := rfl
@[simp] theorem respond_request (r : Response) (s : State) : (respond r s).request = s.request := rfl
@[simp] theorem respond_refused (r : Response) (s : State) : (respond r s).refused = s.refused := rfl
@[simp] theorem respond_inbox (r : Response) (s : State) : (respond r s).inbox = s.inbox := rfl

/-! ### `refuseCommand` -/

@[simp] theorem refuseCommand_cfg (s : State) : (refuseCommand s).cfg = s.cfg := rfl
@[simp] theorem refuseCommand_tlb (s : State) : (refuseCommand s).tlb = s.tlb := rfl
@[simp] theorem refuseCommand_pass (s : State) : (refuseCommand s).pass = s.pass := rfl
@[simp] theorem refuseCommand_synth (s : State) : (refuseCommand s).synth = s.synth := rfl
@[simp] theorem refuseCommand_ckt (s : State) : (refuseCommand s).ckt = s.ckt := rfl
@[simp] theorem refuseCommand_events (s : State) : (refuseCommand s).events = s.events := rfl
@[simp] theorem refuseCommand_response (s : State) : (refuseCommand s).response = some .illegal := rfl
@[simp] theorem refuseCommand_request (s : State) : (refuseCommand s).request = s.request := rfl
@[simp] theorem refuseCommand_refused (s : State) : (refuseCommand s).refused = true := rfl
@[simp] theorem refuseCommand_inbox (s : State) : (refuseCommand s).inbox = s.inbox := rfl

/-! ### `suspendCommand` -/

@[simp] theorem suspendCommand_cfg (i : Instr) (s : State) : (suspendCommand i s).cfg = s.cfg := rfl
@[simp] theorem suspendCommand_tlb (i : Instr) (s : State) : (suspendCommand i s).tlb = s.tlb := rfl
@[simp] theorem suspendCommand_pass (i : Instr) (s : State) : (suspendCommand i s).pass = s.pass := rfl
@[simp] theorem suspendCommand_synth (i : Instr) (s : State) : (suspendCommand i s).synth = s.synth := rfl
@[simp] theorem suspendCommand_ckt (i : Instr) (s : State) : (suspendCommand i s).ckt = s.ckt := rfl
@[simp] theorem suspendCommand_events (i : Instr) (s : State) : (suspendCommand i s).events = s.events := rfl
@[simp] theorem suspendCommand_response (i : Instr) (s : State) : (suspendCommand i s).response = none := rfl
@[simp] theorem suspendCommand_request (i : Instr) (s : State) : (suspendCommand i s).request = some i := rfl
@[simp] theorem suspendCommand_refused (i : Instr) (s : State) : (suspendCommand i s).refused = s.refused := rfl
@[simp] theorem suspendCommand_inbox (i : Instr) (s : State) : (suspendCommand i s).inbox = s.inbox := rfl

/-! ### `deliver` -/

@[simp] theorem deliver_cfg (ev : List Event) (s : State) : (deliver ev s).cfg = s.cfg := rfl
@[simp] theorem deliver_tlb (ev : List Event) (s : State) : (deliver ev s).tlb = s.tlb := rfl
@[simp] theorem deliver_pass (ev : List Event) (s : State) : (deliver ev s).pass = s.pass := rfl
@[simp] theorem deliver_synth (ev : List Event) (s : State) : (deliver ev s).synth = s.synth := rfl
@[simp] theorem deliver_ckt (ev : List Event) (s : State) : (deliver ev s).ckt = s.ckt := rfl
@[simp] theorem deliver_events (ev : List Event) (s : State) : (deliver ev s).events = s.events ++ ev := rfl
@[simp] theorem deliver_response (ev : List Event) (s : State) : (deliver ev s).response = some (.events ev) := rfl
@[simp] theorem deliver_request (ev : List Event) (s : State) : (deliver ev s).request = s.request := rfl
@[simp] theorem deliver_refused (ev : List Event) (s : State) : (deliver ev s).refused = s.refused := rfl
@[simp] theorem deliver_inbox (ev : List Event) (s : State) : (deliver ev s).inbox = s.inbox := rfl

/-! ### `answerHalted` -/

@[simp] theorem answerHalted_cfg (s : State) : (answerHalted s).cfg = s.cfg := rfl
@[simp] theorem answerHalted_tlb (s : State) : (answerHalted s).tlb = s.tlb := rfl
@[simp] theorem answerHalted_pass (s : State) : (answerHalted s).pass = s.pass := rfl
@[simp] theorem answerHalted_synth (s : State) : (answerHalted s).synth = s.synth := rfl
@[simp] theorem answerHalted_ckt (s : State) : (answerHalted s).ckt = s.ckt := rfl
@[simp] theorem answerHalted_events (s : State) : (answerHalted s).events = s.events := rfl
@[simp] theorem answerHalted_response (s : State) : (answerHalted s).response = some (.halted s.pass.halted) := rfl
@[simp] theorem answerHalted_request (s : State) : (answerHalted s).request = s.request := rfl
@[simp] theorem answerHalted_refused (s : State) : (answerHalted s).refused = s.refused := rfl
@[simp] theorem answerHalted_inbox (s : State) : (answerHalted s).inbox = s.inbox := rfl

/-! ### `placeCommand` -/

@[simp] theorem placeCommand_cfg (w : Word) (s : State) : (placeCommand w s).cfg = s.cfg := rfl
@[simp] theorem placeCommand_tlb (w : Word) (s : State) : (placeCommand w s).tlb = s.tlb := rfl
@[simp] theorem placeCommand_pass (w : Word) (s : State) : (placeCommand w s).pass = s.pass := rfl
@[simp] theorem placeCommand_synth (w : Word) (s : State) : (placeCommand w s).synth = s.synth := rfl
@[simp] theorem placeCommand_ckt (w : Word) (s : State) : (placeCommand w s).ckt = s.ckt := rfl
@[simp] theorem placeCommand_events (w : Word) (s : State) : (placeCommand w s).events = s.events := rfl
@[simp] theorem placeCommand_response (w : Word) (s : State) : (placeCommand w s).response = s.response := rfl
@[simp] theorem placeCommand_request (w : Word) (s : State) : (placeCommand w s).request = none := rfl
@[simp] theorem placeCommand_refused (w : Word) (s : State) : (placeCommand w s).refused = s.refused := rfl
@[simp] theorem placeCommand_inbox (w : Word) (s : State) : (placeCommand w s).inbox = .command w :: s.inbox := rfl

/-! ### `exhaustPass` -/

@[simp] theorem exhaustPass_pos (p : Pass) (q : Nat) : (exhaustPass p q).pos = q := rfl
@[simp] theorem exhaustPass_fstate (p : Pass) (q : Nat) : (exhaustPass p q).fstate = p.fstate := rfl
@[simp] theorem exhaustPass_byteCount (p : Pass) (q : Nat) : (exhaustPass p q).byteCount = p.byteCount := rfl
@[simp] theorem exhaustPass_ckd (p : Pass) (q : Nat) : (exhaustPass p q).ckd = p.ckd := rfl
@[simp] theorem exhaustPass_classic (p : Pass) (q : Nat) : (exhaustPass p q).classic = p.classic := rfl
@[simp] theorem exhaustPass_pid (p : Pass) (q : Nat) : (exhaustPass p q).pid = p.pid := rfl
@[simp] theorem exhaustPass_showIbs (p : Pass) (q : Nat) : (exhaustPass p q).showIbs = p.showIbs := rfl
@[simp] theorem exhaustPass_lastEnd (p : Pass) (q : Nat) : (exhaustPass p q).lastEnd = p.lastEnd := rfl
@[simp] theorem exhaustPass_packetOpen (p : Pass) (q : Nat) : (exhaustPass p q).packetOpen = p.packetOpen := rfl
@[simp] theorem exhaustPass_halted (p : Pass) (q : Nat) : (exhaustPass p q).halted = .exhausted := rfl
@[simp] theorem exhaustPass_anchor (p : Pass) (q : Nat) : (exhaustPass p q).anchor = p.anchor := rfl
@[simp] theorem exhaustPass_sr (p : Pass) (q : Nat) : (exhaustPass p q).sr = p.sr := rfl
@[simp] theorem exhaustPass_n (p : Pass) (q : Nat) : (exhaustPass p q).n = p.n := rfl
@[simp] theorem exhaustPass_fe (p : Pass) (q : Nat) : (exhaustPass p q).fe = p.fe := rfl
@[simp] theorem exhaustPass_brk (p : Pass) (q : Nat) : (exhaustPass p q).brk = p.brk := rfl

/-! ### `leaveNoFrame` -/

@[simp] theorem leaveNoFrame_pos (p : Pass) : (leaveNoFrame p).pos = p.pos := by
  unfold leaveNoFrame; split <;> rfl
@[simp] theorem leaveNoFrame_fstate (p : Pass) :
    (leaveNoFrame p).fstate = if p.fstate = .noFrame then .headerBreak else p.fstate := by
  unfold leaveNoFrame; split <;> simp_all
@[simp] theorem leaveNoFrame_byteCount (p : Pass) : (leaveNoFrame p).byteCount = p.byteCount := by
  unfold leaveNoFrame; split <;> rfl
@[simp] theorem leaveNoFrame_ckd (p : Pass) : (leaveNoFrame p).ckd = p.ckd := by
  unfold leaveNoFrame; split <;> rfl
@[simp] theorem leaveNoFrame_classic (p : Pass) : (leaveNoFrame p).classic = p.classic := by
  unfold leaveNoFrame; split <;> rfl
@[simp] theorem leaveNoFrame_pid (p : Pass) : (leaveNoFrame p).pid = p.pid := by
  unfold leaveNoFrame; split <;> rfl
@[simp] theorem leaveNoFrame_showIbs (p : Pass) : (leaveNoFrame p).showIbs = p.showIbs := by
  unfold leaveNoFrame; split <;> rfl
@[simp] theorem leaveNoFrame_lastEnd (p : Pass) : (leaveNoFrame p).lastEnd = p.lastEnd := by
  unfold leaveNoFrame; split <;> rfl
@[simp] theorem leaveNoFrame_packetOpen (p : Pass) : (leaveNoFrame p).packetOpen = p.packetOpen := by
  unfold leaveNoFrame; split <;> rfl
@[simp] theorem leaveNoFrame_halted (p : Pass) : (leaveNoFrame p).halted = p.halted := by
  unfold leaveNoFrame; split <;> rfl
@[simp] theorem leaveNoFrame_anchor (p : Pass) : (leaveNoFrame p).anchor = p.anchor := by
  unfold leaveNoFrame; split <;> rfl
@[simp] theorem leaveNoFrame_sr (p : Pass) : (leaveNoFrame p).sr = p.sr := by
  unfold leaveNoFrame; split <;> rfl
@[simp] theorem leaveNoFrame_n (p : Pass) : (leaveNoFrame p).n = p.n := by
  unfold leaveNoFrame; split <;> rfl
@[simp] theorem leaveNoFrame_fe (p : Pass) : (leaveNoFrame p).fe = p.fe := by
  unfold leaveNoFrame; split <;> rfl
@[simp] theorem leaveNoFrame_brk (p : Pass) : (leaveNoFrame p).brk = p.brk := by
  unfold leaveNoFrame; split <;> rfl

/-! ### `emit`, `goTo` and the packet markers -/

@[simp] theorem emit_pass (e : Event) (x : Iteration) : (emit e x).pass = x.pass := rfl
@[simp] theorem emit_ev (e : Event) (x : Iteration) : (emit e x).ev = x.ev ++ [e] := rfl
@[simp] theorem goTo_pass (f : FState) (x : Iteration) : (goTo f x).pass = { x.pass with fstate := f } := rfl
@[simp] theorem goTo_ev (f : FState) (x : Iteration) : (goTo f x).ev = x.ev := rfl
@[simp] theorem beginPacket_pass (x : Iteration) : (beginPacket x).pass = { x.pass with packetOpen := true } := rfl
@[simp] theorem beginPacket_ev (x : Iteration) : (beginPacket x).ev = x.ev ++ [.beginPacket] := rfl
@[simp] theorem commitPacket_pass (x : Iteration) :
    (commitPacket x).pass = { x.pass with packetOpen := false } := by
  unfold commitPacket
  split
  · rfl
  · cases x with | mk p ev => cases p; simp_all
@[simp] theorem commitPacket_ev (x : Iteration) :
    (commitPacket x).ev = x.ev ++ (if x.pass.packetOpen then [.commitPacket] else []) := by
  unfold commitPacket
  split <;> simp_all [emit]

/-! ### `drive` -/

@[simp] theorem drive_t (c : Cfg) (l : Level) (count : Nat) (y : Synth) :
    (drive c l count y).t = y.t + count := by
  unfold drive; split <;> rfl
@[simp] theorem drive_lvl (c : Cfg) (l : Level) (count : Nat) (y : Synth) : (drive c l count y).lvl = l := by
  unfold drive; split <;> simp_all
@[simp] theorem drive_cks (c : Cfg) (l : Level) (count : Nat) (y : Synth) :
    (drive c l count y).cks = y.cks := by
  unfold drive; split <;> rfl
@[simp] theorem drive_sClassic (c : Cfg) (l : Level) (count : Nat) (y : Synth) :
    (drive c l count y).sClassic = y.sClassic := by
  unfold drive; split <;> rfl
@[simp] theorem drive_edges (c : Cfg) (l : Level) (count : Nat) (y : Synth) :
    (drive c l count y).edges = y.edges ++ (if l = y.lvl then [] else [edgeAt c y.t]) := by
  unfold drive; split <;> simp

end Sys2Proof.Machine
end

