-- ==== Sys2Proof/Laws/Ops.lean ====
section
/-! SUPPORT. One lemma per shared operation that says everything it can do: the timeline primitives and their
composition (R61 to R69), the bit timing (R112), and the accumulator (R140 to R142). -/

namespace Sys2Proof.Laws

open Sys2Proof Sys2Proof.Machine Sys2Proof.Safety

/-! ### The inputs -/

/-- A legal bit rate is positive. -/
theorem bitRate_pos {c : Cfg} (h : CfgLegal c) : 0 < c.bitRate := h.2.2.1

/-- A legal sample rate is positive. -/
theorem sampleRate_pos {c : Cfg} (h : CfgLegal c) : 0 < c.sampleRate := h.2.1

/-- A legal bit-time is at least two samples: `spb ≥ 2` (R7, R234). -/
theorem two_bitRate_le {c : Cfg} (h : CfgLegal c) : 2 * c.bitRate ≤ c.sampleRate := h.2.2.2.1

/-- The edges of a legal timeline rise. -/
theorem edges_rise {c : Cfg} {tl : Timeline} (h : TimelineLegal c tl) : tl.edges.Pairwise (fun a b => a < b) := h.2.2.1

/-- An edge of a legal timeline is not after its last sample. -/
theorem edge_le_last {c : Cfg} {tl : Timeline} (h : TimelineLegal c tl) {e : Nat} (he : e ∈ tl.edges) :
    e ≤ tl.lastSample := (h.2.2.2 e he).2

/-- The last sample of a legal timeline is a sample position. -/
theorem last_le_max {c : Cfg} {tl : Timeline} (h : TimelineLegal c tl) : tl.lastSample ≤ maxSample c := h.2.1

/-! ### Bit timing -/

/-- A later point is no earlier (R124): in every configuration, so that `AdvanceTo` never goes backward. -/
theorem off_mono (c : Cfg) {h k : Nat} (hk : h ≤ k) : off c h ≤ off c k := by
  unfold off
  cases c.bitClock
  · exact Nat.div_le_div_right (Nat.mul_le_mul_right _ hk)
  · exact Nat.add_le_add_left (Nat.mul_le_mul_right _ (Nat.div_le_div_right hk)) _

/-- A later bit-time begins no earlier (R202). -/
theorem edgeAt_mono (c : Cfg) {t u : Nat} (h : t ≤ u) : edgeAt c t ≤ edgeAt c u :=
  Nat.div_le_div_right (Nat.mul_le_mul_right _ h)

/-- A bit-time is at least two samples long (R202, R234). -/
theorem edgeAt_succ (c : Cfg) (hc : CfgLegal c) (t : Nat) : edgeAt c t + 2 ≤ edgeAt c (t + 1) := by
  have hb := bitRate_pos hc
  have h2 := two_bitRate_le hc
  unfold edgeAt
  rw [← Nat.add_mul_div_right _ _ hb]
  apply Nat.div_le_div_right
  rw [Nat.add_mul, Nat.one_mul]
  omega

/-- `E` is strictly increasing (R202). -/
theorem edgeAt_lt (c : Cfg) (hc : CfgLegal c) {t u : Nat} (h : t < u) : edgeAt c t < edgeAt c u :=
  Nat.lt_of_lt_of_le (Nat.lt_of_lt_of_le (Nat.lt_add_of_pos_right (by decide)) (edgeAt_succ c hc t)) (edgeAt_mono c h)

/-! ### Requests in a row -/

@[simp] theorem andThen_ok {α β : Type} (v : α) (p : Pass) (f : α → Pass → Read β) :
    andThen (.ok v p) f = f v p := rfl

@[simp] theorem andThen_exhausted {α β : Type} (q : Nat) (f : α → Pass → Read β) :
    andThen (.exhausted q) f = .exhausted q := rfl

@[simp] theorem andThen_suspended {α β : Type} (f : α → Pass → Read β) :
    andThen .suspended f = .suspended := rfl

@[simp] theorem andThen_backward {α β : Type} (f : α → Pass → Read β) :
    andThen .backward f = .backward := rfl

/-- A row of requests is answered exactly when each of them is. -/
theorem andThen_eq_ok {α β : Type} {r : Read α} {f : α → Pass → Read β} {v : β} {q : Pass} :
    andThen r f = .ok v q ↔ ∃ a p, r = .ok a p ∧ f a p = .ok v q := by
  cases r <;> simp

/-- How a request of the pass `p` can end, when it reads the timeline only: answered with `Q`, the cursor not before
where it was and within the timeline, and nothing but the cursor and the transients written; exhausted at such
a cursor; suspended, on an `UNBOUNDED` timeline only; and never backward (R64 to R69, R124). -/
def Ends {α : Type} (c : Cfg) (tl : Timeline) (p : Pass) (r : Read α) (Q : α → Pass → Prop) : Prop :=
  match r with
  | .ok v q =>
    OnlyCursorMoved p q ∧ p.pos ≤ q.pos ∧
      ((∀ e ∈ tl.edges, e ≤ tl.lastSample) → p.pos ≤ tl.lastSample → q.pos ≤ tl.lastSample) ∧ Q v q
  | .exhausted x =>
    p.pos ≤ x ∧ ((∀ e ∈ tl.edges, e ≤ tl.lastSample) → p.pos ≤ tl.lastSample → x ≤ tl.lastSample)
  | .suspended => c.timelineKind = .unbounded
  | .backward => False

/-- Moving the cursor twice moves the cursor. -/
theorem cursorMoved_trans {p q r : Pass} (h : OnlyCursorMoved p q) (k : OnlyCursorMoved q r) :
    OnlyCursorMoved p r := by
  unfold OnlyCursorMoved at *
  rw [k, h]

/-- The cursor moved: every other register is as it was. -/
theorem cursorMoved_fields {p q : Pass} (h : OnlyCursorMoved p q) :
    q.fstate = p.fstate ∧ q.byteCount = p.byteCount ∧ q.ckd = p.ckd ∧ q.classic = p.classic ∧ q.pid = p.pid ∧
      q.showIbs = p.showIbs ∧ q.lastEnd = p.lastEnd ∧ q.packetOpen = p.packetOpen ∧ q.halted = p.halted := by
  unfold OnlyCursorMoved at h
  rw [h]
  simp

/-- Requests in a row end as their parts do. -/
theorem andThen_ends {α β : Type} {c : Cfg} {tl : Timeline} {p : Pass} {r : Read α} {f : α → Pass → Read β}
    {Q : α → Pass → Prop} {R : β → Pass → Prop} (hr : Ends c tl p r Q)
    (hf : ∀ v q, OnlyCursorMoved p q → p.pos ≤ q.pos → Q v q → Ends c tl q (f v q) R) :
    Ends c tl p (andThen r f) R := by
  cases r with
  | ok v q =>
    obtain ⟨hm, hle, hin, hq⟩ := hr
    have key := hf v q hm hle hq
    simp only [andThen_ok]
    generalize f v q = g at key
    cases g with
    | ok w u =>
      obtain ⟨hm', hle', hin', hq'⟩ := key
      exact ⟨cursorMoved_trans hm hm', hle.trans hle', fun he hp => hin' he (hin he hp), hq'⟩
    | exhausted x => exact ⟨hle.trans key.1, fun he hp => key.2 he (hin he hp)⟩
    | suspended => exact key
    | backward => exact key
  | exhausted x => exact hr
  | suspended => exact hr
  | backward => exact hr

/-- A weaker account of the answer. -/
theorem ends_imp {α : Type} {c : Cfg} {tl : Timeline} {p : Pass} {r : Read α} {Q R : α → Pass → Prop}
    (h : Ends c tl p r Q) (hQ : ∀ v q, OnlyCursorMoved p q → p.pos ≤ q.pos → Q v q → R v q) : Ends c tl p r R := by
  cases r with
  | ok v q => exact ⟨h.1, h.2.1, h.2.2.1, hQ v q h.1 h.2.1 h.2.2.2⟩
  | exhausted x => exact h
  | suspended => exact h
  | backward => exact h

/-- Writing the transients first changes nothing in how a request ends. -/
theorem ends_of_transients {α : Type} {c : Cfg} {tl : Timeline} {p p' : Pass} {r : Read α} {Q : α → Pass → Prop}
    (hm : OnlyCursorMoved p p') (hpos : p'.pos = p.pos) (h : Ends c tl p' r Q) : Ends c tl p r Q := by
  cases r with
  | ok v q => exact ⟨cursorMoved_trans hm h.1, hpos ▸ h.2.1, fun he hp => h.2.2.1 he (hpos ▸ hp), h.2.2.2⟩
  | exhausted x => exact ⟨hpos ▸ h.1, fun he hp => h.2 he (hpos ▸ hp)⟩
  | suspended => exact h
  | backward => exact h

/-! ### The timeline -/

/-- The edge found is an edge after the position. -/
theorem edgeAfter_some {tl : Timeline} {a e : Nat} (h : edgeAfter tl a = some e) : e ∈ tl.edges ∧ a < e := by
  have h1 := List.mem_of_find?_eq_some h
  have h2 := List.find?_some h
  exact ⟨h1, by simpa using h2⟩

/-- None is found exactly when no edge is after the position. -/
theorem edgeAfter_none {tl : Timeline} {a : Nat} : edgeAfter tl a = none ↔ ∀ e ∈ tl.edges, e ≤ a := by
  simp [edgeAfter]

/-- Of rising edges, the first one after the position is the least. -/
theorem edgeAfter_eq_some_iff {c : Cfg} {tl : Timeline} (h : TimelineLegal c tl) {a e : Nat} :
    edgeAfter tl a = some e ↔ FirstEdgeAfter tl a e := by
  have hp := edges_rise h
  unfold edgeAfter FirstEdgeAfter
  generalize tl.edges = l at hp ⊢
  induction l with
  | nil => simp
  | cons x l ih =>
    rw [List.pairwise_cons] at hp
    by_cases hx : a < x
    · rw [List.find?_cons_of_pos (by simpa using hx)]
      constructor
      · rintro h
        cases h
        refine ⟨by simp, hx, fun y hy _ => ?_⟩
        rcases List.mem_cons.1 hy with rfl | hy
        · exact le_refl _
        · exact (hp.1 y hy).le
      · rintro ⟨he, _, hmin⟩
        rcases List.mem_cons.1 he with rfl | he
        · rfl
        · have := hmin x (by simp) hx
          have := hp.1 e he
          omega
    · rw [List.find?_cons_of_neg (by simpa using hx)]
      refine (ih hp.2).trans ?_
      constructor
      · rintro ⟨he, hae, hmin⟩
        refine ⟨List.mem_cons_of_mem _ he, hae, fun y hy hay => ?_⟩
        rcases List.mem_cons.1 hy with rfl | hy
        · exact absurd hay hx
        · exact hmin y hy hay
      · rintro ⟨he, hae, hmin⟩
        rcases List.mem_cons.1 he with rfl | he
        · exact absurd hae hx
        · exact ⟨he, hae, fun y hy => hmin y (List.mem_cons_of_mem _ hy)⟩

/-- `noEdge` is never an answer (R65, R66). -/
theorem noEdge_ends {α : Type} (c : Cfg) (tl : Timeline) (p : Pass) (Q : α → Pass → Prop) :
    Ends c tl p (noEdge c p : Read α) Q := by
  unfold noEdge
  cases h : c.timelineKind
  · exact ⟨le_refl _, fun _ hp => hp⟩
  · exact h

/-- `TL.advance(n)` answers with the cursor `n` samples on, within the timeline (R64). -/
theorem tlAdvance_ends (c : Cfg) (tl : Timeline) (count : Nat) (p : Pass) :
    Ends c tl p (tlAdvance c tl count p)
      (fun _ q => q = { p with pos := p.pos + count } ∧ p.pos + count ≤ tl.lastSample ∧ p.pos + count ≤ maxSample c) := by
  unfold tlAdvance
  split
  · exact ⟨le_refl _, fun _ hp => hp⟩
  · split
    · exact ⟨le_refl _, fun _ hp => hp⟩
    · split
      · rename_i h1 _ h3
        have : c.timelineKind ≠ .finite := fun hk => h1 ⟨hk, h3⟩
        cases hk : c.timelineKind
        · exact absurd hk this
        · exact hk
      · rename_i _ h2 h3
        exact ⟨rfl, Nat.le_add_right _ _, fun _ _ => by simpa using h3, rfl, by omega, by omega⟩

/-- `TL.advance(n)` within a legal timeline is answered (R64). -/
theorem tlAdvance_of_le {c : Cfg} {tl : Timeline} (h : TimelineLegal c tl) {count : Nat} {p : Pass}
    (hle : p.pos + count ≤ tl.lastSample) : tlAdvance c tl count p = .ok () { p with pos := p.pos + count } := by
  have := last_le_max h
  unfold tlAdvance
  rw [if_neg (by omega), if_neg (by omega), if_neg (by omega)]

/-- `AdvanceTo(t)` of a point that is not before the cursor (R64, R124). -/
theorem advanceTo_ends (c : Cfg) (tl : Timeline) {t : Nat} {p : Pass} (ht : p.pos ≤ t) :
    Ends c tl p (advanceTo c tl t p)
      (fun _ q => q = { p with pos := t } ∧ t ≤ tl.lastSample ∧ t ≤ maxSample c) := by
  unfold advanceTo
  rw [if_neg (by omega)]
  refine ends_imp (tlAdvance_ends c tl (t - p.pos) p) ?_
  rintro _ q _ _ ⟨rfl, h1, h2⟩
  rw [show p.pos + (t - p.pos) = t by omega] at *
  exact ⟨rfl, h1, h2⟩

/-- `AdvanceTo(t)` of a later point of a legal timeline is answered. -/
theorem advanceTo_of_le {c : Cfg} {tl : Timeline} (h : TimelineLegal c tl) {t : Nat} {p : Pass}
    (hp : p.pos ≤ t) (ht : t ≤ tl.lastSample) : advanceTo c tl t p = .ok () { p with pos := t } := by
  unfold advanceTo
  rw [if_neg (by omega), tlAdvance_of_le h (by omega)]
  rw [show p.pos + (t - p.pos) = t by omega]

/-- `TL.advance_to_next_edge()` answers with the cursor on the next edge (R65). -/
theorem tlAdvanceToNextEdge_ends (c : Cfg) (tl : Timeline) (p : Pass) :
    Ends c tl p (tlAdvanceToNextEdge c tl p)
      (fun _ q => ∃ e, edgeAfter tl p.pos = some e ∧ q = { p with pos := e }) := by
  unfold tlAdvanceToNextEdge
  split
  · rename_i e he
    have := edgeAfter_some he
    exact ⟨rfl, this.2.le, fun hl _ => hl e this.1, e, he, rfl⟩
  · exact noEdge_ends c tl p _

/-- `TL.next_edge()` answers with the next edge and moves nothing (R66). -/
theorem tlNextEdge_ends (c : Cfg) (tl : Timeline) (p : Pass) :
    Ends c tl p (tlNextEdge c tl p) (fun e q => edgeAfter tl p.pos = some e ∧ q = p) := by
  unfold tlNextEdge
  split
  · rename_i e he
    exact ⟨rfl, le_refl _, fun _ hp => hp, he, rfl⟩
  · exact noEdge_ends c tl p _

/-- `TL.would_transition_within(n)` moves nothing, and its answer is true exactly when an edge lies in the window;
the answer false needs the whole window (R67). -/
theorem tlWouldTransitionWithin_ends (c : Cfg) (tl : Timeline) (count : Nat) (p : Pass) :
    Ends c tl p (tlWouldTransitionWithin c tl count p)
      (fun b q => q = p ∧ (b = true ↔ ∃ e ∈ tl.edges, p.pos < e ∧ e ≤ p.pos + count) ∧
        (b = false → p.pos + count ≤ tl.lastSample)) := by
  unfold tlWouldTransitionWithin
  split
  · rename_i h
    refine ⟨rfl, le_refl _, fun _ hp => hp, rfl, ?_, by simp⟩
    simpa using h
  · split
    · cases hk : c.timelineKind
      · exact ⟨le_refl _, fun _ hp => hp⟩
      · exact hk
    · rename_i h1 h2
      refine ⟨rfl, le_refl _, fun _ hp => hp, rfl, ?_, fun _ => by omega⟩
      simp only [Bool.false_eq_true, false_iff]
      simpa using h1

/-- The probe sees an edge. -/
theorem tlWouldTransitionWithin_true {c : Cfg} {tl : Timeline} {count : Nat} {p : Pass} {e : Nat}
    (he : e ∈ tl.edges) (h1 : p.pos < e) (h2 : e ≤ p.pos + count) :
    tlWouldTransitionWithin c tl count p = .ok true p := by
  unfold tlWouldTransitionWithin
  rw [if_pos]
  simp only [List.any_eq_true, decide_eq_true_eq]
  exact ⟨e, he, h1, h2⟩

/-- The probe sees a quiet window that lies within the timeline. -/
theorem tlWouldTransitionWithin_false {c : Cfg} {tl : Timeline} {count : Nat} {p : Pass}
    (hq : QuietBetween tl p.pos (p.pos + count)) (hl : p.pos + count ≤ tl.lastSample) :
    tlWouldTransitionWithin c tl count p = .ok false p := by
  unfold tlWouldTransitionWithin
  rw [if_neg, if_neg (by omega)]
  simp only [List.any_eq_true, decide_eq_true_eq, not_exists, not_and]
  intro e he h1 h2
  exact hq e he ⟨h1, h2⟩

/-- Any two levels that differ from a third are equal. -/
@[simp] theorem otherLevel_otherLevel (l : Level) : otherLevel (otherLevel l) = l := by cases l <;> rfl

/-- The other level differs. -/
@[simp] theorem otherLevel_ne (l : Level) : otherLevel l ≠ l := by cases l <;> decide

/-- A level other than `High` is `Low`. -/
theorem eq_low_of_ne_high {l : Level} (h : l ≠ .high) : l = .low := by
  cases l
  · rfl
  · exact absurd rfl h

/-! ### The accumulator -/

/-- `add` as a number (R141). -/
theorem sumAdd_toNat (sum b : Byte) :
    (sumAdd sum b).toNat = if 255 < sum.toNat + b.toNat then sum.toNat + b.toNat - 255 else sum.toNat + b.toNat := by
  have := sum.isLt
  have := b.isLt
  unfold sumAdd
  dsimp only
  split <;> rw [BitVec.toNat_ofNat] <;> omega

/-- Adding to a cleared sum gives the byte. -/
@[simp] theorem sumAdd_clear (b : Byte) : sumAdd sumClear b = b := by
  apply BitVec.eq_of_toNat_eq
  have := b.isLt
  rw [sumAdd_toNat]
  simp only [sumClear, BitVec.toNat_ofNat]
  split <;> omega

end Sys2Proof.Laws
end

