-- ==== Sys2Proof/Laws/BitDecoder.lean ====
section
/-! SUPPORT. The bit decoder's procedures: how each of them can end (R115 to R118), in the terms of `Ends`. -/

namespace Sys2Proof.Laws

open Sys2Proof Sys2Proof.Machine Sys2Proof.Safety

/-- `WaitFalling` ends on an edge after the cursor and moves nothing else (R115). -/
theorem waitFalling_ends (c : Cfg) (tl : Timeline) (p : Pass) :
    Ends c tl p (waitFalling c tl p)
      (fun _ q => q = { p with pos := q.pos } ∧ p.pos < q.pos ∧ q.pos ∈ tl.edges) := by
  refine andThen_ends (tlAdvanceToNextEdge_ends c tl p) ?_
  rintro _ q _ _ ⟨e, he, rfl⟩
  have h1 := edgeAfter_some he
  split
  · refine ends_imp (tlAdvanceToNextEdge_ends c tl _) ?_
    rintro _ q _ _ ⟨e', he', rfl⟩
    have h2 := edgeAfter_some he'
    exact ⟨rfl, h1.2.trans h2.2, h2.1⟩
  · exact ⟨rfl, le_refl _, fun _ hp => hp, rfl, h1.2, h1.1⟩

/-- Sampling `count` bits ends at the last of its points, and writes the cursor and the shift register (R112, R118). -/
theorem sampleBits_ends (c : Cfg) (tl : Timeline) (count h : Nat) (p : Pass) (hp : p.pos ≤ p.anchor + off c h) :
    Ends c tl p (sampleBits c tl count h p)
      (fun _ q => q = { p with pos := q.pos, sr := q.sr } ∧
        q.pos = if count = 0 then p.pos else p.anchor + off c (h + 2 * (count - 1))) := by
  induction count generalizing h p with
  | zero => exact ⟨rfl, le_refl _, fun _ hp => hp, rfl, rfl⟩
  | succ count ih =>
    refine andThen_ends (advanceTo_ends c tl hp) ?_
    rintro _ q _ _ ⟨rfl, _, _⟩
    refine ends_of_transients (p' := { p with pos := p.anchor + off c h, sr := _ }) rfl rfl ?_
    refine ends_imp (ih (h + 2) _ (Nat.add_le_add_left (off_mono c (by omega)) _)) ?_
    rintro _ q _ _ ⟨hq, hpos⟩
    refine ⟨by rw [hq], ?_⟩
    rw [hpos]
    simp only [Nat.add_eq_zero_iff, one_ne_zero, and_false, if_false]
    split
    · next h0 => subst h0; simp
    · next h0 =>
      rw [show h + 2 + 2 * (count - 1) = h + 2 * (count + 1 - 1) by omega]

/-- One turn of `BreakDecode`'s loop anchors the next low run at the cursor and measures it (R116). -/
theorem measureLowRun_ends (c : Cfg) (tl : Timeline) (p : Pass) :
    Ends c tl p (measureLowRun c tl p)
      (fun _ q => q = { p with pos := q.pos, anchor := q.pos, n := q.n } ∧ p.pos < q.pos ∧ q.pos ∈ tl.edges ∧
        ∃ e, edgeAfter tl q.pos = some e ∧ q.n = nbits c (e - q.pos)) := by
  refine andThen_ends (waitFalling_ends c tl p) ?_
  rintro _ q hm hle ⟨hq, hlt, hmem⟩
  refine andThen_ends (tlNextEdge_ends c tl q) ?_
  rintro e r _ _ ⟨he, rfl⟩
  refine ⟨rfl, le_refl _, fun _ hp => hp, ?_, hlt, hmem, e, he, rfl⟩
  rw [hq]

/-- `BreakDecode`'s loop ends on an anchor after the cursor whose low run is long enough (R116). -/
theorem seekBreak_ends (c : Cfg) (tl : Timeline) (turns : Nat) (p : Pass) :
    Ends c tl p (seekBreak c tl turns p)
      (fun _ q => q = { p with pos := q.pos, anchor := q.pos, n := q.n } ∧ p.pos < q.pos ∧ c.breakMinBits ≤ q.n) := by
  induction turns generalizing p with
  | zero => exact noEdge_ends c tl p _
  | succ turns ih =>
    refine andThen_ends (measureLowRun_ends c tl p) ?_
    rintro _ q _ _ ⟨hq, hlt, _, _⟩
    split
    · next hmin => exact ⟨rfl, le_refl _, fun _ hp => hp, hq, hlt, hmin⟩
    · refine ends_imp (ih q) ?_
      rintro _ r _ _ ⟨hr, hlt', hmin⟩
      exact ⟨by rw [hr, hq], hlt.trans hlt', hmin⟩

/-- `BreakDecode`'s result: the anchor after the cursor, the end at the new cursor, no `brk` (R116). -/
theorem breakDecode_ends (c : Cfg) (tl : Timeline) (p : Pass) :
    Ends c tl p (breakDecode c tl p)
      (fun d q => d.endSample = q.pos ∧ d.startSample = q.anchor ∧ p.pos < d.startSample ∧
        d.startSample ≤ d.endSample ∧ d.brk = false ∧ d.value = q.sr ∧ d.fe = q.fe) := by
  refine andThen_ends (seekBreak_ends c tl _ p) ?_
  rintro _ q _ _ ⟨hq, hlt, _⟩
  have hqa : q.anchor = q.pos := by rw [hq]
  refine andThen_ends
    (ends_of_transients (p' := { q with sr := 0#8 }) rfl rfl
      (sampleBits_ends c tl q.n 1 { q with sr := 0#8 } (by simp [hqa]))) ?_
  rintro _ r _ _ ⟨hr, hpos⟩
  have hra : r.anchor = q.anchor := by rw [hr]
  have hrn : r.n = q.n := by rw [hr]
  have hle : r.pos ≤ r.anchor + off c (2 * r.n + 1) := by
    rw [hra, hrn, hpos]
    split
    · simp [hqa]
    · exact Nat.add_le_add_left (off_mono c (by omega)) _
  refine andThen_ends (advanceTo_ends c tl hle) ?_
  rintro _ u _ _ ⟨rfl, _, _⟩
  exact ⟨rfl, le_refl _, fun _ hp => hp, rfl, rfl, by simp only [hra, hqa]; exact hlt,
    by simp, rfl, rfl, rfl⟩

/-- The low stop bit: the cursor does not go back, and the result is a framing error or a break, never both (R117). -/
theorem probeBreak_ends (c : Cfg) (tl : Timeline) (p : Pass) :
    Ends c tl p (probeBreak c tl p)
      (fun d q => d.endSample = q.pos ∧ d.startSample = p.anchor ∧ p.pos ≤ q.pos ∧ (d.fe = !d.brk) ∧
        (d.brk = true → d.value = 0x00#8) ∧ q.anchor = p.anchor) := by
  refine andThen_ends (tlWouldTransitionWithin_ends c tl _ p) ?_
  rintro b q _ _ ⟨rfl, _, _⟩
  split
  · exact ⟨rfl, le_refl _, fun _ hp => hp, rfl, rfl, le_refl _, rfl, by simp, rfl⟩
  · refine andThen_ends (tlAdvanceToNextEdge_ends c tl _) ?_
    rintro _ r _ hle ⟨e, he, rfl⟩
    refine andThen_ends (tlWouldTransitionWithin_ends c tl _ _) ?_
    rintro b r _ _ ⟨rfl, _, _⟩
    split
    · exact ⟨rfl, le_refl _, fun _ hp => hp, rfl, rfl, hle, rfl, by simp, rfl⟩
    · exact ⟨rfl, le_refl _, fun _ hp => hp, rfl, rfl, hle, rfl, by simp, rfl⟩

/-- `ByteDecode`'s result: the anchor after the cursor, the end at the new cursor, and of `fe` and `brk` at most
one (R117). -/
theorem byteDecode_ends (c : Cfg) (tl : Timeline) (p : Pass) :
    Ends c tl p (byteDecode c tl p)
      (fun d q => d.endSample = q.pos ∧ p.pos < d.startSample ∧ d.startSample ≤ d.endSample ∧
        ¬ (d.fe = true ∧ d.brk = true) ∧ (d.brk = true → d.value = 0x00#8)) := by
  refine andThen_ends (waitFalling_ends c tl p) ?_
  rintro _ q _ _ ⟨hq, hlt, _⟩
  refine andThen_ends
    (ends_of_transients (p' := { q with anchor := q.pos }) rfl rfl
      (advanceTo_ends c tl (p := { q with anchor := q.pos }) (Nat.le_add_right _ _))) ?_
  rintro _ r _ _ ⟨rfl, _, _⟩
  refine andThen_ends
    (ends_of_transients (p' := { q with pos := q.pos + off c 1, anchor := q.pos, sr := 0#8 }) rfl rfl
      (sampleBits_ends c tl 8 3 _ (Nat.add_le_add_left (off_mono c (by decide)) _))) ?_
  rintro _ r _ _ ⟨hr, hpos⟩
  have hra : r.anchor = q.pos := by rw [hr]
  have hle : r.pos ≤ r.anchor + off c 19 := by
    rw [hra, hpos]
    exact Nat.add_le_add_left (off_mono c (by decide)) _
  refine andThen_ends (advanceTo_ends c tl hle) ?_
  rintro _ u _ _ ⟨rfl, _, _⟩
  split
  · exact ⟨rfl, le_refl _, fun _ hp => hp, rfl, by simpa [hra] using hlt, by simp, by simp, by simp⟩
  · refine ends_imp (probeBreak_ends c tl _) ?_
    rintro d v _ hle' ⟨hend, hstart, hpos', hfe, hval, _⟩
    refine ⟨hend, by rw [hstart]; simpa [hra] using hlt, ?_, ?_, hval⟩
    · rw [hstart, hend]
      exact (Nat.le_add_right _ _).trans hpos'
    · rintro ⟨h1, h2⟩
      simp [h1, h2] at hfe

/-- The decode of an iteration, whichever it is (R150). -/
theorem decodeFor_ends (c : Cfg) (tl : Timeline) (p : Pass) :
    Ends c tl p (decodeFor c tl p)
      (fun d q => d.endSample = q.pos ∧ p.pos < d.startSample ∧ d.startSample ≤ d.endSample ∧
        ¬ (d.fe = true ∧ d.brk = true) ∧ (d.brk = true → p.fstate ≠ .headerBreak)) := by
  unfold decodeFor
  split
  · refine ends_imp (breakDecode_ends c tl p) ?_
    rintro d q _ _ ⟨h1, _, h3, h4, h5, _, _⟩
    exact ⟨h1, h3, h4, by simp [h5], by simp [h5]⟩
  · next hf =>
    refine ends_imp (byteDecode_ends c tl p) ?_
    rintro d q _ _ ⟨h1, h2, h3, h4, _⟩
    exact ⟨h1, h2, h3, h4, fun _ => hf⟩

end Sys2Proof.Laws
end

