-- ==== Sys2Proof/Laws/FrameFsm.lean ====
section
/-! SUPPORT. The parts of an iteration: what each leaves in the pass, and which events it appends (R153 to R163). -/

namespace Sys2Proof.Laws

open Sys2Proof Sys2Proof.Machine Sys2Proof.Safety

@[simp] theorem emitFrame_pass (d : Decoded) (k : Kind) (v : Byte) (i : Nat) (fl : BitVec 4) (x : Iteration) :
    (emitFrame d k v i fl x).pass = x.pass := rfl

@[simp] theorem emitFrame_ev (d : Decoded) (k : Kind) (v : Byte) (i : Nat) (fl : BitVec 4) (x : Iteration) :
    (emitFrame d k v i fl x).ev = x.ev ++ [frameEvent d k v i fl] := rfl

@[simp] theorem emitGap_pass (d : Decoded) (x : Iteration) : (emitGap d x).pass = x.pass := by
  unfold emitGap; split <;> rfl

@[simp] theorem emitGap_ev (d : Decoded) (x : Iteration) :
    (emitGap d x).ev = x.ev ++ gapEvents x.pass d.startSample := by
  unfold emitGap gapEvents; split <;> simp [emit]

@[simp] theorem confirmBreak_pass (d : Decoded) (v : Byte) (fl : BitVec 4) (x : Iteration) :
    (confirmBreak d v fl x).pass =
      { x.pass with fstate := .headerSync, packetOpen := true, showIbs := true, byteCount := 0 } := by
  simp [confirmBreak]

@[simp] theorem confirmBreak_ev (d : Decoded) (v : Byte) (fl : BitVec 4) (x : Iteration) :
    (confirmBreak d v fl x).ev =
      x.ev ++ commitEvents x.pass ++ [.beginPacket, frameEvent d .headerBreak v 0 fl] := by
  simp [confirmBreak, commitEvents]

@[simp] theorem finishIteration_pass (d : Decoded) (x : Iteration) :
    (finishIteration d x).pass = { x.pass with lastEnd := d.endSample } := rfl

@[simp] theorem finishIteration_ev (d : Decoded) (x : Iteration) :
    (finishIteration d x).ev = x.ev ++ [.progress x.pass.pos] := rfl

/-- The `FramingError` flag (R89, R164). -/
@[simp] theorem decodeFlags_eq (fe : Bool) : decodeFlags fe = if fe then 0x1#4 else 0x0#4 := rfl

/-- An arm writes the frame registers and neither the cursor nor the bit decoder's transients. -/
theorem arm_cursor (c : Cfg) (d : Decoded) (x : Iteration) :
    (arm c d x).pass.pos = x.pass.pos ∧ (arm c d x).pass.halted = x.pass.halted ∧
      (arm c d x).pass.lastEnd = x.pass.lastEnd ∧ (arm c d x).pass.anchor = x.pass.anchor := by
  unfold arm headerBreakArm breakInByteArm headerSyncArm headerPidArm dataZeroArm dataArm checksumArm
  cases x.pass.fstate <;> (dsimp only; repeat' split) <;> simp

/-- An iteration keeps the cursor and `halted`, and its frame's end is the new `last_end` (R163). -/
theorem iterate_cursor (c : Cfg) (d : Decoded) (p : Pass) :
    (iterate c d p).pass.pos = p.pos ∧ (iterate c d p).pass.halted = p.halted ∧
      (iterate c d p).pass.lastEnd = d.endSample := by
  have h := arm_cursor c d (emitGap d { pass := p, ev := [] })
  simp [iterate, h]

/-- `leaveNoFrame` writes `fstate` only, and after it the state is not `NoFrame` (R152). -/
theorem leaveNoFrame_eq (p : Pass) :
    leaveNoFrame p = { p with fstate := if p.fstate = .noFrame then .headerBreak else p.fstate } := by
  unfold leaveNoFrame
  split <;> rfl

end Sys2Proof.Laws
end

