-- ==== Sys2Proof/Laws/Synthesizer.lean ====
section
/-! SUPPORT. The driven line: what a byte, a break and a synthesis command leave (R201 to R210). -/

namespace Sys2Proof.Laws

open Sys2Proof Sys2Proof.Machine Sys2Proof.Safety

/-- Driving a level only appends edges (R71). -/
theorem drive_prefix (c : Cfg) (l : Level) (count : Nat) (y : Synth) : y.edges <+: (drive c l count y).edges := by
  simp

/-- The data bits are eight bit-times and touch the line only (R207). -/
theorem driveBits_line (c : Cfg) (r : Byte) (y : Synth) :
    (driveBits c r y).t = y.t + 8 ∧ (driveBits c r y).cks = y.cks ∧ (driveBits c r y).sClassic = y.sClassic ∧
      y.edges <+: (driveBits c r y).edges := by
  refine ⟨by simp [driveBits], by simp [driveBits], by simp [driveBits], ?_⟩
  simp only [driveBits, List.foldl_cons, List.foldl_nil]
  repeat' apply List.IsPrefix.trans _ (drive_prefix _ _ _ _)
  exact List.prefix_rfl

/-- A byte is ten bit-times and the idle gap, ends high, and touches the line only (R203, R207). -/
theorem driveByte_line (c : Cfg) (b : Byte) (y : Synth) :
    (driveByte c b y).t = y.t + 10 + c.idleGapBits ∧ (driveByte c b y).lvl = .high ∧
      (driveByte c b y).cks = y.cks ∧ (driveByte c b y).sClassic = y.sClassic ∧
      y.edges <+: (driveByte c b y).edges := by
  obtain ⟨h1, h2, h3, h4⟩ := driveBits_line c (reverseBits b) (drive c .low 1 y)
  refine ⟨?_, by simp [driveByte], by simp [driveByte, h2], by simp [driveByte, h3], ?_⟩
  · simp only [driveByte, drive_t, h1]
  · exact (drive_prefix c .low 1 y).trans (h4.trans ((drive_prefix ..).trans (drive_prefix ..)))

/-- A break is its low and high bit-times, ends high, and touches the line only (R203, R206). -/
theorem driveBreak_line (c : Cfg) (y : Synth) :
    (driveBreak c y).t = y.t + c.synBreakBits + c.synDelimBits ∧ (driveBreak c y).lvl = .high ∧
      (driveBreak c y).cks = y.cks ∧ (driveBreak c y).sClassic = y.sClassic ∧
      y.edges <+: (driveBreak c y).edges :=
  ⟨by simp [driveBreak], by simp [driveBreak], by simp [driveBreak], by simp [driveBreak],
    (drive_prefix ..).trans (drive_prefix ..)⟩

/-- The checksum registers have no part in driving a byte: only the line, its level and its counter (R207). -/
theorem driveByte_sum (c : Cfg) (b : Byte) (y : Synth) (k : Byte) (m : Bool) :
    driveByte c b { y with cks := k, sClassic := m } = { driveByte c b y with cks := k, sClassic := m } := by
  have key : ∀ (l : Level) (n : Nat) (z : Synth),
      drive c l n { z with cks := k, sClassic := m } = { drive c l n z with cks := k, sClassic := m } := by
    intro l n z
    unfold drive
    split <;> rfl
  simp only [driveByte, driveBits, List.foldl_cons, List.foldl_nil, key]

/-- A synthesis command either fits, and answers with what its run appended, or is refused (R201). -/
theorem synthesize_next {cost : Nat} {run : Synth → Synth} {s : State} :
    synthesize cost run s =
      .next (if synthFits s.cfg cost s.synth then
        respond (.edges ((run s.synth).edges.drop s.synth.edges.length)) { s with synth := run s.synth }
      else refuseCommand s) := by
  unfold synthesize
  split <;> rfl

end Sys2Proof.Laws
end

