-- ==== Sys2Proof/Laws/Exec.lean ====
section
/-! SUPPORT. What a command can do, once for each shape of command: the cases of a decode command, of `FSM.STEP`, and of a
step (R119, R120, R150, R72). -/

namespace Sys2Proof.Laws

open Sys2Proof Sys2Proof.Machine Sys2Proof.Safety

/-- `BD.BRK` and `BD.BYTE`: halted, answered, exhausted or suspended. -/
theorem runDecode_cases {i : Instr} {dec : Cfg → Timeline → Pass → Read Decoded} {answer : Decoded → Response}
    {s t : State} (h : runDecode i dec answer s = .next t) :
    (s.pass.halted ≠ .run ∧ t = answerHalted s) ∨
    (s.pass.halted = .run ∧ ∃ d p, dec s.cfg s.tlb s.pass = .ok d p ∧ t = respond (answer d) { s with pass := p }) ∨
    (s.pass.halted = .run ∧ ∃ q, dec s.cfg s.tlb s.pass = .exhausted q ∧
      t = respond (.exhausted q) { s with pass := exhaustPass s.pass q }) ∨
    (s.pass.halted = .run ∧ dec s.cfg s.tlb s.pass = .suspended ∧ t = suspendCommand i s) := by
  unfold runDecode at h
  split at h
  · next hr =>
    split at h
    · next d p hd => cases h; exact .inr (.inl ⟨hr, d, p, hd, rfl⟩)
    · next q hd => cases h; exact .inr (.inr (.inl ⟨hr, q, hd, rfl⟩))
    · next hd => cases h; exact .inr (.inr (.inr ⟨hr, hd, rfl⟩))
    · cases h
  · next hr => cases h; exact .inl ⟨hr, rfl⟩

/-- `FSM.STEP`: halted, a whole iteration, exhausted or suspended (R150, R151, R232). -/
theorem execFsmStep_cases {s t : State} (h : execFsmStep s = .next t) :
    (s.pass.halted ≠ .run ∧ t = answerHalted s) ∨
    (s.pass.halted = .run ∧ ∃ d p, decodeFor s.cfg s.tlb (leaveNoFrame s.pass) = .ok d p ∧
      t = deliver (iterate s.cfg d p).ev { s with pass := (iterate s.cfg d p).pass }) ∨
    (s.pass.halted = .run ∧ ∃ q, decodeFor s.cfg s.tlb (leaveNoFrame s.pass) = .exhausted q ∧
      t = deliver [.exhausted q] { s with pass := exhaustPass (leaveNoFrame s.pass) q }) ∨
    (s.pass.halted = .run ∧ decodeFor s.cfg s.tlb (leaveNoFrame s.pass) = .suspended ∧
      t = suspendCommand .fsmStep s) := by
  unfold execFsmStep at h
  split at h
  · next hr =>
    split at h
    · next d p hd => cases h; exact .inr (.inl ⟨hr, d, p, hd, rfl⟩)
    · next q hd => cases h; exact .inr (.inr (.inl ⟨hr, q, hd, rfl⟩))
    · next hd => cases h; exact .inr (.inr (.inr ⟨hr, hd, rfl⟩))
    · cases h
  · next hr => cases h; exact .inl ⟨hr, rfl⟩

/-- A step: a reset, a delivery, a command, or the state held (R72). -/
theorem step_cases {s t : State} (h : step s = .next t) :
    (nextTurn s = .hold t) ∨ ∃ i u, nextTurn s = .run i u ∧ exec i u = .next t := by
  unfold step at h
  split at h
  · next u hu => cases h; exact .inl hu
  · next i u hu => exact .inr ⟨i, u, hu, h⟩
  · cases h

/-- What the ports can hold: nothing, a refused word, a legal reset, or a legal delivery. -/
theorem nextTurn_hold_cases {s t : State} (h : nextTurn s = .hold t) :
    t = s ∨
    (s.request = none ∧ ∃ w rest, s.inbox = .command w :: rest ∧ t = refuseCommand { s with inbox := rest }) ∨
    (∃ inputs rest, s.inbox = .reset inputs :: rest ∧ InputsLegal inputs ∧
      t = { State.ofInputs inputs with inbox := rest, refused := s.refused }) ∨
    (s.request = none ∧ ∃ x rest, s.inbox = .extend x :: rest ∧ SupplyLegal s.cfg s.tlb x ∧
      t = { s with inbox := rest, tlb := extendTimeline s.tlb x }) := by
  have reset : ∀ inputs rest, turnOf .illegalReset (assertReset inputs { s with inbox := rest }) = .hold t →
      InputsLegal inputs ∧ t = { State.ofInputs inputs with inbox := rest, refused := s.refused } := by
    intro inputs rest h
    unfold assertReset resetWith at h
    by_cases hl : InputsLegal inputs
    · rw [if_pos hl] at h; cases h; exact ⟨hl, rfl⟩
    · rw [if_neg hl] at h; cases h
  unfold nextTurn at h
  split at h
  · next hreq =>
    unfold acceptNext at h
    split at h
    · cases h; exact .inl rfl
    · next w rest hin =>
      unfold acceptWord at h
      split at h
      · cases h
      · cases h; exact .inr (.inl ⟨hreq, w, rest, hin, rfl⟩)
    · next inputs rest hin => exact .inr (.inr (.inl ⟨inputs, rest, hin, reset inputs rest h⟩))
    · next x rest hin =>
      unfold acceptSupply at h
      by_cases hl : SupplyLegal s.cfg s.tlb x
      · rw [if_pos hl] at h; cases h; exact .inr (.inr (.inr ⟨hreq, x, rest, hin, hl, rfl⟩))
      · rw [if_neg hl] at h; cases h
  · next i hreq =>
    unfold acceptSuspended at h
    split at h
    · cases h; exact .inl rfl
    · cases h; exact .inl rfl
    · next inputs rest hin => exact .inr (.inr (.inl ⟨inputs, rest, hin, reset inputs rest h⟩))
    · split at h <;> cases h

/-- Which command runs: the next word's, or the suspended one after a delivery. -/
theorem nextTurn_run_cases {s u : State} {i : Instr} (h : nextTurn s = .run i u) :
    (s.request = none ∧ ∃ w rest, s.inbox = .command w :: rest ∧ decode w = .ok i ∧ u = { s with inbox := rest }) ∨
    (s.request = some i ∧ ∃ x rest, s.inbox = .extend x :: rest ∧ SupplyLegal s.cfg s.tlb x ∧
      u = { s with request := none, inbox := rest, tlb := extendTimeline s.tlb x }) := by
  have noRun : ∀ r (o : Option State), turnOf r o = .run i u → False := by
    intro r o h
    cases o <;> cases h
  unfold nextTurn at h
  split at h
  · next hreq =>
    unfold acceptNext at h
    split at h
    · cases h
    · next w rest hin =>
      unfold acceptWord at h
      split at h
      · next j hj => cases h; exact .inl ⟨hreq, w, rest, hin, hj, rfl⟩
      · cases h
    · exact absurd h (fun h => noRun _ _ h)
    · exact absurd h (fun h => noRun _ _ h)
  · next j hreq =>
    unfold acceptSuspended at h
    split at h
    · cases h
    · cases h
    · exact absurd h (fun h => noRun _ _ h)
    · next x rest hin =>
      unfold acceptSupply at h
      by_cases hl : SupplyLegal s.cfg s.tlb x
      · rw [if_pos hl] at h; cases h; exact .inr ⟨hreq, x, rest, hin, hl, rfl⟩
      · rw [if_neg hl] at h; cases h

end Sys2Proof.Laws
end

