-- ==== Sys2Proof/Laws/Timeline.lean ====
section
/-! SUPPORT. The timeline: its canonical form is kept by a delivery, the level changes at edges only, and the first edge
after a position (R61, R65, R69). -/

namespace Sys2Proof.Laws

open Sys2Proof Sys2Proof.Machine Sys2Proof.Safety

/-- A legal delivery keeps the timeline legal: its edges rise and lie within it (R61, R69, R261). -/
theorem extendTimeline_legal {c : Cfg} {tl : Timeline} {x : Supply} (h : TimelineLegal c tl)
    (hx : SupplyLegal c tl x) : TimelineLegal c (extendTimeline tl x) := by
  obtain ⟨h1, h2, h3, h4⟩ := h
  obtain ⟨_, k1, k2, k3, k4⟩ := hx
  refine ⟨h1.trans k1, k2, List.pairwise_append.2 ⟨h3, k3, fun a ha b hb => ?_⟩, fun e he => ?_⟩
  · exact lt_of_le_of_lt (h4 a ha).2 (k4 b hb).1
  · rcases List.mem_append.1 he with he | he
    · exact ⟨(h4 e he).1, (h4 e he).2.trans k1⟩
    · exact ⟨h1.trans (k4 e he).1.le, (k4 e he).2⟩

/-- The edges up to a sample, counted one sample later. -/
theorem countP_edges_succ {l : List Nat} (hl : l.Pairwise (fun a b => a < b)) (x : Nat) :
    l.countP (fun e => decide (e ≤ x + 1)) = l.countP (fun e => decide (e ≤ x)) + (if x + 1 ∈ l then 1 else 0) := by
  induction l with
  | nil => simp
  | cons a l ih =>
    rw [List.pairwise_cons] at hl
    rw [List.countP_cons, List.countP_cons, ih hl.2]
    by_cases h : a = x + 1
    · have : x + 1 ∉ l := fun hm => by
        have := hl.1 _ hm
        omega
      subst h
      simp [this]
    · by_cases h2 : a ≤ x
      · simp only [h2, show a ≤ x + 1 by omega, List.mem_cons, show x + 1 ≠ a by omega, decide_true, false_or]
        split <;> simp
      · simp [h2, show ¬ a ≤ x + 1 by omega, show x + 1 ≠ a by omega]

/-- The level one sample on. -/
theorem levelAt_succ {c : Cfg} {tl : Timeline} (h : TimelineLegal c tl) (x : Nat) :
    levelAt tl (x + 1) = if x + 1 ∈ tl.edges then otherLevel (levelAt tl x) else levelAt tl x := by
  unfold levelAt
  rw [countP_edges_succ (edges_rise h)]
  generalize tl.edges.countP (fun e => decide (e ≤ x)) = k
  by_cases hm : x + 1 ∈ tl.edges <;> simp only [hm, if_true, if_false] <;>
    rcases Nat.mod_two_eq_zero_or_one k with h | h <;> simp [h, Nat.add_mod]

/-- The level stays while no edge comes. -/
theorem levelAt_quiet {c : Cfg} {tl : Timeline} (h : TimelineLegal c tl) {a b : Nat} (hab : a ≤ b)
    (hq : QuietBetween tl a b) : levelAt tl b = levelAt tl a := by
  induction b with
  | zero => rw [Nat.le_zero.1 hab]
  | succ b ih =>
    rcases Nat.eq_or_lt_of_le hab with h1 | h1
    · rw [h1]
    · rw [levelAt_succ h, if_neg (fun hm => hq _ hm ⟨by omega, le_refl _⟩)]
      exact ih (by omega) (fun e he hh => hq e he ⟨hh.1, by omega⟩)

/-- The level at the next edge is the other level. -/
theorem levelAt_next {c : Cfg} {tl : Timeline} (h : TimelineLegal c tl) {a e : Nat} (he : FirstEdgeAfter tl a e) :
    levelAt tl e = otherLevel (levelAt tl a) := by
  obtain ⟨hm, hlt, hmin⟩ := he
  obtain ⟨k, rfl⟩ : ∃ k, e = k + 1 := ⟨e - 1, by omega⟩
  rw [levelAt_succ h, if_pos hm, levelAt_quiet h (show a ≤ k by omega)]
  intro x hx hh
  have := hmin x hx hh.1
  omega

/-- Before a later edge the next edge is found. -/
theorem edgeAfter_of_mem {c : Cfg} {tl : Timeline} (h : TimelineLegal c tl) {a e : Nat} (hm : e ∈ tl.edges)
    (hl : a < e) : ∃ x, edgeAfter tl a = some x ∧ FirstEdgeAfter tl a x ∧ x ≤ e := by
  cases hx : edgeAfter tl a with
  | none =>
    have := edgeAfter_none.1 hx e hm
    omega
  | some x =>
    have hf := (edgeAfter_eq_some_iff h).1 hx
    exact ⟨x, rfl, hf, hf.2.2 e hm hl⟩

/-- Before a later falling edge there is a first one. -/
theorem firstFall_of_mem {tl : Timeline} {x a : Nat} (hm : a ∈ tl.edges) (hx : x < a) (hlow : levelAt tl a = .low) :
    ∃ b, FirstFallAfter tl x b ∧ b ≤ a := by
  induction a using Nat.strong_induction_on with
  | _ a ih =>
    by_cases hmin : ∀ y ∈ tl.edges, x < y → levelAt tl y = .low → a ≤ y
    · exact ⟨a, ⟨hm, hx, hlow, hmin⟩, le_refl _⟩
    · simp only [not_forall, not_le] at hmin
      obtain ⟨y, h1, h2, h3, h4⟩ := hmin
      obtain ⟨b, hb, hle⟩ := ih y h4 h1 h2 h3
      exact ⟨b, hb, hle.trans h4.le⟩

/-- A new bit of the shift register enters at the top and the others move down (R118). -/
theorem shiftIn_bit : ∀ (sr : Byte) (l : Level), ∀ i < 8,
    (shiftIn sr l).getLsbD i = if i = 7 then decide (l = .high) else sr.getLsbD (i + 1) := by
  intro sr l
  revert sr
  cases l <;> decide

/-- Sampling within the timeline: the last eight levels sampled, the oldest in bit 0 (R112, R118). -/
theorem sampleBits_of_le {c : Cfg} {tl : Timeline} (ht : TimelineLegal c tl) (count h : Nat) (p : Pass)
    (hp : p.pos ≤ p.anchor + off c h)
    (hl : count ≠ 0 → p.anchor + off c (h + 2 * (count - 1)) ≤ tl.lastSample) :
    ∃ q, sampleBits c tl count h p = .ok () q ∧ q = { p with pos := q.pos, sr := q.sr } ∧
      q.pos = (if count = 0 then p.pos else p.anchor + off c (h + 2 * (count - 1))) ∧
      ∀ i < 8, q.sr.getLsbD i =
        if i + count < 8 then p.sr.getLsbD (i + count)
        else decide (levelAt tl (p.anchor + off c (h + 2 * (i + count - 8))) = .high) := by
  induction count generalizing h p with
  | zero => exact ⟨p, rfl, rfl, rfl, fun i hi => by simp [hi]⟩
  | succ count ih =>
    have hle : p.anchor + off c h ≤ tl.lastSample := by
      have h1 := off_mono c (show h ≤ h + 2 * (count + 1 - 1) by omega)
      have h2 := hl (by omega)
      omega
    unfold sampleBits
    rw [advanceTo_of_le ht hp hle, andThen_ok]
    obtain ⟨q, h1, h2, h3, h4⟩ :=
      ih (h + 2) { p with pos := p.anchor + off c h, sr := shiftIn p.sr (levelAt tl (p.anchor + off c h)) }
        (Nat.add_le_add_left (off_mono c (by omega)) _)
        (fun h0 => by
          have := hl (by omega)
          rwa [show h + 2 * (count + 1 - 1) = h + 2 + 2 * (count - 1) by omega] at this)
    refine ⟨q, h1, by rw [h2], ?_, fun i hi => ?_⟩
    · rw [h3]
      simp only [Nat.add_eq_zero_iff, one_ne_zero, and_false, if_false, Nat.add_sub_cancel]
      split
      · next h0 => rw [h0]; rfl
      · rw [show h + 2 + 2 * (count - 1) = h + 2 * count by omega]
    · rw [h4 i hi]
      by_cases hx : i + count < 8
      · rw [if_pos hx]
        dsimp only
        rw [shiftIn_bit _ _ _ hx]
        by_cases h7 : i + count = 7
        · simp [h7, show ¬ i + (count + 1) < 8 by omega, show i + (count + 1) - 8 = 0 by omega]
        · simp [h7, show i + (count + 1) < 8 by omega, Nat.add_assoc]
      · rw [if_neg hx, if_neg (by omega)]
        dsimp only
        rw [show h + 2 + 2 * (i + count - 8) = h + 2 * (i + (count + 1) - 8) by omega]

end Sys2Proof.Laws
end

