-- ==== Sys2Proof/Laws/Exhaustion.lean ====
section
/-! SUPPORT. Where a row of requests runs out of timeline: for each primitive and for the parts of the decode procedures,
when the row that begins with it raises `Exhausted`, and at which cursor (R64 to R68, R73, R115 to R118, R232). -/

namespace Sys2Proof.Laws

open Sys2Proof Sys2Proof.Machine Sys2Proof.Safety

variable {c : Cfg} {tl : Timeline} {p : Pass} {q : Nat} {β : Type}

/-- A row runs out in its first request, or after it. -/
theorem andThen_eq_exhausted {α : Type} {r : Read α} {f : α → Pass → Read β} :
    andThen r f = .exhausted q ↔ r = .exhausted q ∨ ∃ v p, r = .ok v p ∧ f v p = .exhausted q := by
  cases r <;> simp

/-- A row of three requests is the row of the first and the other two. -/
theorem andThen_assoc {α γ : Type} (r : Read α) (f : α → Pass → Read β) (g : β → Pass → Read γ) :
    andThen (andThen r f) g = andThen r fun v p => andThen (f v p) g := by
  cases r <;> rfl

/-- A request for an edge there is not runs out on a `FINITE` timeline only, at the cursor (R65, R66). -/
theorem noEdge_exhausted_iff : (noEdge c p : Read β) = .exhausted q ↔ c.timelineKind = .finite ∧ q = p.pos := by
  unfold noEdge
  cases c.timelineKind <;> simp [eq_comm]

/-- It is never answered. -/
theorem noEdge_ne_ok {v : β} {r : Pass} : (noEdge c p : Read β) ≠ .ok v r := by
  unfold noEdge
  cases c.timelineKind <;> simp

/-! ### The primitives -/

/-- A move to a point runs out where the point is out of reach, with the cursor unmoved (R64, R68). -/
theorem advanceTo_exhausted_iff (ht : TimelineLegal c tl) {t : Nat} (hp : p.pos ≤ t) {f : Unit → Pass → Read β} :
    andThen (advanceTo c tl t p) f = .exhausted q ↔
      (OutOfReach c tl t ∧ q = p.pos) ∨ (t ≤ tl.lastSample ∧ f () { p with pos := t } = .exhausted q) := by
  have hmax := last_le_max ht
  unfold maxSample at hmax
  unfold advanceTo tlAdvance maxSample OutOfReach
  rw [if_neg (by omega), show p.pos + (t - p.pos) = t by omega]
  by_cases h1 : c.timelineKind = .finite ∧ tl.lastSample < t
  · simp [h1, show ¬ t ≤ tl.lastSample by omega, eq_comm]
  · rw [if_neg h1]
    by_cases h2 : 2 ^ c.sampleW - 1 < t
    · simp [h2, show ¬ t ≤ tl.lastSample by omega, eq_comm]
    · rw [if_neg h2]
      by_cases h3 : tl.lastSample < t
      · rw [if_pos h3]
        simp [h1, h2, show ¬ t ≤ tl.lastSample by omega]
      · rw [if_neg h3]
        simp [h1, h2, show t ≤ tl.lastSample by omega]

/-- A move to the next edge runs out where there is none (R65). -/
theorem tlAdvanceToNextEdge_exhausted_iff (ht : TimelineLegal c tl) {f : Unit → Pass → Read β} :
    andThen (tlAdvanceToNextEdge c tl p) f = .exhausted q ↔
      (c.timelineKind = .finite ∧ (∀ e ∈ tl.edges, e ≤ p.pos) ∧ q = p.pos) ∨
      ∃ e, FirstEdgeAfter tl p.pos e ∧ f () { p with pos := e } = .exhausted q := by
  unfold tlAdvanceToNextEdge
  simp only [← edgeAfter_eq_some_iff ht, ← edgeAfter_none]
  cases h : edgeAfter tl p.pos with
  | some e => simp
  | none => simp [andThen_eq_exhausted, noEdge_exhausted_iff, noEdge_ne_ok]

/-- The distance to the next edge runs out where there is none (R66). -/
theorem tlNextEdge_exhausted_iff (ht : TimelineLegal c tl) {f : Nat → Pass → Read β} :
    andThen (tlNextEdge c tl p) f = .exhausted q ↔
      (c.timelineKind = .finite ∧ (∀ e ∈ tl.edges, e ≤ p.pos) ∧ q = p.pos) ∨
      ∃ e, FirstEdgeAfter tl p.pos e ∧ f e p = .exhausted q := by
  unfold tlNextEdge
  simp only [← edgeAfter_eq_some_iff ht, ← edgeAfter_none]
  cases h : edgeAfter tl p.pos with
  | some e => simp
  | none => simp [andThen_eq_exhausted, noEdge_exhausted_iff, noEdge_ne_ok]

/-- A probe runs out where its window has no edge and is not reached to its end (R67). -/
theorem tlWouldTransitionWithin_exhausted_iff {count : Nat} {f : Bool → Pass → Read β} :
    andThen (tlWouldTransitionWithin c tl count p) f = .exhausted q ↔
      (QuietBetween tl p.pos (p.pos + count) ∧
        ((c.timelineKind = .finite ∧ tl.lastSample < p.pos + count ∧ q = p.pos) ∨
          (p.pos + count ≤ tl.lastSample ∧ f false p = .exhausted q))) ∨
      (¬ QuietBetween tl p.pos (p.pos + count) ∧ f true p = .exhausted q) := by
  have hq : (tl.edges.any fun e => decide (p.pos < e ∧ e ≤ p.pos + count)) = true ↔
      ¬ QuietBetween tl p.pos (p.pos + count) := by
    simp [QuietBetween, List.any_eq_true]
  unfold tlWouldTransitionWithin
  generalize QuietBetween tl p.pos (p.pos + count) = quiet at hq ⊢
  by_cases h : quiet
  · rw [if_neg (fun h1 => hq.1 h1 h)]
    by_cases h2 : tl.lastSample < p.pos + count
    · rw [if_pos h2]
      cases h3 : c.timelineKind <;> simp [h, h2, eq_comm]
    · rw [if_neg h2]
      simp [h, h2, show p.pos + count ≤ tl.lastSample by omega]
  · rw [if_pos (hq.2 h)]
    simp [h]

/-! ### The parts of the decode procedures -/

/-- The edges run out after an edge as they do before it. -/
theorem edgesRunOut_iff {a b : Nat} (hab : a < b) (hb : b ∈ tl.edges) : EdgesRunOut tl a q ↔ EdgesRunOut tl b q := by
  unfold EdgesRunOut
  constructor
  · rintro ⟨h1, h2⟩
    have h3 := h1 b hb
    refine ⟨h1, ?_⟩
    rcases h2 with rfl | ⟨_, h2⟩
    · omega
    · rcases Nat.eq_or_lt_of_le h3 with h3 | h3
      · exact .inl h3.symm
      · exact .inr ⟨h3, h2⟩
  · rintro ⟨h1, rfl | ⟨h2, h3⟩⟩
    · exact ⟨h1, .inr ⟨hab, hb⟩⟩
    · exact ⟨h1, .inr ⟨hab.trans h2, h3⟩⟩

/-- With no edge left they run out at once. -/
theorem edgesRunOut_of_none {a : Nat} (h : ∀ e ∈ tl.edges, e ≤ a) : EdgesRunOut tl a q ↔ q = a := by
  unfold EdgesRunOut
  constructor
  · rintro ⟨_, rfl | ⟨h2, h3⟩⟩
    · rfl
    · have := h q h3
      omega
  · rintro rfl
    exact ⟨h, .inl rfl⟩

/-- The first falling edge is one. -/
theorem firstFall_unique {x a b : Nat} (ha : FirstFallAfter tl x a) (hb : FirstFallAfter tl x b) : a = b :=
  le_antisymm (ha.2.2.2 b hb.1 hb.2.1 hb.2.2.1) (hb.2.2.2 a ha.1 ha.2.1 ha.2.2.1)

/-- The first edge is one. -/
theorem firstEdge_unique {x a b : Nat} (ha : FirstEdgeAfter tl x a) (hb : FirstEdgeAfter tl x b) : a = b :=
  le_antisymm (ha.2.2 b hb.1 hb.2.1) (hb.2.2 a ha.1 ha.2.1)

/-- `WaitFalling` runs out where no falling edge is after the cursor, once the edges are used up (R115). -/
theorem waitFalling_exhausted_iff (ht : TimelineLegal c tl) {f : Unit → Pass → Read β} :
    andThen (waitFalling c tl p) f = .exhausted q ↔
      (c.timelineKind = .finite ∧ EdgesRunOut tl p.pos q ∧
        ∀ a ∈ tl.edges, p.pos < a → levelAt tl a ≠ .low) ∨
      ∃ a, FirstFallAfter tl p.pos a ∧ f () { p with pos := a } = .exhausted q := by
  unfold waitFalling
  rw [andThen_assoc, tlAdvanceToNextEdge_exhausted_iff ht]
  by_cases h0 : ∀ e ∈ tl.edges, e ≤ p.pos
  · have h1 : ∀ e, ¬ FirstEdgeAfter tl p.pos e := fun e he => by
      have := h0 e he.1
      have := he.2.1
      omega
    have h2 : ∀ a, ¬ FirstFallAfter tl p.pos a := fun a ha => by
      have := h0 a ha.1
      have := ha.2.1
      omega
    have h3 : ∀ a ∈ tl.edges, p.pos < a → levelAt tl a ≠ .low := fun a ha hl => by
      have := h0 a ha
      omega
    simp only [h1, h2, false_and, exists_false, or_false, edgesRunOut_of_none h0]
    exact ⟨fun h => ⟨h.1, h.2.2, h3⟩, fun h => ⟨h.1, h0, h.2.1⟩⟩
  · obtain ⟨b, hb⟩ : ∃ b, FirstEdgeAfter tl p.pos b := by
      simp only [not_forall, not_le] at h0
      obtain ⟨e, he, hl⟩ := h0
      obtain ⟨x, _, hx, _⟩ := edgeAfter_of_mem ht he hl
      exact ⟨x, hx⟩
    have h1 : ∀ e, FirstEdgeAfter tl p.pos e ↔ e = b := fun e => ⟨fun he => firstEdge_unique he hb, fun h => h ▸ hb⟩
    simp only [h0, false_and, and_false, false_or, h1, exists_eq_left]
    by_cases hlev : levelAt tl b = .high
    · have hfall : ∀ a, FirstFallAfter tl p.pos a ↔ FirstEdgeAfter tl b a := by
        intro a
        constructor
        · rintro ⟨k1, k2, k3, k4⟩
          have hba : b < a := by
            rcases Nat.eq_or_lt_of_le (hb.2.2 a k1 k2) with h | h
            · rw [← h, hlev] at k3
              cases k3
            · exact h
          obtain ⟨x, _, hx, hle⟩ := edgeAfter_of_mem ht k1 hba
          have hxl := levelAt_next ht hx
          rw [hlev] at hxl
          have := k4 x hx.1 (hb.2.1.trans hx.2.1) hxl
          rwa [le_antisymm this hle]
        · intro hx
          have hxl := levelAt_next ht hx
          rw [hlev] at hxl
          refine ⟨hx.1, hb.2.1.trans hx.2.1, hxl, fun y hy hpy hyl => ?_⟩
          rcases Nat.eq_or_lt_of_le (hb.2.2 y hy hpy) with h | h
          · rw [← h, hlev] at hyl
            cases hyl
          · exact hx.2.2 y hy h
      have hnone : (∀ e ∈ tl.edges, e ≤ b) ↔ ∀ a ∈ tl.edges, p.pos < a → levelAt tl a ≠ .low := by
        constructor
        · intro h a ha hpa hlow
          rw [le_antisymm (h a ha) (hb.2.2 a ha hpa), hlev] at hlow
          cases hlow
        · intro h e he
          by_contra hlt
          obtain ⟨x, _, hx, _⟩ := edgeAfter_of_mem ht he (not_le.1 hlt)
          have hxl := levelAt_next ht hx
          rw [hlev] at hxl
          exact h x hx.1 (hb.2.1.trans hx.2.1) hxl
      have htl : tlLevel tl { p with pos := b } = .high := hlev
      rw [if_pos htl, tlAdvanceToNextEdge_exhausted_iff ht]
      simp only [hfall, hnone]
      refine or_congr (and_congr_right fun _ => ?_) Iff.rfl
      rw [and_comm]
      refine and_congr_left fun hn => ?_
      rw [edgesRunOut_iff hb.2.1 hb.1, edgesRunOut_of_none (hnone.2 hn)]
    · have hlow := eq_low_of_ne_high hlev
      have htl : ¬ tlLevel tl { p with pos := b } = .high := hlev
      have hfb : FirstFallAfter tl p.pos b := ⟨hb.1, hb.2.1, hlow, fun y hy hpy _ => hb.2.2 y hy hpy⟩
      have hfall : ∀ a, FirstFallAfter tl p.pos a ↔ a = b := fun a =>
        ⟨fun h => firstFall_unique h hfb, fun h => h ▸ hfb⟩
      have hnot : ¬ ∀ a ∈ tl.edges, p.pos < a → levelAt tl a ≠ .low := fun h => h b hb.1 hb.2.1 hlow
      rw [if_neg htl]
      simp only [andThen_ok, hnot, and_false, false_or, hfall, exists_eq_left]

/-- Of `count` points from the half-bit `h` on, two half-bits apart, one is the first out of reach, and `q` is the point
before it, or `x` where it is the first (R64, R112). -/
def PointsRunOut (c : Cfg) (tl : Timeline) (a h count x q : Nat) : Prop :=
  ∃ k < count, OutOfReach c tl (a + off c (h + 2 * k)) ∧ (∀ j < k, a + off c (h + 2 * j) ≤ tl.lastSample) ∧
    q = if k = 0 then x else a + off c (h + 2 * (k - 1))

/-- The bit centres are the points from the first half-bit on. -/
theorem pointsRunOut_centres {a count : Nat} : PointsRunOut c tl a 1 count a q ↔ CentresRunOut c tl a count q := by
  unfold PointsRunOut CentresRunOut
  simp only [Nat.add_comm 1]

/-- Points run out at the first of them or after it. -/
theorem pointsRunOut_succ {a h count x : Nat} :
    PointsRunOut c tl a h (count + 1) x q ↔
      (OutOfReach c tl (a + off c h) ∧ q = x) ∨
      (a + off c h ≤ tl.lastSample ∧ PointsRunOut c tl a (h + 2) count (a + off c h) q) := by
  unfold PointsRunOut
  constructor
  · rintro ⟨k, hk, h1, h2, h3⟩
    cases k with
    | zero => exact .inl ⟨h1, h3⟩
    | succ k =>
      refine .inr ⟨h2 0 (by omega), k, by omega, ?_, fun j hj => ?_, ?_⟩
      · rwa [show h + 2 * (k + 1) = h + 2 + 2 * k by omega] at h1
      · have := h2 (j + 1) (by omega)
        rwa [show h + 2 * (j + 1) = h + 2 + 2 * j by omega] at this
      · rw [h3, if_neg (show ¬ k + 1 = 0 by omega)]
        split
        · next h0 => simp [h0]
        · rw [show h + 2 * (k + 1 - 1) = h + 2 + 2 * (k - 1) by omega]
  · rintro (⟨h1, h2⟩ | ⟨h1, k, hk, h2, h3, h4⟩)
    · exact ⟨0, by omega, h1, by simp, h2⟩
    · refine ⟨k + 1, by omega, ?_, fun j hj => ?_, ?_⟩
      · rwa [show h + 2 * (k + 1) = h + 2 + 2 * k by omega]
      · cases j with
        | zero => exact h1
        | succ j =>
          rw [show h + 2 * (j + 1) = h + 2 + 2 * j by omega]
          exact h3 j (by omega)
      · rw [h4, if_neg (show ¬ k + 1 = 0 by omega)]
        split
        · next h0 => simp [h0]
        · rw [show h + 2 * (k + 1 - 1) = h + 2 + 2 * (k - 1) by omega]

/-- Sampling `count` points and moving to the one after them runs out at one of the `count + 1`, or later (R112, R116,
R117). -/
theorem sampleBits_exhausted_iff (ht : TimelineLegal c tl) {X : Prop} {f : Unit → Pass → Read β} (count h : Nat)
    (hp : p.pos ≤ p.anchor + off c h)
    (hf : ∀ r : Pass, r.anchor = p.anchor → r.pos = p.anchor + off c (h + 2 * count) → r.pos ≤ tl.lastSample →
      (f () r = .exhausted q ↔ X)) :
    andThen (sampleBits c tl count h p)
        (fun _ r => andThen (advanceTo c tl (r.anchor + off c (h + 2 * count)) r) f) = .exhausted q ↔
      PointsRunOut c tl p.anchor h (count + 1) p.pos q ∨
      (p.anchor + off c (h + 2 * count) ≤ tl.lastSample ∧ X) := by
  induction count generalizing h p with
  | zero =>
    have hx := hf { p with pos := p.anchor + off c h } rfl rfl
    simp only [sampleBits, andThen_ok, Nat.mul_zero, Nat.add_zero] at hx ⊢
    rw [advanceTo_exhausted_iff ht hp, and_congr_right hx, pointsRunOut_succ]
    simp [PointsRunOut]
  | succ count ih =>
    unfold sampleBits
    rw [andThen_assoc, advanceTo_exhausted_iff ht hp]
    have hs : h + 2 * (count + 1) = h + 2 + 2 * count := by omega
    have key := ih (h := h + 2) (p := { p with
      pos := p.anchor + off c h, sr := shiftIn p.sr (tlLevel tl { p with pos := p.anchor + off c h }) })
      (Nat.add_le_add_left (off_mono c (by omega)) _)
      (fun r h1 h2 h3 => hf r h1 (by rw [h2, hs]) h3)
    simp only [hs] at key ⊢
    rw [key, pointsRunOut_succ (count := count + 1)]
    have hmono := off_mono c (show h ≤ h + 2 + 2 * count by omega)
    constructor
    · rintro (h1 | ⟨h1, h2 | h2⟩)
      · exact .inl (.inl h1)
      · exact .inl (.inr ⟨h1, h2⟩)
      · exact .inr h2
    · rintro ((h1 | ⟨h1, h2⟩) | h2)
      · exact .inl h1
      · exact .inr ⟨h1, .inl h2⟩
      · exact .inr ⟨by omega, .inr h2⟩

/-- Fewer edges lie after a later edge. -/
theorem countP_after_lt {l : List Nat} {a b : Nat} (hb : b ∈ l) (hab : a < b) :
    l.countP (fun x => decide (b < x)) < l.countP (fun x => decide (a < x)) := by
  induction l with
  | nil => cases hb
  | cons z l ih =>
    have hle : l.countP (fun x => decide (b < x)) ≤ l.countP (fun x => decide (a < x)) :=
      List.countP_mono_left fun x _ hx => by
        simp only [decide_eq_true_eq] at hx ⊢
        omega
    simp only [List.countP_cons, decide_eq_true_eq]
    rcases List.mem_cons.1 hb with rfl | hz
    · simp only [lt_irrefl, if_false, if_pos hab]
      omega
    · have := ih hz
      split <;> split <;> omega

/-- `BreakDecode`'s loop, with a turn for each edge after the cursor, runs out where each low run that ends is too short,
once the edges are used up; and ends on the first that is long enough (R116). -/
theorem seekBreak_exhausted_iff (ht : TimelineLegal c tl) {f : Unit → Pass → Read β} (turns : Nat)
    (hturns : tl.edges.countP (fun x => decide (p.pos < x)) ≤ turns) :
    andThen (seekBreak c tl turns p) f = .exhausted q ↔
      (c.timelineKind = .finite ∧ EdgesRunOut tl p.pos q ∧
        ∀ a ∈ tl.edges, p.pos < a → levelAt tl a = .low → ∀ e, FirstEdgeAfter tl a e →
          nbits c (e - a) < c.breakMinBits) ∨
      ∃ a e, (a ∈ tl.edges ∧ p.pos < a ∧ levelAt tl a = .low ∧ FirstEdgeAfter tl a e ∧
        c.breakMinBits ≤ nbits c (e - a) ∧
        ∀ a' ∈ tl.edges, p.pos < a' → a' < a → levelAt tl a' = .low → ∀ e', FirstEdgeAfter tl a' e' →
          nbits c (e' - a') < c.breakMinBits) ∧
        f () { p with pos := a, anchor := a, n := nbits c (e - a) } = .exhausted q := by
  induction turns generalizing p with
  | zero =>
    have h0 : ∀ e ∈ tl.edges, e ≤ p.pos := by
      have := List.countP_eq_zero.1 (Nat.le_zero.1 hturns)
      simpa using this
    unfold seekBreak
    rw [andThen_eq_exhausted, noEdge_exhausted_iff, edgesRunOut_of_none h0]
    constructor
    · rintro (⟨h1, h2⟩ | ⟨_, _, h, _⟩)
      · exact .inl ⟨h1, h2, fun a ha hl => absurd (h0 a ha) (by omega)⟩
      · exact absurd h noEdge_ne_ok
    · rintro (⟨h1, h2, _⟩ | ⟨a, e, ⟨ha, hl, _⟩, _⟩)
      · exact .inl ⟨h1, h2⟩
      · exact absurd (h0 a ha) (by omega)
  | succ turns ih =>
    unfold seekBreak measureLowRun
    rw [andThen_assoc, andThen_assoc, waitFalling_exhausted_iff ht]
    by_cases hany : ∃ b, FirstFallAfter tl p.pos b
    · obtain ⟨b, hb⟩ := hany
      have h1 : ∀ a, FirstFallAfter tl p.pos a ↔ a = b := fun a =>
        ⟨fun h => firstFall_unique h hb, fun h => h ▸ hb⟩
      have hnot : ¬ ∀ a ∈ tl.edges, p.pos < a → levelAt tl a ≠ .low := fun h => h b hb.1 hb.2.1 hb.2.2.1
      simp only [h1, exists_eq_left, hnot, and_false, false_or, andThen_assoc]
      rw [tlNextEdge_exhausted_iff ht, edgesRunOut_iff hb.2.1 hb.1]
      dsimp only [andThen_ok]
      by_cases hend : ∀ e ∈ tl.edges, e ≤ b
      · have hn : ∀ e, ¬ FirstEdgeAfter tl b e := fun e he => absurd (hend e he.1) (by have := he.2.1; omega)
        have honly : ∀ a ∈ tl.edges, p.pos < a → levelAt tl a = .low → a = b := fun a ha hl hlow =>
          le_antisymm (hend a ha) (hb.2.2.2 a ha hl hlow)
        rw [edgesRunOut_of_none hend]
        constructor
        · rintro (⟨h1, _, h2⟩ | ⟨e, he, _⟩)
          · refine .inl ⟨h1, h2, fun a ha hl hlow e he => ?_⟩
            rw [honly a ha hl hlow] at he
            exact absurd he (hn e)
          · exact absurd he (hn e)
        · rintro (⟨h1, h2, _⟩ | ⟨a, e, ⟨ha, hl, hlow, he, _⟩, _⟩)
          · exact .inl ⟨h1, hend, h2⟩
          · rw [honly a ha hl hlow] at he
            exact absurd he (hn e)
      · obtain ⟨e, he⟩ : ∃ e, FirstEdgeAfter tl b e := by
          simp only [not_forall, not_le] at hend
          obtain ⟨e, he, hl⟩ := hend
          obtain ⟨x, _, hx, _⟩ := edgeAfter_of_mem ht he hl
          exact ⟨x, hx⟩
        have h2 : ∀ x, FirstEdgeAfter tl b x ↔ x = e := fun x => ⟨fun h => firstEdge_unique h he, fun h => h ▸ he⟩
        simp only [hend, false_and, and_false, false_or, h2, exists_eq_left]
        by_cases hmin : c.breakMinBits ≤ nbits c (e - b)
        · rw [if_pos hmin]
          simp only [andThen_ok]
          constructor
          · intro h
            refine .inr ⟨b, e, ⟨hb.1, hb.2.1, hb.2.2.1, he, hmin, fun a' ha' hl hlt hlow => ?_⟩, h⟩
            exact absurd (hb.2.2.2 a' ha' hl hlow) (by omega)
          · rintro (⟨_, _, h⟩ | ⟨a, e', ⟨ha, hl, hlow, he', _, hskip⟩, h⟩)
            · exact absurd (h b hb.1 hb.2.1 hb.2.2.1 e he) (by omega)
            · have hab : a = b := by
                rcases Nat.eq_or_lt_of_le (hb.2.2.2 a ha hl hlow) with h | h
                · exact h.symm
                · exact absurd (hskip b hb.1 hb.2.1 h hb.2.2.1 e he) (by omega)
              subst hab
              rwa [firstEdge_unique he' he] at h
        · rw [if_neg hmin]
          have hcount := countP_after_lt hb.1 hb.2.1
          rw [ih (p := { p with pos := b, anchor := b, n := nbits c (e - b) }) (by
            show tl.edges.countP (fun x => decide (b < x)) ≤ turns
            omega)]
          dsimp only
          refine or_congr (and_congr_right fun _ => and_congr_right fun _ => ?_) ?_
          · constructor
            · intro h a ha hl hlow e' he'
              rcases Nat.eq_or_lt_of_le (hb.2.2.2 a ha hl hlow) with hab | hab
              · subst hab
                rw [firstEdge_unique he' he]
                omega
              · exact h a ha hab hlow e' he'
            · exact fun h a ha hl => h a ha (hb.2.1.trans hl)
          · refine exists_congr fun a => exists_congr fun e' => and_congr_left fun _ => ?_
            constructor
            · rintro ⟨ha, hl, hlow, he', hm, hskip⟩
              refine ⟨ha, hb.2.1.trans hl, hlow, he', hm, fun a' ha' hl' hlt hlow' e'' he'' => ?_⟩
              rcases Nat.eq_or_lt_of_le (hb.2.2.2 a' ha' hl' hlow') with hab | hab
              · subst hab
                rw [firstEdge_unique he'' he]
                omega
              · exact hskip a' ha' hab hlt hlow' e'' he''
            · rintro ⟨ha, hl, hlow, he', hm, hskip⟩
              have hba : b < a := by
                rcases Nat.eq_or_lt_of_le (hb.2.2.2 a ha hl hlow) with hab | hab
                · subst hab
                  rw [firstEdge_unique he' he] at hm
                  exact absurd hm hmin
                · exact hab
              exact ⟨ha, hba, hlow, he', hm, fun a' ha' hl' => hskip a' ha' (hb.2.1.trans hl')⟩
    · have h1 : ∀ a ∈ tl.edges, p.pos < a → levelAt tl a ≠ .low := fun a ha hl hlow => by
        obtain ⟨b, hb, _⟩ := firstFall_of_mem ha hl hlow
        exact hany ⟨b, hb⟩
      constructor
      · rintro (⟨h2, h3, _⟩ | ⟨a, ha, _⟩)
        · exact .inl ⟨h2, h3, fun a ha hl hlow => absurd hlow (h1 a ha hl)⟩
        · exact absurd ⟨a, ha⟩ hany
      · rintro (⟨h2, h3, _⟩ | ⟨a, e, ⟨ha, hl, hlow, _⟩, _⟩)
        · exact .inl ⟨h2, h3, h1⟩
        · exact absurd hlow (h1 a ha hl)

end Sys2Proof.Laws
end

