-- ==== Sys2Proof/Laws/Growing.lean ====
section
/-! SUPPORT. A timeline that grows: a request that was answered before a delivery is answered the same after it
(R69, R261). -/

namespace Sys2Proof.Laws

open Sys2Proof Sys2Proof.Machine Sys2Proof.Safety

/-- A legal timeline and a legal delivery to it. -/
structure Grows (c : Cfg) (tl : Timeline) (x : Supply) : Prop where
  legal : TimelineLegal c tl
  supply : SupplyLegal c tl x

/-- The request `r'` of the longer timeline ends as `r` did, unless `r` was suspended; an answer leaves the cursor
within the shorter timeline. -/
def Keeps {α : Type} (tl : Timeline) (r r' : Read α) : Prop :=
  match r with
  | .ok v p => r' = .ok v p ∧ p.pos ≤ tl.lastSample
  | .exhausted q => r' = .exhausted q
  | .suspended => True
  | .backward => r' = .backward

variable {c : Cfg} {tl : Timeline} {x : Supply}

/-- A supplied sample keeps its level. -/
theorem levelAt_extend (h : Grows c tl x) {s : Nat} (hs : s ≤ tl.lastSample) :
    levelAt (extendTimeline tl x) s = levelAt tl s := by
  unfold levelAt extendTimeline
  have : x.edges.countP (fun e => decide (e ≤ s)) = 0 := by
    simp only [List.countP_eq_zero, decide_eq_true_eq]
    intro e he
    have := (h.supply.2.2.2.2 e he).1
    omega
  simp only [List.countP_append, this]
  rfl

theorem tlLevel_extend (h : Grows c tl x) {p : Pass} (hp : p.pos ≤ tl.lastSample) :
    tlLevel (extendTimeline tl x) p = tlLevel tl p := levelAt_extend h hp

/-- An edge found is still the first. -/
theorem edgeAfter_extend {s e : Nat} (he : edgeAfter tl s = some e) : edgeAfter (extendTimeline tl x) s = some e := by
  unfold edgeAfter extendTimeline at *
  simp [List.find?_append, he]

theorem andThen_keeps {α β : Type} {r r' : Read α} {f f' : α → Pass → Read β} (h : Keeps tl r r')
    (hf : ∀ v p, p.pos ≤ tl.lastSample → Keeps tl (f v p) (f' v p)) : Keeps tl (andThen r f) (andThen r' f') := by
  cases r with
  | ok v p =>
    obtain ⟨rfl, hp⟩ := h
    exact hf v p hp
  | exhausted q => cases h; exact rfl
  | suspended => trivial
  | backward => cases h; exact rfl

theorem tlAdvanceToNextEdge_keeps (h : Grows c tl x) (p : Pass) :
    Keeps tl (tlAdvanceToNextEdge c tl p) (tlAdvanceToNextEdge c (extendTimeline tl x) p) := by
  unfold tlAdvanceToNextEdge
  cases he : edgeAfter tl p.pos with
  | some e =>
    rw [edgeAfter_extend he]
    exact ⟨rfl, edge_le_last h.legal (edgeAfter_some he).1⟩
  | none =>
    simp only [noEdge]
    rw [h.supply.1]
    trivial

theorem waitFalling_keeps (h : Grows c tl x) (p : Pass) :
    Keeps tl (waitFalling c tl p) (waitFalling c (extendTimeline tl x) p) := by
  unfold waitFalling
  refine andThen_keeps (tlAdvanceToNextEdge_keeps h p) fun _ p hp => ?_
  rw [tlLevel_extend h hp]
  split
  · exact tlAdvanceToNextEdge_keeps h p
  · exact ⟨rfl, hp⟩

theorem advanceTo_keeps (h : Grows c tl x) (t : Nat) (p : Pass) :
    Keeps tl (advanceTo c tl t p) (advanceTo c (extendTimeline tl x) t p) := by
  unfold advanceTo tlAdvance
  have hk := h.supply.1
  have hl : (extendTimeline tl x).lastSample = x.upTo := rfl
  have hu := h.supply.2.1
  generalize p.pos + (t - p.pos) = y
  by_cases h1 : t < p.pos
  · rw [if_pos h1, if_pos h1]
    rfl
  rw [if_neg h1, if_neg h1, if_neg (fun hh : c.timelineKind = .finite ∧ tl.lastSample < y => by simp [hk] at hh),
    if_neg (fun hh : c.timelineKind = .finite ∧ (extendTimeline tl x).lastSample < y => by simp [hk] at hh)]
  by_cases h2 : maxSample c < y
  · rw [if_pos h2, if_pos h2]
    rfl
  rw [if_neg h2, if_neg h2]
  by_cases h3 : tl.lastSample < y
  · rw [if_pos h3]
    trivial
  · rw [if_neg h3, if_neg (by omega)]
    exact ⟨rfl, Nat.not_lt.1 h3⟩

theorem tlNextEdge_keeps (h : Grows c tl x) (p : Pass) (hp : p.pos ≤ tl.lastSample) :
    Keeps tl (tlNextEdge c tl p) (tlNextEdge c (extendTimeline tl x) p) := by
  unfold tlNextEdge
  cases he : edgeAfter tl p.pos with
  | some e =>
    rw [edgeAfter_extend he]
    exact ⟨rfl, hp⟩
  | none =>
    simp only [noEdge]
    rw [h.supply.1]
    trivial

theorem tlWouldTransitionWithin_keeps (h : Grows c tl x) (count : Nat) (p : Pass) (hp : p.pos ≤ tl.lastSample) :
    Keeps tl (tlWouldTransitionWithin c tl count p) (tlWouldTransitionWithin c (extendTimeline tl x) count p) := by
  unfold tlWouldTransitionWithin
  have hl : (extendTimeline tl x).lastSample = x.upTo := rfl
  have he : (extendTimeline tl x).edges = tl.edges ++ x.edges := rfl
  have hu := h.supply.2.1
  rw [he, List.any_append, h.supply.1]
  by_cases h1 : tl.edges.any (fun e => decide (p.pos < e ∧ e ≤ p.pos + count)) = true
  · rw [if_pos h1, if_pos (by rw [h1]; rfl)]
    exact ⟨rfl, hp⟩
  rw [if_neg h1]
  by_cases h3 : tl.lastSample < p.pos + count
  · rw [if_pos h3]
    trivial
  · rw [if_neg h3, if_neg, if_neg (by omega)]
    · exact ⟨rfl, hp⟩
    · simp only [List.any_eq_true, decide_eq_true_eq, not_exists, not_and, Bool.or_eq_true, not_or] at h1 ⊢
      refine ⟨h1, fun e hm hpe => ?_⟩
      have := (h.supply.2.2.2.2 e hm).1
      omega

theorem sampleBits_keeps (h : Grows c tl x) (count k : Nat) (p : Pass) (hp : p.pos ≤ tl.lastSample) :
    Keeps tl (sampleBits c tl count k p) (sampleBits c (extendTimeline tl x) count k p) := by
  induction count generalizing k p with
  | zero => exact ⟨rfl, hp⟩
  | succ count ih =>
    unfold sampleBits
    refine andThen_keeps (advanceTo_keeps h _ p) fun _ p hp => ?_
    rw [tlLevel_extend h hp]
    exact ih _ _ hp

theorem measureLowRun_keeps (h : Grows c tl x) (p : Pass) :
    Keeps tl (measureLowRun c tl p) (measureLowRun c (extendTimeline tl x) p) := by
  unfold measureLowRun
  refine andThen_keeps (waitFalling_keeps h p) fun _ p hp => ?_
  exact andThen_keeps (tlNextEdge_keeps h p hp) fun _ p hp => ⟨rfl, hp⟩

theorem seekBreak_keeps (h : Grows c tl x) {k k' : Nat} (hk : k ≤ k') (p : Pass) :
    Keeps tl (seekBreak c tl k p) (seekBreak c (extendTimeline tl x) k' p) := by
  induction k generalizing k' p with
  | zero =>
    unfold seekBreak noEdge
    rw [h.supply.1]
    trivial
  | succ k ih =>
    obtain ⟨k', rfl⟩ : ∃ j, k' = j + 1 := ⟨k' - 1, by omega⟩
    unfold seekBreak
    refine andThen_keeps (measureLowRun_keeps h p) fun _ p hp => ?_
    split
    · exact ⟨rfl, hp⟩
    · exact ih (by omega) p

/-- `BreakDecode` ends the same with more supplied (R116, R261). -/
theorem breakDecode_keeps (h : Grows c tl x) (p : Pass) :
    Keeps tl (breakDecode c tl p) (breakDecode c (extendTimeline tl x) p) := by
  unfold breakDecode
  refine andThen_keeps (seekBreak_keeps h (by simp [extendTimeline]) p) fun _ p hp => ?_
  refine andThen_keeps (sampleBits_keeps h _ _ _ hp) fun _ p hp => ?_
  refine andThen_keeps (advanceTo_keeps h _ p) fun _ p hp => ?_
  rw [tlLevel_extend h hp]
  exact ⟨rfl, hp⟩

/-- `ByteDecode` ends the same with more supplied (R117, R261). -/
theorem byteDecode_keeps (h : Grows c tl x) (p : Pass) :
    Keeps tl (byteDecode c tl p) (byteDecode c (extendTimeline tl x) p) := by
  unfold byteDecode
  refine andThen_keeps (waitFalling_keeps h p) fun _ p hp => ?_
  refine andThen_keeps (advanceTo_keeps h _ _) fun _ p hp => ?_
  refine andThen_keeps (sampleBits_keeps h _ _ _ hp) fun _ p hp => ?_
  refine andThen_keeps (advanceTo_keeps h _ p) fun _ p hp => ?_
  rw [tlLevel_extend h hp]
  split
  · exact ⟨rfl, hp⟩
  · unfold probeBreak
    refine andThen_keeps (tlWouldTransitionWithin_keeps h _ p hp) fun _ p hp => ?_
    split
    · exact ⟨rfl, hp⟩
    · refine andThen_keeps (tlAdvanceToNextEdge_keeps h p) fun _ p hp => ?_
      refine andThen_keeps (tlWouldTransitionWithin_keeps h _ p hp) fun _ p hp => ?_
      split <;> exact ⟨rfl, hp⟩

end Sys2Proof.Laws
end

