-- ==== Sys2Proof/Laws/InState.lean ====
section
/-! SUPPORT. The bit decoder does not read the frame state: `BreakDecode` in another state is `BreakDecode` with that
state in the pass it leaves (R116). `FSM.STEP` leaves `NoFrame` before it decodes (R152), and this lemma relates the two
decodes. -/

namespace Sys2Proof.Laws

open Sys2Proof Sys2Proof.Machine Sys2Proof.Safety

/-- The answer of a request, with `fstate` written in the pass it leaves. -/
def inState {α : Type} (f : FState) : Read α → Read α
  | .ok v p => .ok v { p with fstate := f }
  | .exhausted q => .exhausted q
  | .suspended => .suspended
  | .backward => .backward

theorem andThen_inState {α β : Type} (f : FState) (r : Read α) (k : α → Pass → Read β)
    (hk : ∀ v p, k v { p with fstate := f } = inState f (k v p)) :
    andThen (inState f r) k = inState f (andThen r k) := by
  cases r <;> simp [inState, hk]

theorem tlAdvanceToNextEdge_inState (c : Cfg) (tl : Timeline) (f : FState) (p : Pass) :
    tlAdvanceToNextEdge c tl { p with fstate := f } = inState f (tlAdvanceToNextEdge c tl p) := by
  unfold tlAdvanceToNextEdge noEdge
  cases edgeAfter tl p.pos <;> cases c.timelineKind <;> rfl

theorem waitFalling_inState (c : Cfg) (tl : Timeline) (f : FState) (p : Pass) :
    waitFalling c tl { p with fstate := f } = inState f (waitFalling c tl p) := by
  unfold waitFalling
  rw [tlAdvanceToNextEdge_inState]
  apply andThen_inState
  intro _ p
  have ht : tlLevel tl { p with fstate := f } = tlLevel tl p := rfl
  rw [ht]
  by_cases h : tlLevel tl p = .high
  · rw [if_pos h, if_pos h]
    exact tlAdvanceToNextEdge_inState c tl f p
  · rw [if_neg h, if_neg h]
    rfl

theorem advanceTo_inState (c : Cfg) (tl : Timeline) (t : Nat) (f : FState) (p : Pass) :
    advanceTo c tl t { p with fstate := f } = inState f (advanceTo c tl t p) := by
  unfold advanceTo tlAdvance
  dsimp only
  repeat' split
  all_goals rfl

theorem sampleBits_inState (c : Cfg) (tl : Timeline) (f : FState) (count h : Nat) (p : Pass) :
    sampleBits c tl count h { p with fstate := f } = inState f (sampleBits c tl count h p) := by
  induction count generalizing h p with
  | zero => rfl
  | succ count ih =>
    unfold sampleBits
    rw [advanceTo_inState]
    apply andThen_inState
    intro _ p
    exact ih (h + 2) { p with sr := shiftIn p.sr (tlLevel tl p) }

theorem seekBreak_inState (c : Cfg) (tl : Timeline) (f : FState) (turns : Nat) (p : Pass) :
    seekBreak c tl turns { p with fstate := f } = inState f (seekBreak c tl turns p) := by
  induction turns generalizing p with
  | zero =>
    unfold seekBreak noEdge
    cases c.timelineKind <;> rfl
  | succ turns ih =>
    have hm : measureLowRun c tl { p with fstate := f } = inState f (measureLowRun c tl p) := by
      unfold measureLowRun
      rw [waitFalling_inState]
      apply andThen_inState
      intro _ p
      unfold tlNextEdge noEdge
      cases edgeAfter tl p.pos <;> cases c.timelineKind <;> rfl
    unfold seekBreak
    rw [hm]
    apply andThen_inState
    intro _ p
    dsimp only
    by_cases h : c.breakMinBits ≤ p.n
    · rw [if_pos h, if_pos h]
      rfl
    · rw [if_neg h, if_neg h]
      exact ih p

/-- `BreakDecode` does not read the frame state (R116). -/
theorem breakDecode_inState (c : Cfg) (tl : Timeline) (f : FState) (p : Pass) :
    breakDecode c tl { p with fstate := f } = inState f (breakDecode c tl p) := by
  unfold breakDecode
  rw [seekBreak_inState]
  apply andThen_inState
  intro _ p
  refine Eq.trans (congrArg (andThen · _) (sampleBits_inState c tl f p.n 1 { p with sr := 0#8 })) ?_
  apply andThen_inState
  intro _ p
  refine Eq.trans (congrArg (andThen · _) (advanceTo_inState c tl _ f p)) ?_
  apply andThen_inState
  intro _ p
  rfl

end Sys2Proof.Laws
end

