-- ==== Sys2Proof/Laws/Line.lean ====
section
/-! SUPPORT. The synthesized line as a timeline: what each drive call adds to it, and the level it reads (R201, R207,
R217). -/

namespace Sys2Proof.Laws

open Sys2Proof Sys2Proof.Machine Sys2Proof.Safety

/-- The line in the middle of a command: the edges rise, each lies before the present bit-time, and the level follows
from their number. -/
structure LineLegal (c : Cfg) (y : Synth) : Prop where
  rise : y.edges.Pairwise (fun a b => a < b)
  before : ∀ e ∈ y.edges, e < edgeAt c y.t
  level : y.lvl = if y.edges.length % 2 = 0 then .high else .low

/-- Between commands the line is legal. -/
theorem synthLegal_line {s : State} (h : SynthLegal s) : LineLegal s.cfg s.synth :=
  ⟨h.2.2.2.1, h.2.2.2.2.2, by rw [h.2.2.1, if_pos h.2.2.2.2.1]⟩

/-- Driving at least one bit-time, or the present level, keeps the line legal (R201). -/
theorem drive_legal {c : Cfg} (hc : CfgLegal c) {l : Level} {count : Nat} {y : Synth} (h : LineLegal c y)
    (hn : 1 ≤ count ∨ l = y.lvl) : LineLegal c (drive c l count y) := by
  unfold drive
  by_cases hl : l = y.lvl
  · rw [if_pos hl]
    exact ⟨h.rise, fun e he => (h.before e he).trans_le (edgeAt_mono c (Nat.le_add_right _ _)), h.level⟩
  · rw [if_neg hl]
    have hn : 1 ≤ count := hn.resolve_right hl
    refine ⟨?_, ?_, ?_⟩
    · refine List.pairwise_append.2 ⟨h.rise, List.pairwise_singleton _ _, fun a ha b hb => ?_⟩
      rw [List.mem_singleton.1 hb]
      exact h.before a ha
    · intro e he
      rcases List.mem_append.1 he with he | he
      · exact (h.before e he).trans_le (edgeAt_mono c (Nat.le_add_right _ _))
      · rw [List.mem_singleton.1 he]
        exact edgeAt_lt c hc (show y.t < y.t + count by omega)
    · have h3 := h.level
      show l = if (y.edges ++ [_]).length % 2 = 0 then _ else _
      rw [List.length_append, List.length_singleton]
      rcases Nat.mod_two_eq_zero_or_one y.edges.length with h0 | h0
      · rw [if_pos h0] at h3
        rw [if_neg (by omega)]
        rw [h3] at hl
        exact eq_low_of_ne_high hl
      · rw [if_neg (by omega)] at h3
        rw [if_pos (by omega)]
        rw [h3] at hl
        cases l
        · exact absurd rfl hl
        · rfl

/-- The line reads the driven level during the bit-times driven, whatever later edges follow. -/
theorem drive_level {c : Cfg} (hc : CfgLegal c) {l : Level} {count : Nat} {y u : Synth} (h : LineLegal c y)
    (hn : 1 ≤ count ∨ l = y.lvl) {later : List Nat} (hu : u.edges = (drive c l count y).edges ++ later)
    (hl : ∀ e ∈ later, edgeAt c (y.t + count) ≤ e) {x : Nat} (h1 : edgeAt c y.t ≤ x)
    (h2 : x < edgeAt c (y.t + count)) : levelAt (synthTimeline c u) x = l := by
  have hlevel := (drive_legal hc h hn).level
  rw [drive_lvl] at hlevel
  have k1 : (drive c l count y).edges.countP (fun e => decide (e ≤ x)) = (drive c l count y).edges.length := by
    rw [List.countP_eq_length]
    intro e he
    rw [drive_edges] at he
    rw [decide_eq_true_eq]
    rcases List.mem_append.1 he with he | he
    · exact (h.before e he).le.trans h1
    · split at he
      · cases he
      · rw [List.mem_singleton.1 he]
        exact h1
  have k2 : later.countP (fun e => decide (e ≤ x)) = 0 := by
    rw [List.countP_eq_zero]
    intro e he
    rw [decide_eq_true_eq, Nat.not_le]
    exact h2.trans_le (hl e he)
  unfold levelAt synthTimeline
  simp only [hu, List.countP_append, k1, k2]
  exact hlevel.symm

/-- A row of drive calls. -/
def driveAll (c : Cfg) : List (Level × Nat) → Synth → Synth
  | [], y => y
  | (l, count) :: rest, y => driveAll c rest (drive c l count y)

/-- The edges of a row of drive calls are not before the present bit-time. -/
theorem driveAll_edges (c : Cfg) (calls : List (Level × Nat)) (y : Synth) :
    ∃ new, (driveAll c calls y).edges = y.edges ++ new ∧ ∀ e ∈ new, edgeAt c y.t ≤ e := by
  induction calls generalizing y with
  | nil => exact ⟨[], by simp [driveAll], by simp⟩
  | cons a calls ih =>
    obtain ⟨l, count⟩ := a
    obtain ⟨new, h1, h2⟩ := ih (drive c l count y)
    refine ⟨(if l = y.lvl then [] else [edgeAt c y.t]) ++ new, by rw [driveAll, h1]; simp, fun e he => ?_⟩
    rcases List.mem_append.1 he with he | he
    · split at he
      · cases he
      · rw [List.mem_singleton.1 he]
    · exact (edgeAt_mono c (by simp)).trans (h2 e he)

theorem driveAll_legal {c : Cfg} (hc : CfgLegal c) {calls : List (Level × Nat)} {y : Synth} (h : LineLegal c y)
    (hn : ∀ a ∈ calls, 1 ≤ a.2) : LineLegal c (driveAll c calls y) := by
  induction calls generalizing y with
  | nil => exact h
  | cons a calls ih =>
    exact ih (drive_legal hc h (.inl (hn a (by simp)))) (fun b hb => hn b (by simp [hb]))

/-- In a row of one-bit-time drives, bit-time `j` reads the level of call `j`. -/
theorem driveAll_level {c : Cfg} (hc : CfgLegal c) {calls : List (Level × Nat)} (hn : ∀ a ∈ calls, a.2 = 1)
    {y u : Synth} (h : LineLegal c y) {later : List Nat} (hu : u.edges = (driveAll c calls y).edges ++ later)
    (hl : ∀ e ∈ later, edgeAt c (y.t + calls.length) ≤ e) {j : Nat} (hj : j < calls.length) {x : Nat}
    (h1 : edgeAt c (y.t + j) ≤ x) (h2 : x < edgeAt c (y.t + j + 1)) :
    levelAt (synthTimeline c u) x = (calls.map Prod.fst)[j]'(by simpa using hj) := by
  induction calls generalizing y j with
  | nil => cases hj
  | cons a calls ih =>
    obtain ⟨l, count⟩ := a
    have h0 : count = 1 := hn (l, count) (by simp)
    subst h0
    rw [driveAll] at hu
    cases j with
    | zero =>
      obtain ⟨new, k1, k2⟩ := driveAll_edges c calls (drive c l 1 y)
      rw [k1, List.append_assoc] at hu
      refine drive_level hc h (.inl (le_refl _)) hu (fun e he => ?_) h1 h2
      rcases List.mem_append.1 he with he | he
      · simpa using k2 e he
      · refine (edgeAt_mono c ?_).trans (hl e he)
        simp
    | succ j =>
      have hlater : ∀ e ∈ later, edgeAt c ((drive c l 1 y).t + calls.length) ≤ e := fun e he => by
        rw [drive_t, show y.t + 1 + calls.length = y.t + ((l, 1) :: calls).length by simp; omega]
        exact hl e he
      have key := ih (fun a ha => hn a (by simp [ha])) (drive_legal hc h (.inl (le_refl _))) hu hlater
        (Nat.lt_of_succ_lt_succ hj)
        (by rwa [drive_t, show y.t + 1 + j = y.t + (j + 1) by omega])
        (by rwa [drive_t, show y.t + 1 + j + 1 = y.t + (j + 1) + 1 by omega])
      simpa using key

/-- The ten one-bit-time drives of a byte (R81, R207). -/
def byteCalls (b : Byte) : List (Level × Nat) := (byteFrame b).map (fun l => (l, 1))

/-- `SY.BYTE`'s drive calls are those of the byte frame, then the gap: reversing the byte and sending it most significant
bit first sends it least significant bit first (R81, R204, R207). -/
theorem driveByte_eq (c : Cfg) (b : Byte) (y : Synth) :
    driveByte c b y = drive c .high c.idleGapBits (driveAll c (byteCalls b) y) := by
  have h : ∀ b : Byte, [7, 6, 5, 4, 3, 2, 1, 0].map (fun j => (reverseBits b).getLsbD j) =
      [0, 1, 2, 3, 4, 5, 6, 7].map (fun j => b.getLsbD j) := by decide
  have h := h b
  simp only [List.map_cons, List.map_nil, List.cons.injEq, and_true] at h
  obtain ⟨h0, h1, h2, h3, h4, h5, h6, h7⟩ := h
  unfold driveByte driveBits byteCalls byteFrame
  simp only [List.range, List.range.loop, List.map_cons, List.map_nil, List.cons_append, List.nil_append, driveAll,
    List.foldl_cons, List.foldl_nil, h0, h1, h2, h3, h4, h5, h6, h7]

end Sys2Proof.Laws
end

