-- ==== Sys2Proof/Laws/PerInstr.lean ====
section
/-! SUPPORT. Statements about every instruction as syntax, one lemma per constructor. The family `ImmInClass` says that a
well-formed command's immediate is legal for its op's class (R94, R95), so that its word is not a reserved one. -/

namespace Sys2Proof.Laws.ImmInClass

open Sys2Proof

/-- The immediate of a well-formed command lies in the class of its op (R94, R95). -/
def Statement (i : Instr) : Prop :=
  i.wellFormed = true → ∃ cls, immClassOf (opByte i) = some cls ∧ cls.legal (immByte i) = true

theorem ckClr : Statement .ckClr := fun _ => ⟨.zero, rfl, rfl⟩

theorem ckAdd (b : Byte) : Statement (.ckAdd b) := fun _ => ⟨.byte, rfl, rfl⟩

theorem ckRes : Statement .ckRes := fun _ => ⟨.zero, rfl, rfl⟩

theorem bdBrk : Statement .bdBrk := fun _ => ⟨.zero, rfl, rfl⟩

theorem bdByte : Statement .bdByte := fun _ => ⟨.zero, rfl, rfl⟩

theorem fsmStep : Statement .fsmStep := fun _ => ⟨.zero, rfl, rfl⟩

theorem fsmStop : Statement .fsmStop := fun _ => ⟨.zero, rfl, rfl⟩

theorem syIdle (n : Byte) : Statement (.syIdle n) := fun h => ⟨.count, rfl, h⟩

theorem syBrk : Statement .syBrk := fun _ => ⟨.zero, rfl, rfl⟩

theorem syByte (b : Byte) : Statement (.syByte b) := fun _ => ⟨.byte, rfl, rfl⟩

/-- A six-bit identifier in a byte has its two top bits clear (R95). -/
theorem id6_legal : ∀ id : BitVec 6, ImmClass.id6.legal (id.setWidth 8) = true := by decide

theorem syPid (id : BitVec 6) : Statement (.syPid id) := fun _ => ⟨.id6, rfl, id6_legal id⟩

theorem syData (b : Byte) : Statement (.syData b) := fun _ => ⟨.byte, rfl, rfl⟩

theorem syChk : Statement .syChk := fun _ => ⟨.zero, rfl, rfl⟩

theorem utPar (id : BitVec 6) : Statement (.utPar id) := fun _ => ⟨.id6, rfl, id6_legal id⟩

theorem utRev (b : Byte) : Statement (.utRev b) := fun _ => ⟨.byte, rfl, rfl⟩

end Sys2Proof.Laws.ImmInClass
end

