-- ==== Sys2Proof/Tests/Slice0.lean ====
section
/-! SUPPORT. The model's own tests. Each expected result is written from spec/95_test_vectors.md (the vector is named at
the test) or from the rule named there; then one witness for each statement that has hypotheses. -/

namespace Sys2Proof.Tests

open Sys2Proof Sys2Proof.Machine Sys2Proof.Safety

/-! ### Small states -/

/-- The setting of spec/95_test_vectors.md with a capture of these edges. -/
def onLine (edges : List Nat) (last : Nat) : State :=
  State.ofInputs
    { ResetInputs.standard with tlb := { s0 := 0, l0 := .high, edges := edges, lastSample := last } }

/-- One command word issued. -/
def issue (w : Word) (s : State) : State := { s with inbox := [.command w] }

/-- The state one step leaves. -/
def after (s : State) : Option State :=
  match step s with
  | .next t => some t
  | .fault _ => none
  | .refused _ => none

/-- The response of one command word. -/
def answer (w : Word) (s : State) : Option Response := (after (issue w s)).bind State.response

/-- `s` in the middle of a frame: state `f`, packet open, the last frame ended at `last`, which is also the cursor. -/
def inFrame (f : FState) (last count : Nat) (sum : Byte) (s : State) : State :=
  { s with pass := { s.pass with pos := last, fstate := f, byteCount := count, ckd := sum, classic := false,
                                 showIbs := true, lastEnd := last, packetOpen := true } }

/-- The frames in a response. -/
def framesIn (r : Option Response) : List Frame :=
  match r with
  | some (.events ev) => framesOf ev
  | _ => []

/-- The edges of scenario F10: a header for ID 0x10, a byte with a low stop bit, then the byte 0x02. -/
def lineF10 : State :=
  onLine [20, 150, 160, 170, 180, 190, 200, 210, 220, 230, 240, 250, 280, 330, 340, 350, 360, 370, 400, 500, 530, 550,
    560, 620] 670

/-- A break at 100 and the byte 0x55 at 240. -/
def lineBreakSync : State := onLine [100, 230, 240, 250, 260, 270, 280, 290, 300, 310, 320, 330] 400

/-- A growing timeline: the same block on an `UNBOUNDED` timeline. -/
def growing (s : State) : State := { s with cfg := { s.cfg with timelineKind := .unbounded } }

/-- The answer of a decode. -/
def answerOf (r : Read Decoded) : Option Decoded :=
  match r with
  | .ok d _ => some d
  | .exhausted _ => none
  | .suspended => none
  | .backward => none

/-- A decode that answers has an answer. -/
theorem decodes_of {r : Read Decoded} {d : Decoded} (h : answerOf r = some d) : ∃ p, r = .ok d p := by
  cases r with
  | ok v p => cases h; exact ⟨p, rfl⟩
  | exhausted q => cases h
  | suspended => cases h
  | backward => cases h

/-! ### Well-formedness -/

/-- R95, R96: the one check: a count of 0 is refused, and 1 is not. -/
theorem test_wellformed_refuses_zero_count :
    Instr.wellFormed (.syIdle 0#8) = false ∧ Instr.wellFormed (.syIdle 1#8) = true := by decide

/-! ### Decoding: words written bit by bit, `op[15:8] imm[7:0]` (R93, R94) -/

theorem test_word_ck :
    decode 0b0000000100000000#16 = .ok .ckClr ∧ decode 0b0000001001010000#16 = .ok (.ckAdd 0x50#8) ∧
    decode 0b0000001100000000#16 = .ok .ckRes := ⟨rfl, rfl, rfl⟩

theorem test_word_bd :
    decode 0b0001000000000000#16 = .ok .bdBrk ∧ decode 0b0001000100000000#16 = .ok .bdByte := ⟨rfl, rfl⟩

theorem test_word_fsm :
    decode 0b0010000000000000#16 = .ok .fsmStep ∧ decode 0b0010000100000000#16 = .ok .fsmStop := ⟨rfl, rfl⟩

theorem test_word_sy :
    decode 0b0011000000000010#16 = .ok (.syIdle 2#8) ∧ decode 0b0011000100000000#16 = .ok .syBrk ∧
    decode 0b0011001001010101#16 = .ok (.syByte 0x55#8) ∧ decode 0b0011001100111101#16 = .ok (.syPid 0x3D#6) ∧
    decode 0b0011010010000001#16 = .ok (.syData 0x81#8) ∧ decode 0b0011010100000000#16 = .ok .syChk :=
  ⟨rfl, rfl, rfl, rfl, rfl, rfl⟩

theorem test_word_ut :
    decode 0b0100000000010000#16 = .ok (.utPar 0x10#6) ∧ decode 0b0100000110100011#16 = .ok (.utRev 0xA3#8) :=
  ⟨rfl, rfl⟩

/-- R96, L2.5, L2.6, L2.8: reserved words, one of each reason and class. -/
theorem test_reserved_words :
    decode 0x0000#16 = .error (.op 0x00#8) ∧ decode 0x4200#16 = .error (.op 0x42#8) ∧
    decode 0x0101#16 = .error (.imm 0x01#8 0x01#8) ∧ decode 0x3000#16 = .error (.imm 0x30#8 0x00#8) ∧
    decode 0x3340#16 = .error (.imm 0x33#8 0x40#8) ∧ decode 0x40FF#16 = .error (.imm 0x40#8 0xFF#8) :=
  ⟨rfl, rfl, rfl, rfl, rfl, rfl⟩

/-- R98: assembler lines, one with a comment, one decimal, one malformed. -/
theorem test_assemble :
    assemble "SY.IDLE 2 ; idle\nSY.BRK\nCK.ADD 0x50" = some [0x3002#16, 0x3100#16, 0x0250#16] ∧
    assemble "CK.ADD 256" = none := by decide

/-- The opcode table's numbering: a command is one word. -/
theorem test_decodeTableWord : decodeTableWord 16 0x3310 = some (.syPid 0x10#6) := rfl

/-! ### One step of each command -/

/-- L2.5: `0x0280` on a sum of `0x80` gives `0x01`, the carry folded at 255. -/
theorem test_ckAdd_folds :
    ((after (issue 0x0280#16 { State.reset with ckt := 0x80#8 })).map State.ckt) = some 0x01#8 := by decide

/-- L1.1: `0xFE` and `0x01` reach `0xFF` unfolded. -/
theorem test_ckAdd_ff :
    ((after (issue 0x0201#16 { State.reset with ckt := 0xFE#8 })).map State.ckt) = some 0xFF#8 := by decide

/-- L2.5: `0x0100` clears. -/
theorem test_ckClr :
    ((after (issue 0x0100#16 { State.reset with ckt := 0x50#8 })).map State.ckt) = some 0x00#8 := by decide

/-- L2.4: the result after `50 01 02 03 04`, whose sum is `0x5A`, is `0xA5`. -/
theorem test_ckRes : answer 0x0300#16 { State.reset with ckt := 0x5A#8 } = some (.value 0xA5#8) := by decide

/-- BD2: data bits `1,1,0,0,1,0,1,0`, least significant first. -/
theorem test_bdByte_bits :
    answer 0x1100#16 (onLine [100, 110, 130, 150, 160, 170, 180, 190] 400) =
      some (.byte 0x53#8 false false 100 195) := by decide

/-- BD17 and BD18: the second probe's boundary. -/
theorem test_bdByte_half_boundary :
    answer 0x1100#16 (onLine [100, 240, 245] 400) = some (.byte 0x00#8 true false 100 240) ∧
    answer 0x1100#16 (onLine [100, 240, 246] 400) = some (.byte 0x00#8 false true 100 240) := by decide

/-- BK3: the tie `nbits(125) = 13` and a last centre that is already high. -/
theorem test_bdBrk_tie :
    answer 0x1000#16 (onLine [100, 225, 260] 400) = some (.brk 0x80#8 false 100 235) := by decide

/-- BK4: `nbits(124) = 12` is rejected, and the pass ends on the rising edge. -/
theorem test_bdBrk_short_exhausts :
    ((after (issue 0x1000#16 (onLine [100, 224] 400))).map fun t => (t.response, t.pass.pos, t.pass.halted)) =
      some (some (.exhausted 224), 224, .exhausted) := by decide

/-- F10 step 4: a framing error on the first data byte, which still leads on. -/
theorem test_fsmStep_framing_error :
    ((after (issue 0x2000#16 (inFrame .responseDataZero 375 0 0x50#8 lineF10))).map fun t =>
      (framesIn t.response, t.pass.fstate, t.pass.ckd)) =
      some ([{ startSample := 375, endSample := 400, kind := .noFrame, value := 0x00#8, sequenceIndex := 0,
               flags := 0x0#4 },
             { startSample := 400, endSample := 495, kind := .responseDataZero, value := 0x00#8, sequenceIndex := 0,
               flags := 0x1#4 }], .responseData, 0x50#8) := by decide

/-- F9 step 1: a break that fails on its value. -/
theorem test_fsmStep_failed_break :
    answer 0x2000#16 (onLine [100, 225, 260, 270, 280, 290, 300, 310, 320, 330, 340, 350] 600) =
      some (.events [.frame { startSample := 100, endSample := 235, kind := .headerBreak, value := 0x80#8,
                              sequenceIndex := 0, flags := 0x2#4 }, .progress 235]) := by decide

/-- R165, R166: `FSM.STOP` cancels a running pass and leaves an exhausted one. -/
theorem test_fsmStop :
    ((after (issue 0x2100#16 State.reset)).map fun t => t.pass.halted) = some .cancelled ∧
    ((after (issue 0x2100#16
      { State.reset with pass := { State.reset.pass with halted := .exhausted } })).map fun t => t.pass.halted) =
      some .exhausted := by decide

/-- L2.8, first row. -/
theorem test_syIdle :
    ((after (issue 0x3003#16 State.reset)).map fun t => (t.response, t.synth.t)) = some (some (.edges []), 3) := by
  decide

/-- L2.8: a break at bit-time 0. -/
theorem test_syBrk : answer 0x3100#16 State.reset = some (.edges [0, 130]) := by decide

/-- L2.8: `0x3200` at bit-time 3: nine low bit-times. -/
theorem test_syByte :
    answer 0x3200#16 { State.reset with synth := { State.reset.synth with t := 3 } } = some (.edges [30, 120]) := by
  decide

/-- L2.8: a diagnostic PID is classic. -/
theorem test_syPid_classic :
    ((after (issue 0x333D#16 State.reset)).map fun t => (t.response, t.synth.sClassic, t.synth.cks)) =
      some (some (.edges [0, 10, 20, 30, 80, 90]), true, 0x00#8) := by decide

/-- L2.8: another PID is enhanced, and its byte is summed. -/
theorem test_syPid_enhanced :
    ((after (issue 0x3301#16 State.reset)).map fun t => (t.response, t.synth.sClassic, t.synth.cks)) =
      some (some (.edges [0, 10, 20, 70]), false, 0xC1#8) := by decide

/-- L2.4: `50` then `01` sums to `0x51`. -/
theorem test_syData :
    ((after (issue 0x3401#16 { State.reset with synth := { State.reset.synth with cks := 0x50#8 } })).map fun t =>
      t.synth.cks) = some 0x51#8 := by decide

/-- L2.8: with a sum of 0 the checksum sent is `0xFF`: one low bit-time. -/
theorem test_syChk : answer 0x3500#16 State.reset = some (.edges [0, 10]) := by decide

/-- R201, L2.8: two bit-times past `2^64 - 2` are refused with nothing changed but the mark. -/
theorem test_sy_overflow :
    after (issue 0x3002#16 { State.reset with synth := { State.reset.synth with t := 2 ^ 64 - 2 } }) =
      some { State.reset with synth := { State.reset.synth with t := 2 ^ 64 - 2 }, response := some .illegal,
                              refused := true } := by decide

/-- L2.6: the PID byte of ID `0x10`, and of ID `0x15`, which looks like a sync byte. -/
theorem test_utPar :
    answer 0x4010#16 State.reset = some (.value 0x50#8) ∧ answer 0x4015#16 State.reset = some (.value 0x55#8) := by
  decide

/-- L2.7. -/
theorem test_utRev : answer 0x41A3#16 State.reset = some (.value 0xC5#8) := by decide

/-- L1.6: the two checksum modes over the same data, classic and enhanced. -/
theorem test_checksum_modes :
    checksum true 0x3C#8 [0x11#8] = 0xEE#8 ∧ checksum false 0xC1#8 [0x11#8] = 0x2D#8 := by decide

/-- L2.1: the offset at which `TRUNCATED` falls behind `EXACT`, and the tie of `nbits`. -/
theorem test_timing :
    off { ResetInputs.standard.cfg with sampleRate := 1000000 } 27 = 703 ∧
    off { ResetInputs.standard.cfg with sampleRate := 1000000, bitClock := .truncated } 27 = 702 ∧
    nbits ResetInputs.standard.cfg 124 = 12 ∧ nbits ResetInputs.standard.cfg 125 = 13 := by decide

/-- The placed word is the one the next step runs. -/
theorem test_withFetchWord :
    ((after (State.reset.withFetchWord 16 0x0250)).map fun t => (t.ckt, t.inbox)) = some (0x50#8, []) := by decide

/-! ### A witness for each statement with hypotheses -/

theorem witness_DecodeReadsBackEveryCommand : Instr.wellFormed (.syIdle 255#8) = true := by decide

theorem witness_EveryLegalWordIsItsCommandsEncoding : decode 0x3001#16 = .ok (.syIdle 1#8) := rfl

theorem witness_ReservedWordsAreTheListedOnes :
    (∃ r, decode 0x3000#16 = .error r) ∧ (issue 0x3000#16 State.reset).request = none ∧
      (issue 0x3000#16 State.reset).inbox = .command 0x3000#16 :: [] := ⟨⟨_, rfl⟩, rfl, rfl⟩

theorem witness_FramePseudoExpandsToItsCommands :
    (1 ≤ [0x01#8].length ∧ [0x01#8].length ≤ 8 ∧ (1#8 : Byte) ≠ 0#8) ∧
    (1 ≤ (List.replicate 8 0x00#8).length ∧ (List.replicate 8 0x00#8).length ≤ 8) := by decide

theorem witness_StepRunsTheDecodedCommand :
    (issue 0x0250#16 State.reset).request = none ∧
      (issue 0x0250#16 State.reset).inbox = .command 0x0250#16 :: [] ∧ decode 0x0250#16 = .ok (.ckAdd 0x50#8) :=
  ⟨rfl, rfl, rfl⟩

/-- A suspended `FSM.STEP`, and one of each input before it. -/
def suspended (inbox : List HostInput) : State :=
  { growing (onLine [20] 100) with request := some .fsmStep, inbox := inbox }

theorem witness_SuspendedCommandGoesOnWithADelivery :
    State.reset.inbox = [] ∧
    ((suspended [.command 0x2000#16]).request = some .fsmStep ∧
      (suspended [.command 0x2000#16]).inbox = .command 0x2000#16 :: []) ∧
    ((suspended [.extend { edges := [101, 200], upTo := 200 }]).inbox =
        .extend { edges := [101, 200], upTo := 200 } :: [] ∧
      SupplyLegal (suspended []).cfg (suspended []).tlb { edges := [101, 200], upTo := 200 }) :=
  ⟨rfl, ⟨rfl, rfl⟩, rfl, by decide⟩

/-- A delivery with no command in progress that supplies nothing new, the least legal one; and three that break a duty
of R261: an edge on the last sample supplied, samples taken back, and a `FINITE` timeline. -/
theorem witness_SuspendedCommandGoesOnWithADelivery_idle :
    let s := growing (onLine [20] 100)
    s.request = none ∧ SupplyLegal s.cfg s.tlb { edges := [], upTo := 100 } ∧
      ¬ SupplyLegal s.cfg s.tlb { edges := [100], upTo := 200 } ∧
      ¬ SupplyLegal s.cfg s.tlb { edges := [], upTo := 99 } ∧
      ¬ SupplyLegal (onLine [20] 100).cfg (onLine [20] 100).tlb { edges := [101], upTo := 200 } := by decide

theorem witness_ResetLeavesTheListedValues : InputsLegal ResetInputs.standard := by decide

theorem witness_ResetTakesExactlyTheLegalInputs :
    let s : State := { State.reset with inbox := [.reset ResetInputs.standard] }
    s.inbox = .reset ResetInputs.standard :: [] ∧ InputsLegal ResetInputs.standard ∧
      ¬ InputsLegal { ResetInputs.standard with cfg := { ResetInputs.standard.cfg with protocolVersion := 3 } } ∧
      ¬ InputsLegal { ResetInputs.standard with tlb := { s0 := 0, l0 := .high, edges := [5, 5], lastSample := 9 } } :=
  ⟨rfl, by decide, by decide, by decide⟩

theorem witness_CkClrClearsTheStandaloneSum : (1#8 : Byte) ≠ 0#8 := by decide

theorem witness_CkResAnswersTheComplement : (255#8 : Byte) ≠ 0#8 := by decide

theorem witness_SumIsTheTotalModulo255 :
    ([0xFE#8, 0x01#8].map BitVec.toNat).sum ≠ 0 ∧ ([0xFE#8, 0x01#8].map BitVec.toNat).sum % 255 = 0 := by decide

theorem witness_SumIgnoresBatchingAndOrder :
    (∃ t, execAll [.ckAdd 0x01#8, .utRev 0x02#8, .ckAdd 0x03#8] State.reset = some t) ∧
    (∀ i ∈ [Instr.ckAdd 0x01#8, .utRev 0x02#8, .ckAdd 0x03#8], i ≠ .ckClr) ∧
    [0x01#8, 0xFF#8].Perm [0xFF#8, 0x01#8] := ⟨⟨_, rfl⟩, by decide, by decide⟩

theorem witness_ExactCentresLieInTheirBits :
    CfgLegal ResetInputs.standard.cfg ∧ ResetInputs.standard.cfg.bitClock = .exact := by decide

theorem witness_LowRunsMeasureToTheNearestBit :
    CfgLegal { ResetInputs.standard.cfg with sampleRate := 38400, bitRate := 19200 } := by decide

theorem witness_LevelChangesExactlyAtEdges :
    TimelineLegal lineBreakSync.cfg lineBreakSync.tlb ∧ 99 + 1 ∈ lineBreakSync.tlb.edges ∧
      100 + 1 ∉ lineBreakSync.tlb.edges ∧ lineBreakSync.tlb.s0 ∉ lineBreakSync.tlb.edges := by decide

/-- Both ways to the first fall: at once, and past a rising edge. -/
theorem witness_WaitFallingFindsTheFirstFall :
    TimelineLegal lineBreakSync.cfg lineBreakSync.tlb ∧ FirstFallAfter lineBreakSync.tlb 0 100 ∧
      FirstFallAfter lineBreakSync.tlb 100 240 := by decide

theorem witness_BdBrkReadsTheFirstLongLowRun :
    let s := onLine [20, 70, 100, 230, 260] 400
    CfgLegal s.cfg ∧ TimelineLegal s.cfg s.tlb ∧ s.pass.halted = .run ∧ 100 ∈ s.tlb.edges ∧ s.pass.pos < 100 ∧
      levelAt s.tlb 100 = .low ∧ FirstEdgeAfter s.tlb 100 230 ∧ s.cfg.breakMinBits ≤ nbits s.cfg (230 - 100) ∧
      100 + off s.cfg (2 * nbits s.cfg (230 - 100) + 1) ≤ s.tlb.lastSample ∧
      ∀ a' ∈ s.tlb.edges, s.pass.pos < a' → a' < 100 → levelAt s.tlb a' = .low →
        ∀ e', FirstEdgeAfter s.tlb a' e' → nbits s.cfg (e' - a') < s.cfg.breakMinBits := by
  refine ⟨by decide, by decide, by decide, by decide, by decide, by decide, by decide, by decide, by decide, ?_⟩
  intro a' ha h1 h2 h3 e' he
  have key : ∀ a' ∈ [20, 70, 100, 230, 260], a' < 100 →
      levelAt (onLine [20, 70, 100, 230, 260] 400).tlb a' = .low → a' = 20 := by decide
  cases key a' ha h2 h3
  have hle : e' ≤ 70 := he.2.2 70 (by decide) (by decide)
  have hm : ∀ e ∈ [20, 70, 100, 230, 260], e ≤ 70 →
      nbits (onLine [20, 70, 100, 230, 260] 400).cfg (e - 20) < 13 := by decide
  exact hm e' he.1 hle

theorem witness_BdByteReadsAByteWithAHighStop :
    let s := onLine [10, 100] 105
    CfgLegal s.cfg ∧ TimelineLegal s.cfg s.tlb ∧ s.pass.halted = .run ∧ FirstFallAfter s.tlb s.pass.pos 10 ∧
      10 + off s.cfg 19 ≤ s.tlb.lastSample ∧ levelAt s.tlb (10 + off s.cfg 19) = .high := by decide

/-- BD16: the first edge one sample past the probe window; the second window ends on the last sample. -/
theorem witness_BdByteTakesAQuietLowStopForABreak :
    let s := onLine [100, 226] 231
    let stop := 100 + off s.cfg 19
    let probe := stop + s.cfg.breakProbeBits * s.cfg.sampleRate / s.cfg.bitRate
    let halfBit := s.cfg.sampleRate / (2 * s.cfg.bitRate)
    CfgLegal s.cfg ∧ TimelineLegal s.cfg s.tlb ∧ s.pass.halted = .run ∧ FirstFallAfter s.tlb s.pass.pos 100 ∧
      levelAt s.tlb stop = .low ∧ QuietBetween s.tlb stop probe ∧ FirstEdgeAfter s.tlb stop 226 ∧
      QuietBetween s.tlb 226 (226 + halfBit) ∧ 226 + halfBit ≤ s.tlb.lastSample := by decide

/-- BD15 and BD17: an edge on the end of the first window, and a fall on the end of the second. -/
theorem witness_BdByteFlagsAFramingError :
    (let s := onLine [100, 225] 400
     let stop := 100 + off s.cfg 19
     CfgLegal s.cfg ∧ TimelineLegal s.cfg s.tlb ∧ s.pass.halted = .run ∧ FirstFallAfter s.tlb s.pass.pos 100 ∧
      stop ≤ s.tlb.lastSample ∧ levelAt s.tlb stop = .low ∧ FirstEdgeAfter s.tlb stop 225 ∧
      225 ≤ stop + s.cfg.breakProbeBits * s.cfg.sampleRate / s.cfg.bitRate) ∧
    (let s := onLine [100, 240, 245] 400
     let stop := 100 + off s.cfg 19
     CfgLegal s.cfg ∧ TimelineLegal s.cfg s.tlb ∧ s.pass.halted = .run ∧ FirstFallAfter s.tlb s.pass.pos 100 ∧
      stop ≤ s.tlb.lastSample ∧ levelAt s.tlb stop = .low ∧ FirstEdgeAfter s.tlb stop 240 ∧
      stop + s.cfg.breakProbeBits * s.cfg.sampleRate / s.cfg.bitRate < 240 ∧
      ¬ QuietBetween s.tlb 240 (240 + s.cfg.sampleRate / (2 * s.cfg.bitRate))) := ⟨by decide, by decide⟩

/-- A result of each of the two commands. -/
theorem witness_DirectDecodeMovesOnlyTheCursor :
    TimelineLegal lineBreakSync.cfg lineBreakSync.tlb ∧ lineBreakSync.pass.pos ≤ lineBreakSync.tlb.lastSample ∧
      (∃ t, exec .bdBrk lineBreakSync = .next t ∧ t.response = some (.brk 0x00#8 false 100 235)) ∧
      ∃ t, exec .bdByte lineBreakSync = .next t ∧ t.response = some (.byte 0x00#8 false true 100 230) :=
  ⟨by decide, by decide, ⟨_, rfl, by decide⟩, _, rfl, by decide⟩

theorem witness_ExhaustionEndsThePass :
    State.reset.pass.halted = .run ∧ TimelineLegal State.reset.cfg State.reset.tlb ∧
      (∃ t, exec .bdBrk State.reset = .next t ∧ t.pass.halted = .exhausted) ∧
      (∃ t, exec .bdByte State.reset = .next t ∧ t.pass.halted = .exhausted) ∧
      ∃ t, exec .fsmStep State.reset = .next t ∧ t.pass.halted = .exhausted :=
  ⟨by decide, by decide, ⟨_, rfl, by decide⟩, ⟨_, rfl, by decide⟩, _, rfl, by decide⟩

/-- `BD.BYTE` on a legal line is exhausted at `q`, and the statement's words say so. -/
abbrev ByteEndsAt (s : State) (q : Nat) : Prop :=
  TimelineLegal s.cfg s.tlb ∧ s.pass.halted = .run ∧ answer 0x1100#16 s = some (.exhausted q) ∧
    ByteRunsOut s.cfg s.tlb s.pass.pos q

/-- `BD.BRK` likewise. -/
abbrev BreakEndsAt (s : State) (q : Nat) : Prop :=
  TimelineLegal s.cfg s.tlb ∧ s.pass.halted = .run ∧ answer 0x1000#16 s = some (.exhausted q) ∧
    BreakRunsOut s.cfg s.tlb s.pass.pos q

/-- The line has no falling edge: BD14, and a line with one rising edge. -/
theorem witness_ExhaustionEndsThePass_noFall :
    ByteEndsAt (onLine [] 400) 0 ∧
    ByteEndsAt { onLine [] 400 with tlb := { s0 := 0, l0 := .low, edges := [20], lastSample := 400 } } 20 :=
  ⟨⟨by decide, rfl, by decide, .inl (by decide)⟩, by decide, rfl, by decide, .inl (by decide)⟩

/-- BD9: a data-bit centre past `S_END`; the start-bit centre one sample past it; and, on an `UNBOUNDED` timeline, a
data-bit centre past the last 8-bit sample position. -/
theorem witness_ExhaustionEndsThePass_centre :
    ByteEndsAt (onLine [100] 150) 145 ∧ ByteEndsAt (onLine [100] 104) 100 ∧
    ByteEndsAt { growing (onLine [240] 255) with cfg := { (growing (onLine [240] 255)).cfg with sampleW := 8 } } 255 :=
  ⟨⟨by decide, rfl, by decide, .inr ⟨100, by decide, .inl ⟨5, by decide⟩⟩⟩,
   ⟨by decide, rfl, by decide, .inr ⟨100, by decide, .inl ⟨0, by decide⟩⟩⟩,
   by decide, rfl, by decide, .inr ⟨240, by decide, .inl ⟨2, by decide⟩⟩⟩

/-- A low stop bit: BD10, the probe window past `S_END`, here by one sample; the same with the window reached and no edge
after it; and BD16 with the half bit after the edge cut short by one sample. -/
theorem witness_ExhaustionEndsThePass_probe :
    ByteEndsAt (onLine [100] 224) 195 ∧ ByteEndsAt (onLine [100] 225) 195 ∧ ByteEndsAt (onLine [100, 226] 230) 226 :=
  ⟨⟨by decide, rfl, by decide, .inr ⟨100, by decide, .inr (by decide)⟩⟩,
   ⟨by decide, rfl, by decide, .inr ⟨100, by decide, .inr (by decide)⟩⟩,
   by decide, rfl, by decide, .inr ⟨100, by decide, .inr (by decide)⟩⟩

/-- Low runs that end, each short. -/
theorem shortRuns {c : Cfg} {tl : Timeline} {pos : Nat}
    (h : ∀ a ∈ tl.edges, ∀ e ∈ tl.edges, a < e → levelAt tl a = .low → nbits c (e - a) < c.breakMinBits) :
    ∀ a ∈ tl.edges, pos < a → levelAt tl a = .low → ∀ e, FirstEdgeAfter tl a e → nbits c (e - a) < c.breakMinBits :=
  fun a ha _ hl e he => h a ha e he.1 he.2.1 hl

/-- BK4 and BK7: the only run one sample too short, and a run without an end. BK8: the delimiter's centre one sample
past `S_END`. -/
theorem witness_ExhaustionEndsThePass_break :
    BreakEndsAt (onLine [100, 224] 400) 224 ∧ BreakEndsAt (onLine [100] 200) 100 ∧
    BreakEndsAt (onLine [100, 230] 234) 225 :=
  ⟨⟨by decide, rfl, by decide, .inl ⟨rfl, by decide, shortRuns (by decide)⟩⟩,
   ⟨by decide, rfl, by decide, .inl ⟨rfl, by decide, shortRuns (by decide)⟩⟩,
   by decide, rfl, by decide, .inr ⟨100, 230, by decide, by decide, by decide, by decide, by decide,
     fun a' ha' _ hlt _ => absurd hlt (by revert a'; decide), 13, by decide⟩⟩

theorem witness_NoEdgeLeftExhaustsOrSuspends :
    State.reset.pass.halted = .run ∧ (∀ e ∈ State.reset.tlb.edges, e ≤ State.reset.pass.pos) ∧
      State.reset.cfg.timelineKind = .finite ∧ (growing State.reset).pass.halted = .run ∧
      (∀ e ∈ (growing State.reset).tlb.edges, e ≤ (growing State.reset).pass.pos) ∧
      (growing State.reset).cfg.timelineKind = .unbounded := by decide

theorem witness_HaltedPassAnswersHalted :
    { State.reset.pass with halted := .exhausted }.halted ≠ .run ∧
      { State.reset.pass with halted := .cancelled }.halted ≠ .run ∧
      Instr.ckRes ∉ [Instr.fsmStep, .bdBrk, .bdByte, .fsmStop] ∧ ∃ t, exec .ckRes State.reset = .next t :=
  ⟨by decide, by decide, by decide, _, rfl⟩

theorem witness_FsmStopCancelsARunningPass :
    (1#8 : Byte) ≠ 0#8 ∧ State.reset.pass.halted = .run ∧
      { State.reset.pass with halted := .exhausted }.halted ≠ .run := by decide

theorem witness_ConfirmedBreakBeginsAPacket :
    let d : Decoded := { value := 0x00#8, fe := false, brk := false, startSample := 100, endSample := 235 }
    lineBreakSync.pass.halted = .run ∧ lineBreakSync.pass.fstate = .noFrame ∧
      (∃ p, breakDecode lineBreakSync.cfg lineBreakSync.tlb lineBreakSync.pass = .ok d p) ∧ d.value = 0x00#8 :=
  ⟨by decide, by decide, decodes_of (by decide), by decide⟩

theorem witness_FailedBreakIsFlagged :
    let s := onLine [100, 225, 260] 400
    let d : Decoded := { value := 0x80#8, fe := false, brk := false, startSample := 100, endSample := 235 }
    s.pass.halted = .run ∧ s.pass.fstate = .noFrame ∧ (∃ p, breakDecode s.cfg s.tlb s.pass = .ok d p) ∧
      d.value ≠ 0x00#8 :=
  ⟨by decide, by decide, decodes_of (by decide), by decide⟩

theorem witness_DisguisedBreakBeginsAPacket :
    let s := inFrame .responseData 50 1 0x50#8 lineBreakSync
    let d : Decoded := { value := 0x00#8, fe := false, brk := true, startSample := 100, endSample := 230 }
    s.pass.halted = .run ∧ s.pass.fstate ≠ .noFrame ∧ s.pass.fstate ≠ .headerBreak ∧
      (∃ p, byteDecode s.cfg s.tlb s.pass = .ok d p) ∧ d.brk = true :=
  ⟨by decide, by decide, by decide, decodes_of (by decide), by decide⟩

/-- The sync byte of the line. -/
theorem witness_SyncByteIsChecked :
    let s := inFrame .headerSync 235 0 0x00#8 lineBreakSync
    let d : Decoded := { value := 0x55#8, fe := false, brk := false, startSample := 240, endSample := 335 }
    s.pass.halted = .run ∧ s.pass.fstate = .headerSync ∧ (∃ p, byteDecode s.cfg s.tlb s.pass = .ok d p) ∧
      d.brk = false ∧ d.value = 0x55#8 :=
  ⟨by decide, by decide, decodes_of (by decide), by decide, by decide⟩

/-- A byte that is not the sync byte. -/
theorem witness_SyncByteIsChecked_other :
    let s := inFrame .headerSync 5 0 0x00#8 (onLine [10, 100] 105)
    let d : Decoded := { value := 0x00#8, fe := false, brk := false, startSample := 10, endSample := 105 }
    s.pass.halted = .run ∧ s.pass.fstate = .headerSync ∧ (∃ p, byteDecode s.cfg s.tlb s.pass = .ok d p) ∧
      d.brk = false ∧ d.value ≠ 0x55#8 :=
  ⟨by decide, by decide, decodes_of (by decide), by decide, by decide⟩

theorem witness_AnyByteIsTakenAsThePid :
    let s := inFrame .headerPid 255 0 0x00#8 lineF10
    let d : Decoded := { value := 0x50#8, fe := false, brk := false, startSample := 280, endSample := 375 }
    s.pass.halted = .run ∧ s.pass.fstate = .headerPid ∧ (∃ p, byteDecode s.cfg s.tlb s.pass = .ok d p) ∧
      d.brk = false :=
  ⟨by decide, by decide, decodes_of (by decide), by decide⟩

theorem witness_FirstResponseByteIsData :
    let s := inFrame .responseDataZero 375 0 0x50#8 lineF10
    let d : Decoded := { value := 0x00#8, fe := true, brk := false, startSample := 400, endSample := 495 }
    s.pass.halted = .run ∧ s.pass.fstate = .responseDataZero ∧ (∃ p, byteDecode s.cfg s.tlb s.pass = .ok d p) ∧
      d.brk = false :=
  ⟨by decide, by decide, decodes_of (by decide), by decide⟩

/-- A byte that does not match the running result, and one that does. -/
theorem witness_LaterResponseByteIsSummedEitherWay :
    let s := inFrame .responseData 495 1 0x50#8 lineF10
    let s' := inFrame .responseData 495 1 0xFD#8 lineF10
    let d : Decoded := { value := 0x02#8, fe := false, brk := false, startSample := 530, endSample := 625 }
    s.pass.halted = .run ∧ s.pass.fstate = .responseData ∧ (∃ p, byteDecode s.cfg s.tlb s.pass = .ok d p) ∧
      (∃ p, byteDecode s'.cfg s'.tlb s'.pass = .ok d p) ∧ d.brk = false ∧ d.value ≠ ~~~s.pass.ckd ∧
      d.value = ~~~s'.pass.ckd :=
  ⟨by decide, by decide, decodes_of (by decide), decodes_of (by decide), by decide, by decide, by decide⟩

theorem witness_TerminatingByteIsTheChecksum :
    let s := inFrame .responseChecksum 495 8 0xFD#8 lineF10
    let d : Decoded := { value := 0x02#8, fe := false, brk := false, startSample := 530, endSample := 625 }
    s.pass.halted = .run ∧ s.pass.fstate = .responseChecksum ∧ (∃ p, byteDecode s.cfg s.tlb s.pass = .ok d p) ∧
      d.brk = false :=
  ⟨by decide, by decide, decodes_of (by decide), by decide⟩

theorem witness_FsmStepReadsThePidFromTheLine :
    let s := inFrame .headerPid 255 0 0x00#8 lineF10
    CfgLegal s.cfg ∧ TimelineLegal s.cfg s.tlb ∧ s.pass.halted = .run ∧ s.pass.fstate = .headerPid ∧
      FirstFallAfter s.tlb s.pass.pos 280 ∧ 280 + off s.cfg 19 ≤ s.tlb.lastSample ∧
      levelAt s.tlb (280 + off s.cfg 19) = .high := by decide

theorem witness_FiniteTimelineNeverSuspends :
    State.reset.cfg.timelineKind = .finite ∧ State.reset.request = none ∧
      ∃ t, exec .fsmStep State.reset = .next t := ⟨rfl, rfl, _, rfl⟩

theorem witness_SuspendedCommandHasNoEffectYet :
    (growing State.reset).request = none ∧
      ∃ t, exec .bdByte (growing State.reset) = .next t ∧ t.request = some .bdByte := ⟨rfl, _, rfl, rfl⟩

theorem witness_DeliveryDoesNotChangeACompletedCommand :
    let s := growing lineBreakSync
    TimelineLegal s.cfg s.tlb ∧ SupplyLegal s.cfg s.tlb { edges := [401], upTo := 500 } ∧
      ∃ t, exec .bdBrk s = .next t ∧ t.request = none := ⟨by decide, by decide, _, rfl, rfl⟩

/-- A command of a halted pass after a refusal. -/
theorem witness_CommandsOnlyAppendAndAdvance :
    let s := { State.reset with refused := true, pass := { State.reset.pass with halted := .cancelled } }
    s.pass.halted ≠ .run ∧ s.refused = true ∧ ∃ t, exec .fsmStep s = .next t := ⟨by decide, rfl, _, rfl⟩

theorem witness_AgentsShareNoRegister :
    (∃ t, exec .bdBrk lineBreakSync = .next t) ∧ (∃ t, exec .syBrk State.reset = .next t) ∧
      (∃ t, exec (.ckAdd 0x01#8) State.reset = .next t) ∧ ∃ t, exec (.utRev 0x01#8) State.reset = .next t :=
  ⟨⟨_, rfl⟩, ⟨_, rfl⟩, ⟨_, rfl⟩, _, rfl⟩

/-- Each bound passed: the counter by one bit-time of idling, the last 8-bit sample position by a break. -/
theorem witness_OverflowingSynthesisIsRefused :
    (let s : State := { State.reset with synth := { State.reset.synth with t := 2 ^ 64 - 1 } }
     1 = (1#8 : Byte).toNat ∧ 2 ^ 64 - 1 < s.synth.t + 1) ∧
    (let s : State := { State.reset with cfg := { State.reset.cfg with sampleW := 8 },
                                         synth := { State.reset.synth with t := 12 } }
     14 = s.cfg.synBreakBits + s.cfg.synDelimBits ∧
       2 ^ s.cfg.sampleW - 1 < (s.synth.t + 14) * s.cfg.sampleRate / s.cfg.bitRate) := ⟨by decide, by decide⟩

/-- A count that fits exactly, and one that is one bit-time too long. -/
theorem witness_SyIdleDrivesHigh :
    let s : State := { State.reset with synth := { State.reset.synth with t := 2 ^ 59 } }
    let u : State := { State.reset with cfg := { State.reset.cfg with sampleW := 4 } }
    (1#8 : Byte) ≠ 0#8 ∧
    (s.synth.t + (255#8 : Byte).toNat ≤ 2 ^ 64 - 1 ∧
      (s.synth.t + (255#8 : Byte).toNat) * s.cfg.sampleRate / s.cfg.bitRate ≤ 2 ^ s.cfg.sampleW - 1) ∧
    ((u.synth.t + (1#8 : Byte).toNat) * u.cfg.sampleRate / u.cfg.bitRate ≤ 2 ^ u.cfg.sampleW - 1) ∧
    ¬ ((u.synth.t + (2#8 : Byte).toNat) * u.cfg.sampleRate / u.cfg.bitRate ≤ 2 ^ u.cfg.sampleW - 1) := by decide

theorem witness_SyBrkDrivesABreak :
    let s := State.reset
    let count := s.cfg.synBreakBits + s.cfg.synDelimBits
    (1#8 : Byte) ≠ 0#8 ∧ s.synth.t + count ≤ 2 ^ 64 - 1 ∧
      (s.synth.t + count) * s.cfg.sampleRate / s.cfg.bitRate ≤ 2 ^ s.cfg.sampleW - 1 ∧
      ¬ (2 ^ 64 - 14 + count ≤ 2 ^ 64 - 1) := by decide

theorem witness_SyByteSendsTheByteFrame :
    CfgLegal State.reset.cfg ∧ SynthLegal State.reset ∧
      synthFits State.reset.cfg (10 + State.reset.cfg.idleGapBits) State.reset.synth = true ∧
      11 < 10 + State.reset.cfg.idleGapBits ∧ edgeAt State.reset.cfg (State.reset.synth.t + 11) ≤ 119 ∧
      119 < edgeAt State.reset.cfg (State.reset.synth.t + 11 + 1) := by decide

theorem witness_SyPidStartsTheChecksum :
    synthFits State.reset.cfg (10 + State.reset.cfg.idleGapBits) State.reset.synth = true := by decide

theorem witness_SyDataSumsAndSyChkSendsTheSum :
    synthFits State.reset.cfg (10 + State.reset.cfg.idleGapBits)
      { State.reset.synth with t := 2 ^ 59, cks := 0x5A#8 } = true := by decide

theorem witness_SynthesizedTimelineCanBeBound : CfgLegal State.reset.cfg ∧ SynthLegal State.reset := by decide

/-- The synthesizer after two idle bit-times. -/
def idle2 : State := { State.reset with synth := { State.reset.synth with t := 2 } }

theorem witness_SynthesizedByteDecodesToItself :
    CfgLegal idle2.cfg ∧ idle2.cfg.bitClock = .exact ∧ SynthLegal idle2 ∧
      synthFits idle2.cfg (10 + idle2.cfg.idleGapBits) idle2.synth = true ∧
      ∃ u, exec (.syByte 0x53#8) idle2 = .next u ∧
        let v : State := { idle2 with tlb := synthTimeline idle2.cfg u.synth }
        v.cfg = idle2.cfg ∧ v.pass.halted = .run ∧ (∀ e ∈ idle2.synth.edges, e ≤ v.pass.pos) ∧
          v.pass.pos < edgeAt idle2.cfg idle2.synth.t :=
  ⟨by decide, by decide, by decide, by decide, _, rfl, rfl, rfl, by decide, by decide⟩

/-- A break of 13 bit-times is just as long as the last clause asks. -/
theorem witness_SynthesizedBreakDecodesAsABreak :
    CfgLegal idle2.cfg ∧ idle2.cfg.bitClock = .exact ∧ SynthLegal idle2 ∧
      synthFits idle2.cfg (idle2.cfg.synBreakBits + idle2.cfg.synDelimBits) idle2.synth = true ∧
      10 + idle2.cfg.breakProbeBits ≤ idle2.cfg.synBreakBits ∧
      ∃ u, exec .syBrk idle2 = .next u ∧
        let v : State := { idle2 with tlb := synthTimeline idle2.cfg u.synth }
        v.cfg = idle2.cfg ∧ v.pass.halted = .run ∧ (∀ e ∈ idle2.synth.edges, e ≤ v.pass.pos) ∧
          v.pass.pos < edgeAt idle2.cfg idle2.synth.t :=
  ⟨by decide, by decide, by decide, by decide, by decide, _, rfl, rfl, rfl, by decide, by decide⟩

theorem witness_UtParAnswersThePidByte : (0x40#8 : Byte).extractLsb' 6 2 ≠ 0#2 := by decide

theorem witness_EveryResetIsLegal :
    InputsLegal { ResetInputs.standard with tlb := { s0 := 50, l0 := .low, edges := [50, 60], lastSample := 60 } } := by
  decide

/-- A command in progress is legal where there is none. -/
theorem requestLegal_of_none {s : State} (h : s.request = none) : RequestLegal s := by
  intro i hi
  rw [h] at hi
  cases hi

/-- Scenario F10 before its step 4: a packet is open, and its break frame stands in the stream. -/
def midPacket : State :=
  { inFrame .responseDataZero 375 0 0x50#8 lineF10 with
    events := [.beginPacket, .frame { startSample := 20, endSample := 155, kind := .headerBreak, value := 0x00#8,
                                      sequenceIndex := 0, flags := 0x0#4 }, .progress 155]
    inbox := [.command 0x2000#16] }

/-- One witness for the five invariants: they have the same premises. -/
theorem witness_EveryStepKeepsTheInvariant : BlockLegal midPacket ∧ ∃ t, step midPacket = .next t :=
  ⟨⟨by decide, by decide, by decide, requestLegal_of_none rfl, by decide, by decide, by decide, by decide⟩, _, rfl⟩

/-- A witness of the invariant with a command in progress. -/
theorem witness_EveryStepKeepsTheRegistersLegal : BlockLegal (suspended []) ∧ ∃ t, step (suspended []) = .next t := by
  refine ⟨⟨by decide, by decide, by decide, ?_, by decide, by decide, by decide, by decide⟩, _, rfl⟩
  intro i hi
  cases hi
  exact ⟨by simp, rfl, rfl⟩

end Sys2Proof.Tests
end

section
/-! PROOFS. The ports run the decoded command (R72), and each agent's commands keep to that agent's registers
(R5, R144, R200, R213, R214, R243). -/

namespace Sys2Proof.Proofs

open Sys2Proof Sys2Proof.Machine Sys2Proof.Laws

/-! ### The command port -/

/-- A legal word on the idle command port is the next command to run (R5, R72). -/
theorem nextTurn_of_legal_command {s : State} {w : Word} {i : Instr} {rest : List HostInput}
    (hreq : s.request = none) (hin : s.inbox = .command w :: rest) (hw : decode w = .ok i) :
    nextTurn s = .run i { s with inbox := rest } := by
  simp [nextTurn, acceptNext, acceptWord, hreq, hin, hw]

/-- A step whose turn is a command is that command. -/
theorem step_of_run {s u : State} {i : Instr} (h : nextTurn s = .run i u) : step s = exec i u := by
  simp [step, h]

/-- Settles O6: the port's turn is the decoded command, and a step adds nothing around `exec`. -/
theorem stepRunsTheDecodedCommand : Obligations.StepRunsTheDecodedCommand :=
  fun _ _ _ _ hreq hin hw => step_of_run (nextTurn_of_legal_command hreq hin hw)

/-! ### The decoder pass -/

/-- The meaning `f` of a command writes the decoder pass and its outputs only, and reads neither the synthesizer nor
`CKt`: with any other values there it does the same, and leaves them. -/
def KeepsToPass (f : State → Host.Outcome State Fault Refusal) : Prop :=
  ∀ s t : State, f s = .next t →
    t = { s with pass := t.pass, events := t.events, response := t.response, request := t.request } ∧
    ∀ (y : Synth) (k : Byte), f { s with synth := y, ckt := k } = .next { t with synth := y, ckt := k }

/-- A decode reads `CFG`, the timeline and the pass, so each way it ends is the same beside any other registers. -/
theorem runDecode_keepsToPass (i : Instr) (dec : Cfg → Timeline → Pass → Read Decoded) (answer : Decoded → Response) :
    KeepsToPass (runDecode i dec answer) := by
  intro s t h
  obtain ⟨hhalt, rfl⟩ | ⟨hrun, d, p, hd, rfl⟩ | ⟨hrun, q, hd, rfl⟩ | ⟨hrun, hd, rfl⟩ := runDecode_cases h
  · exact ⟨rfl, fun y k => if_neg hhalt⟩
  all_goals
    refine ⟨rfl, fun y k => ?_⟩
    simp only [runDecode, hrun, hd, if_true]
    rfl

/-- `FSM.STEP` ends in the same four ways as a decode (R150, R151, R232). -/
theorem execFsmStep_keepsToPass : KeepsToPass execFsmStep := by
  intro s t h
  obtain ⟨hhalt, rfl⟩ | ⟨hrun, d, p, hd, rfl⟩ | ⟨hrun, q, hd, rfl⟩ | ⟨hrun, hd, rfl⟩ := execFsmStep_cases h
  · exact ⟨rfl, fun y k => if_neg hhalt⟩
  all_goals
    refine ⟨rfl, fun y k => ?_⟩
    simp only [execFsmStep, hrun, hd, if_true]
    rfl

theorem execFsmStop_keepsToPass : KeepsToPass execFsmStop := by
  intro s t h
  by_cases hrun : s.pass.halted = .run
  all_goals
    simp only [execFsmStop, hrun, if_true, if_false] at h ⊢
    cases h
    exact ⟨rfl, fun _ _ => rfl⟩

/-! ### The synthesizer -/

/-- The meaning `f` of a command writes the synthesizer, the response and the refusal mark only, and reads neither the
pass, its timeline and events, nor `CKt`. -/
def KeepsToSynth (f : State → Host.Outcome State Fault Refusal) : Prop :=
  ∀ s t : State, f s = .next t →
    t = { s with synth := t.synth, response := t.response, refused := t.refused } ∧
    ∀ (p : Pass) (tl : Timeline) (ev : List Event) (k : Byte),
      f { s with pass := p, tlb := tl, events := ev, ckt := k } =
        .next { t with pass := p, tlb := tl, events := ev, ckt := k }

theorem next_refuseCommand_keepsToSynth : KeepsToSynth (fun s => .next (refuseCommand s)) := by
  intro s t h
  cases h
  exact ⟨rfl, fun _ _ _ _ => rfl⟩

/-- Whether a synthesis command fits, and what it drives, is read from `CFG` and the synthesizer alone (R201). -/
theorem synthesize_keepsToSynth (cost : Nat) (run : Synth → Synth) : KeepsToSynth (synthesize cost run) := by
  intro s t h
  by_cases hfits : synthFits s.cfg cost s.synth = true
  · simp only [synthesize, hfits, if_true] at h ⊢
    cases h
    exact ⟨rfl, fun _ _ _ _ => rfl⟩
  · simp only [synthesize, hfits] at h ⊢
    exact next_refuseCommand_keepsToSynth s t h

theorem execSyIdle_keepsToSynth (n : Byte) : KeepsToSynth (execSyIdle n) := by
  intro s t h
  by_cases hn : n = 0#8
  · simp only [execSyIdle, hn, if_true] at h ⊢
    exact next_refuseCommand_keepsToSynth s t h
  · simp only [execSyIdle, hn, if_false] at h ⊢
    exact synthesize_keepsToSynth _ _ s t h

theorem execSyPid_keepsToSynth (id : BitVec 6) : KeepsToSynth (execSyPid id) := fun s =>
  synthesize_keepsToSynth (byteCost s.cfg)
    (fun y => driveByte s.cfg (parity id) (startChecksum s.cfg (parity id) y)) s

theorem execSyData_keepsToSynth (b : Byte) : KeepsToSynth (execSyData b) := fun s =>
  synthesize_keepsToSynth (byteCost s.cfg) (fun y => driveByte s.cfg b { y with cks := sumAdd y.cks b }) s

/-! ### The three agents -/

/-- Settles O42: the decode commands by the ways a decode ends, the synthesis commands by `synthesize`, whose cost and
drive calls come from `CFG` and the synthesizer; a `CK` or `UT` command has one outcome, written out. -/
theorem agentsShareNoRegister : Obligations.AgentsShareNoRegister := by
  refine ⟨?pass, ?synth, ?checksum, ?utility⟩
  case pass =>
    intro i s t hi h
    simp only [List.mem_cons, List.not_mem_nil, or_false] at hi
    obtain rfl | rfl | rfl | rfl := hi
    · exact runDecode_keepsToPass _ _ _ s t h
    · exact runDecode_keepsToPass _ _ _ s t h
    · exact execFsmStep_keepsToPass s t h
    · exact execFsmStop_keepsToPass s t h
  case synth =>
    rintro i s t (rfl | rfl | ⟨n, rfl⟩ | ⟨b, rfl⟩ | ⟨id, rfl⟩ | ⟨b, rfl⟩) h
    · exact synthesize_keepsToSynth _ _ s t h
    · exact synthesize_keepsToSynth _ _ s t h
    · exact execSyIdle_keepsToSynth n s t h
    · exact synthesize_keepsToSynth _ _ s t h
    · exact execSyPid_keepsToSynth id s t h
    · exact execSyData_keepsToSynth b s t h
  case checksum =>
    rintro i s t (rfl | rfl | ⟨b, rfl⟩) h
    all_goals
      cases h
      exact ⟨rfl, fun _ _ _ _ _ => rfl⟩
  case utility =>
    rintro i s t (⟨id, rfl⟩ | ⟨b, rfl⟩) h
    all_goals
      cases h
      exact ⟨rfl, fun _ => rfl⟩

end Sys2Proof.Proofs
end

section
/-! PROOFS. The ports and reset (R41, R69, R244, R250, R261): what the block does with nothing to accept, with a delivery,
and the state a legal reset leaves. -/

namespace Sys2Proof.Proofs

open Sys2Proof Sys2Proof.Machine Sys2Proof.Safety

/-! ### Idling and deliveries -/

/-- With an empty inbox the block holds its state, a command in progress or not (R244). -/
theorem step_of_empty_inbox {s : State} (hin : s.inbox = []) : step s = .next s := by
  cases hreq : s.request with
  | none => simp [step, nextTurn, acceptNext, hreq, hin]
  | some i => simp [step, nextTurn, acceptSuspended, hreq, hin]

/-- A command in progress holds off the next word (R5, R69). -/
theorem step_of_command_held_off {s : State} {i : Instr} {w : Word} {rest : List HostInput}
    (hreq : s.request = some i) (hin : s.inbox = .command w :: rest) : step s = .next s := by
  simp [step, nextTurn, acceptSuspended, hreq, hin]

/-- With no command in progress a delivery is accepted or refused, and nothing runs. -/
theorem step_of_delivery_idle {s : State} {x : Supply} {rest : List HostInput} (hreq : s.request = none)
    (hin : s.inbox = .extend x :: rest) :
    step s = if SupplyLegal s.cfg s.tlb x then .next { s with inbox := rest, tlb := extendTimeline s.tlb x }
      else .refused .hostDuty := by
  by_cases hx : SupplyLegal s.cfg s.tlb x
  · simp only [step, nextTurn, acceptNext, acceptSupply, turnOf, hreq, hin, if_pos hx]
  · simp only [step, nextTurn, acceptNext, acceptSupply, turnOf, hreq, hin, if_neg hx]

/-- A delivery to a command in progress runs it anew, or is refused (R69). -/
theorem step_of_delivery_suspended {s : State} {i : Instr} {x : Supply} {rest : List HostInput}
    (hreq : s.request = some i) (hin : s.inbox = .extend x :: rest) :
    step s = if SupplyLegal s.cfg s.tlb x then
        exec i { s with request := none, inbox := rest, tlb := extendTimeline s.tlb x }
      else .refused .hostDuty := by
  by_cases hx : SupplyLegal s.cfg s.tlb x
  · simp only [step, nextTurn, acceptSuspended, acceptSupply, hreq, hin, if_pos hx]
  · simp only [step, nextTurn, acceptSuspended, acceptSupply, hreq, hin, if_neg hx]

/-- Settles O7: one lemma per input and request; the duties of R261 are `SupplyLegal`, which the ports test. -/
theorem suspendedCommandGoesOnWithADelivery : Obligations.SuspendedCommandGoesOnWithADelivery := by
  refine ⟨fun _ hin => step_of_empty_inbox hin, fun _ _ _ _ hreq hin => step_of_command_held_off hreq hin,
    fun s x rest hin => ⟨?idle, ?suspended, ?illegal⟩⟩
  case idle => exact fun hx hreq => (step_of_delivery_idle hreq hin).trans (if_pos hx)
  case suspended => exact fun i hx hreq => (step_of_delivery_suspended hreq hin).trans (if_pos hx)
  case illegal =>
    intro hx
    cases hreq : s.request with
    | none => exact (step_of_delivery_idle hreq hin).trans (if_neg hx)
    | some i => exact (step_of_delivery_suspended hreq hin).trans (if_neg hx)

/-! ### Reset -/

/-- Legal inputs have a reset state (R251). -/
theorem resetWith_of_legal {inputs : ResetInputs} (h : InputsLegal inputs) :
    resetWith inputs = some (State.ofInputs inputs) := if_pos h

/-- Settles O8: the reset state is written out field by field. -/
theorem resetLeavesTheListedValues : Obligations.ResetLeavesTheListedValues := fun inputs h =>
  ⟨State.ofInputs inputs, resetWith_of_legal h, rfl, rfl, rfl, rfl, rfl, rfl, rfl, rfl, rfl, rfl, rfl, rfl, rfl, rfl,
    rfl, rfl, rfl, rfl, rfl⟩

/-- The frame registers after a reset: no packet, no byte (R41). -/
theorem ofInputs_fsmLegal (inputs : ResetInputs) : FsmLegal (State.ofInputs inputs) := by
  simp [FsmLegal, State.ofInputs, Pass.atReset, insidePacket]

/-- The line after a reset: bit-time 0, high, no edge (R41). -/
theorem ofInputs_synthLegal (inputs : ResetInputs) : SynthLegal (State.ofInputs inputs) := by
  simp [SynthLegal, State.ofInputs, Synth.atReset, edgeAt]

/-- A legal reset leaves a legal block: the cursor is at `S0`, and every stream is empty. -/
theorem ofInputs_blockLegal {inputs : ResetInputs} (h : InputsLegal inputs) : BlockLegal (State.ofInputs inputs) := by
  have hcursor : CursorLegal (State.ofInputs inputs) := ⟨le_refl _, le_refl _, h.2.1⟩
  have hrequest : RequestLegal (State.ofInputs inputs) := fun _ hi => nomatch hi
  have hflags : FlagsLegal (State.ofInputs inputs) := fun _ hf => nomatch hf
  have hframes : FramesOrdered (State.ofInputs inputs) := ⟨List.Pairwise.nil, fun _ hf => nomatch hf⟩
  exact ⟨h, hcursor, ofInputs_fsmLegal inputs, hrequest, rfl, hflags, hframes, ofInputs_synthLegal inputs⟩

/-- Settles O55: the standard inputs are legal, so `State.reset` is one of the legal resets. -/
theorem everyResetIsLegal : Obligations.EveryResetIsLegal :=
  ⟨ofInputs_blockLegal (by decide), fun _ h => ofInputs_blockLegal h⟩

end Sys2Proof.Proofs
end

section
/-! PROOFS. What a command can do, said once for all fifteen (`exec_effect`), and from it what every command keeps: the
streams grow, the cursor moves forward, a suspension has no effect (R20 to R22, R31, R40, R69 to R71). -/

namespace Sys2Proof.Proofs

open Sys2Proof Sys2Proof.Machine Sys2Proof.Safety Sys2Proof.Laws

/-! ### How a request ends -/

/-- A cursor move from `a` to `b`: never backward, and within the timeline if `a` and the edges are (R22, R62). -/
def Forward (tl : Timeline) (a b : Nat) : Prop :=
  a ≤ b ∧ ((∀ e ∈ tl.edges, e ≤ tl.lastSample) → a ≤ tl.lastSample → b ≤ tl.lastSample)

/-- On a legal timeline a forward move ends within it. -/
theorem Forward.le_last {c : Cfg} {tl : Timeline} {a b : Nat} (h : Forward tl a b) (ht : TimelineLegal c tl)
    (ha : a ≤ tl.lastSample) : b ≤ tl.lastSample :=
  h.2 (fun _ he => edge_le_last ht he) ha

section
variable {α : Type} {c : Cfg} {tl : Timeline} {p : Pass} {r : Read α} {Q : α → Pass → Prop}

theorem ends_answered (h : Ends c tl p r Q) {v : α} {q : Pass} (hr : r = .ok v q) :
    OnlyCursorMoved p q ∧ Forward tl p.pos q.pos ∧ Q v q := by
  subst hr
  obtain ⟨hmoved, hle, hlast, hq⟩ := h
  exact ⟨hmoved, ⟨hle, hlast⟩, hq⟩

theorem ends_exhausted (h : Ends c tl p r Q) {x : Nat} (hr : r = .exhausted x) : Forward tl p.pos x := by
  subst hr
  exact h

theorem ends_suspended (h : Ends c tl p r Q) (hr : r = .suspended) : c.timelineKind = .unbounded := by
  subst hr
  exact h

end

/-- An iteration's decode moves the cursor forward to the end of what it decoded (R150, R163). -/
theorem decodeFor_answered {s : State} {d : Decoded} {p : Pass}
    (hd : decodeFor s.cfg s.tlb (leaveNoFrame s.pass) = .ok d p) :
    OnlyCursorMoved (leaveNoFrame s.pass) p ∧ Forward s.tlb s.pass.pos p.pos ∧ d.endSample = p.pos := by
  obtain ⟨hmoved, hforward, hend, -⟩ := ends_answered (decodeFor_ends ..) hd
  exact ⟨hmoved, leaveNoFrame_pos s.pass ▸ hforward, hend⟩

/-! ### What a synthesis command drives -/

/-- The synthesizer goes from `y` to `z` in `cost` bit-times: the line ends high, the edges are only appended to, and a
legal line stays legal (R71, R201, R205 to R207). -/
structure Driven (c : Cfg) (cost : Nat) (y z : Synth) : Prop where
  time : z.t = y.t + cost
  high : z.lvl = .high
  appends : y.edges <+: z.edges
  line : CfgLegal c → LineLegal c y → LineLegal c z

theorem drive_high_driven (c : Cfg) {n : Nat} (hn : 1 ≤ n) (y : Synth) : Driven c n y (drive c .high n y) where
  time := drive_t ..
  high := drive_lvl ..
  appends := drive_prefix ..
  line hc h := drive_legal hc h (.inl hn)

/-- A legal configuration's break and delimiter last at least a bit-time each (R6, R234). -/
theorem breakBits_pos {c : Cfg} (hc : CfgLegal c) : 1 ≤ c.synBreakBits ∧ 1 ≤ c.synDelimBits := by
  obtain ⟨-, -, -, -, hmin, -, -, -, hbreak, hdelim, -⟩ := hc
  exact ⟨by omega, hdelim⟩

theorem driveBreak_driven (c : Cfg) (y : Synth) : Driven c (breakCost c) y (driveBreak c y) := by
  obtain ⟨htime, hhigh, -, -, happends⟩ := driveBreak_line c y
  refine ⟨htime.trans (Nat.add_assoc ..), hhigh, happends, fun hc h => ?_⟩
  obtain ⟨hbreak, hdelim⟩ := breakBits_pos hc
  exact drive_legal hc (drive_legal hc h (.inl hbreak)) (.inl hdelim)

/-- The byte frame ends with its stop bit (R81). -/
theorem driveAll_byteCalls_lvl (c : Cfg) (b : Byte) (y : Synth) : (driveAll c (byteCalls b) y).lvl = .high := by
  simp [byteCalls, byteFrame, List.range, List.range.loop, driveAll]

/-- The gap may be empty, but it follows the stop bit, so it adds no edge either way (R207). -/
theorem driveByte_driven (c : Cfg) (b : Byte) (y : Synth) : Driven c (byteCost c) y (driveByte c b y) := by
  obtain ⟨htime, hhigh, -, -, happends⟩ := driveByte_line c b y
  refine ⟨htime.trans (Nat.add_assoc ..), hhigh, happends, fun hc h => ?_⟩
  rw [driveByte_eq]
  have hbits : ∀ call ∈ byteCalls b, 1 ≤ call.2 := by simp [byteCalls]
  exact drive_legal hc (driveAll_legal hc h hbits) (.inr (driveAll_byteCalls_lvl c b y).symm)

/-- The checksum registers have no part in the line. -/
theorem Driven.of_sums {c : Cfg} {cost : Nat} {y z : Synth} {k : Byte} {m : Bool}
    (h : Driven c cost { y with cks := k, sClassic := m } z) : Driven c cost y z where
  time := h.time
  high := h.high
  appends := h.appends
  line hc hy := h.line hc ⟨hy.rise, hy.before, hy.level⟩

/-! ### The effect of a command -/

/-- What the command `i` can leave of the state `s`. -/
inductive CommandEffect (i : Instr) (s : State) : State → Prop
  /-- A response and at most a new `CKt`: `CK.*`, `UT.*`, and the commands of a halted pass. -/
  | answer (k : Byte) (r : Response) : CommandEffect i s (respond r { s with ckt := k })
  /-- `Illegal` (R233). -/
  | refuse : CommandEffect i s (refuseCommand s)
  /-- A synthesis command that fits (R201). -/
  | drive (r : Response) {cost : Nat} {y : Synth} (hfits : synthFits s.cfg cost s.synth = true)
      (hy : Driven s.cfg cost s.synth y) : CommandEffect i s (respond r { s with synth := y })
  /-- `BD.*` answered (R119, R120). -/
  | decode (r : Response) {p : Pass} (hrun : s.pass.halted = .run) (hmoved : OnlyCursorMoved s.pass p)
      (hforward : Forward s.tlb s.pass.pos p.pos) : CommandEffect i s (respond r { s with pass := p })
  /-- A whole iteration (R150). -/
  | iteration {d : Decoded} {p : Pass} (hrun : s.pass.halted = .run)
      (hd : decodeFor s.cfg s.tlb (leaveNoFrame s.pass) = .ok d p) :
      CommandEffect i s (deliver (iterate s.cfg d p).ev { s with pass := (iterate s.cfg d p).pass })
  /-- `BD.*` out of timeline (R232). -/
  | exhaustDecode {x : Nat} (hrun : s.pass.halted = .run) (hforward : Forward s.tlb s.pass.pos x) :
      CommandEffect i s (respond (.exhausted x) { s with pass := exhaustPass s.pass x })
  /-- `FSM.STEP` out of timeline (R232). -/
  | exhaustStep {x : Nat} (hrun : s.pass.halted = .run) (hforward : Forward s.tlb s.pass.pos x) :
      CommandEffect i s (deliver [.exhausted x] { s with pass := exhaustPass (leaveNoFrame s.pass) x })
  /-- `FSM.STOP` of a running pass (R165). -/
  | cancel (hrun : s.pass.halted = .run) :
      CommandEffect i s (respond .ack { s with pass := { s.pass with halted := .cancelled } })
  /-- A request that an `UNBOUNDED` timeline cannot answer yet (R40, R69). -/
  | suspend (hi : i = .bdBrk ∨ i = .bdByte ∨ i = .fsmStep) (hrun : s.pass.halted = .run)
      (hkind : s.cfg.timelineKind = .unbounded) : CommandEffect i s (suspendCommand i s)

theorem runDecode_effect {i : Instr} {dec : Cfg → Timeline → Pass → Read Decoded} {answer : Decoded → Response}
    {s t : State} {Q : Decoded → Pass → Prop} (hi : i = .bdBrk ∨ i = .bdByte ∨ i = .fsmStep)
    (hends : Ends s.cfg s.tlb s.pass (dec s.cfg s.tlb s.pass) Q) (h : runDecode i dec answer s = .next t) :
    CommandEffect i s t := by
  obtain ⟨-, rfl⟩ | ⟨hrun, d, p, hd, rfl⟩ | ⟨hrun, x, hd, rfl⟩ | ⟨hrun, hd, rfl⟩ := runDecode_cases h
  · exact .answer s.ckt _
  · obtain ⟨hmoved, hforward, -⟩ := ends_answered hends hd
    exact .decode _ hrun hmoved hforward
  · exact .exhaustDecode hrun (ends_exhausted hends hd)
  · exact .suspend hi hrun (ends_suspended hends hd)

theorem execFsmStep_effect {s t : State} (h : execFsmStep s = .next t) : CommandEffect .fsmStep s t := by
  have hends := decodeFor_ends s.cfg s.tlb (leaveNoFrame s.pass)
  obtain ⟨-, rfl⟩ | ⟨hrun, d, p, hd, rfl⟩ | ⟨hrun, x, hd, rfl⟩ | ⟨hrun, hd, rfl⟩ := execFsmStep_cases h
  · exact .answer s.ckt _
  · exact .iteration hrun hd
  · exact .exhaustStep hrun (leaveNoFrame_pos s.pass ▸ ends_exhausted hends hd)
  · exact .suspend (.inr (.inr rfl)) hrun (ends_suspended hends hd)

theorem execFsmStop_effect {i : Instr} {s t : State} (h : execFsmStop s = .next t) : CommandEffect i s t := by
  unfold execFsmStop at h
  cases h
  split
  · next hrun => exact .cancel hrun
  · exact .answer s.ckt .ack

theorem synthesize_effect {i : Instr} {cost : Nat} {run : Synth → Synth} {s t : State}
    (hrun : Driven s.cfg cost s.synth (run s.synth)) (h : synthesize cost run s = .next t) : CommandEffect i s t := by
  rw [synthesize_next] at h
  cases h
  split
  · next hfits => exact .drive _ hfits hrun
  · exact .refuse

theorem execSyIdle_effect {i : Instr} {n : Byte} {s t : State} (h : execSyIdle n s = .next t) :
    CommandEffect i s t := by
  unfold execSyIdle at h
  split at h
  · cases h
    exact .refuse
  · next hn =>
    have hpos : 1 ≤ n.toNat := Nat.one_le_iff_ne_zero.2 (BitVec.toNat_ne.1 hn)
    exact synthesize_effect (drive_high_driven s.cfg hpos s.synth) h

theorem execSyPid_effect {i : Instr} {id : BitVec 6} {s t : State} (h : execSyPid id s = .next t) :
    CommandEffect i s t :=
  synthesize_effect (driveByte_driven s.cfg (parity id) (startChecksum s.cfg (parity id) s.synth)).of_sums h

theorem execSyData_effect {i : Instr} {b : Byte} {s t : State} (h : execSyData b s = .next t) :
    CommandEffect i s t :=
  synthesize_effect (driveByte_driven s.cfg b { s.synth with cks := sumAdd s.synth.cks b }).of_sums h

/-- Every command that answers a next state has one of the listed effects. -/
theorem exec_effect {i : Instr} {s t : State} (h : exec i s = .next t) : CommandEffect i s t := by
  cases i with
  | ckClr => cases h; exact .answer _ _
  | ckAdd b => cases h; exact .answer _ _
  | ckRes => cases h; exact .answer s.ckt _
  | bdBrk => exact runDecode_effect (.inl rfl) (breakDecode_ends ..) h
  | bdByte => exact runDecode_effect (.inr (.inl rfl)) (byteDecode_ends ..) h
  | fsmStep => exact execFsmStep_effect h
  | fsmStop => exact execFsmStop_effect h
  | syIdle n => exact execSyIdle_effect h
  | syBrk => exact synthesize_effect (driveBreak_driven ..) h
  | syByte b => exact synthesize_effect (driveByte_driven ..) h
  | syPid id => exact execSyPid_effect h
  | syData b => exact execSyData_effect h
  | syChk => exact synthesize_effect (driveByte_driven ..) h
  | utPar id => cases h; exact .answer s.ckt _
  | utRev b => cases h; exact .answer s.ckt _

/-! ### What every command keeps -/

section
variable {i : Instr} {s t : State}

/-- No command writes its inputs, and none clears the refusal mark (R20, R21, R233). -/
theorem CommandEffect.keeps_inputs (h : CommandEffect i s t) :
    t.cfg = s.cfg ∧ t.tlb = s.tlb ∧ t.inbox = s.inbox ∧ (s.refused = true → t.refused = true) := by
  cases h <;> simp

/-- Both output streams are only appended to (R70, R71). -/
theorem CommandEffect.appends (h : CommandEffect i s t) :
    (∃ ev, t.events = s.events ++ ev) ∧ ∃ new, t.synth.edges = s.synth.edges ++ new := by
  cases h
  case drive hy =>
    obtain ⟨new, hnew⟩ := hy.appends
    exact ⟨⟨[], by simp⟩, new, hnew.symm⟩
  all_goals simp

/-- The cursor never moves back (R22, R124). -/
theorem CommandEffect.pos_le (h : CommandEffect i s t) : s.pass.pos ≤ t.pass.pos := by
  cases h
  case decode hforward => exact hforward.1
  case iteration hd =>
    obtain ⟨-, hforward, -⟩ := decodeFor_answered hd
    simpa [iterate_cursor] using hforward.1
  case exhaustDecode hforward => exact hforward.1
  case exhaustStep hforward => exact hforward.1
  all_goals exact le_refl _

/-- Only a running pass changes, so a halted one stays as it halted (R31, R245). -/
theorem CommandEffect.halted_eq (h : CommandEffect i s t) (hs : s.pass.halted ≠ .run) :
    t.pass.halted = s.pass.halted := by
  cases h
  case decode hrun _ _ => exact absurd hrun hs
  case iteration hrun _ => exact absurd hrun hs
  case exhaustDecode hrun _ => exact absurd hrun hs
  case exhaustStep hrun _ => exact absurd hrun hs
  case cancel hrun => exact absurd hrun hs
  all_goals rfl

/-- A command leaves the request as it is, or is suspended: a decode of a running pass on an `UNBOUNDED` timeline
(R40, R69). -/
theorem CommandEffect.request_cases (h : CommandEffect i s t) :
    t.request = s.request ∨
    (t = suspendCommand i s ∧ (i = .bdBrk ∨ i = .bdByte ∨ i = .fsmStep) ∧ s.pass.halted = .run ∧
      s.cfg.timelineKind = .unbounded) := by
  cases h
  case suspend hi hrun hkind => exact .inr ⟨rfl, hi, hrun, hkind⟩
  all_goals exact .inl rfl

end

/-- Settles O39: of the effects of a command only a suspension sets the request. -/
theorem suspendedCommandHasNoEffectYet : Obligations.SuspendedCommandHasNoEffectYet := by
  intro i j s t hnone h hj
  obtain hsame | ⟨rfl, hi, hrun, hkind⟩ := (exec_effect h).request_cases
  · rw [hsame, hnone] at hj
    cases hj
  · cases hj
    exact ⟨rfl, hi, hrun, hkind, rfl⟩

/-- Settles O41: each clause holds of every effect. -/
theorem commandsOnlyAppendAndAdvance : Obligations.CommandsOnlyAppendAndAdvance := by
  intro i s t h
  have heffect := exec_effect h
  obtain ⟨hcfg, htlb, hinbox, hrefused⟩ := heffect.keeps_inputs
  obtain ⟨hevents, hedges⟩ := heffect.appends
  exact ⟨hcfg, htlb, hinbox, hevents, hedges, heffect.pos_le, heffect.halted_eq, hrefused⟩

end Sys2Proof.Proofs
end

section
/-! PROOFS. The invariants of the registers and of the synthesizer: what every step keeps (R22 to R34, R40, R71, R246).
An invariant is kept by a step if it does not depend on the host's side of the ports, holds after a legal reset, and
is kept by a delivery and by the effect of every command (`step_keeps`). -/

namespace Sys2Proof.Proofs

open Sys2Proof Sys2Proof.Machine Sys2Proof.Safety Sys2Proof.Laws

/-! ### An invariant over a step -/

/-- The ports with no command in progress: the inbox, the response and the refusal mark are whatever they are. -/
def withPorts (inbox : List HostInput) (response : Option Response) (refused : Bool) (s : State) : State :=
  { s with inbox := inbox, response := response, refused := refused, request := none }

/-- An invariant `P` over a step, from its four parts (R72). -/
theorem step_keeps {P : State → Prop}
    (ports : ∀ inbox response refused s, P s → P (withPorts inbox response refused s))
    (reset : ∀ inputs, InputsLegal inputs → P (State.ofInputs inputs))
    (delivery : ∀ s x, P s → SupplyLegal s.cfg s.tlb x → P { s with tlb := extendTimeline s.tlb x })
    (command : ∀ i s t, P s → s.request = none → CommandEffect i s t → P t)
    {s t : State} (hs : P s) (h : step s = .next t) : P t := by
  obtain hhold | ⟨i, u, hrun, hexec⟩ := step_cases h
  · obtain rfl | ⟨hreq, w, rest, -, rfl⟩ | ⟨inputs, rest, -, hin, rfl⟩ | ⟨hreq, x, rest, -, hx, rfl⟩ :=
      nextTurn_hold_cases hhold
    · exact hs
    · have hports := ports rest (some .illegal) true s hs
      rw [withPorts, ← hreq] at hports
      exact hports
    · exact ports rest none s.refused _ (reset inputs hin)
    · have hports := ports rest s.response s.refused _ (delivery s x hs hx)
      rw [withPorts, ← hreq] at hports
      exact hports
  · obtain ⟨hreq, w, rest, -, -, rfl⟩ | ⟨-, x, rest, -, hx, rfl⟩ := nextTurn_run_cases hrun
    · have hports := ports rest s.response s.refused s hs
      rw [withPorts, ← hreq] at hports
      exact command i _ t hports hreq (exec_effect hexec)
    · exact command i _ t (ports rest s.response s.refused _ (delivery s x hs hx)) rfl (exec_effect hexec)

/-! ### The cursor -/

/-- The cursor stays legal when it moves forward and `last_end` stays or becomes the new cursor (R22, R29). -/
theorem cursorLegal_of_forward {s t : State} (hs : CursorLegal s) (ht : TimelineLegal s.cfg s.tlb)
    (htlb : t.tlb = s.tlb) (hforward : Forward s.tlb s.pass.pos t.pass.pos)
    (hend : t.pass.lastEnd = s.pass.lastEnd ∨ t.pass.lastEnd = t.pass.pos) : CursorLegal t := by
  obtain ⟨hs0, hlast, hpos⟩ := hs
  have hle := hforward.1
  have hpos' := hforward.le_last ht hpos
  rw [CursorLegal, htlb]
  omega

theorem CommandEffect.cursorLegal {i : Instr} {s t : State} (h : CommandEffect i s t) (ht : TimelineLegal s.cfg s.tlb)
    (hs : CursorLegal s) : CursorLegal t := by
  cases h
  case decode hmoved hforward =>
    obtain ⟨-, -, -, -, -, -, hend, -, -⟩ := cursorMoved_fields hmoved
    exact cursorLegal_of_forward hs ht rfl hforward (.inl hend)
  case iteration d p _ hd =>
    obtain ⟨-, hforward, hend⟩ := decodeFor_answered hd
    obtain ⟨hpos, -, hlast⟩ := iterate_cursor s.cfg d p
    exact cursorLegal_of_forward hs ht rfl (by simpa [hpos] using hforward)
      (.inr (by simp [hpos, hlast, hend]))
  case exhaustDecode hforward => exact cursorLegal_of_forward hs ht rfl hforward (.inl rfl)
  case exhaustStep hforward => exact cursorLegal_of_forward hs ht rfl hforward (.inl (leaveNoFrame_lastEnd _))
  all_goals exact hs

/-! ### The frame registers -/

/-- `FsmLegal` as a predicate of the configuration and the pass, so that it can be followed through an iteration. -/
structure FrameRegsLegal (c : Cfg) (p : Pass) : Prop where
  count_le : p.byteCount ≤ c.maxResponseBytes
  count_data : p.fstate = .responseData → 1 ≤ p.byteCount ∧ p.byteCount < c.maxResponseBytes
  count_full : p.fstate = .responseChecksum → p.byteCount = c.maxResponseBytes
  packet : p.packetOpen = insidePacket p.fstate
  spaces : p.packetOpen = true → p.showIbs = true

theorem fsmLegal_iff {s : State} : FsmLegal s ↔ FrameRegsLegal s.cfg s.pass :=
  ⟨fun ⟨hle, hdata, hfull, hpacket, hspaces⟩ => ⟨hle, hdata, hfull, hpacket, hspaces⟩,
    fun h => ⟨h.count_le, h.count_data, h.count_full, h.packet, h.spaces⟩⟩

/-- The cursor, `last_end` and `halted` are no frame registers. -/
theorem FrameRegsLegal.withCursor {c : Cfg} {p : Pass} (h : FrameRegsLegal c p) (pos lastEnd : Nat) (halted : Halt) :
    FrameRegsLegal c { p with pos := pos, lastEnd := lastEnd, halted := halted } :=
  ⟨h.count_le, h.count_data, h.count_full, h.packet, h.spaces⟩

theorem frameRegsLegal_of_cursorMoved {c : Cfg} {p q : Pass} (h : FrameRegsLegal c p) (hmoved : OnlyCursorMoved p q) :
    FrameRegsLegal c q := by
  rw [hmoved]
  exact ⟨h.count_le, h.count_data, h.count_full, h.packet, h.spaces⟩

/-- `NoFrame` and `HeaderBreak` are both outside packets (R152). -/
theorem leaveNoFrame_frameRegsLegal {c : Cfg} {p : Pass} (h : FrameRegsLegal c p) :
    FrameRegsLegal c (leaveNoFrame p) := by
  unfold leaveNoFrame
  split
  · next hf => exact ⟨h.count_le, by simp, by simp, by simp [h.packet, hf, insidePacket], h.spaces⟩
  · exact h

/-- A pass that has left its packet, or never was in one, is legal in `NoFrame`. -/
theorem frameRegsLegal_noFrame {c : Cfg} {p : Pass} (h : FrameRegsLegal c p) :
    FrameRegsLegal c { p with packetOpen := false, fstate := .noFrame } :=
  ⟨h.count_le, by simp, by simp, rfl, by simp⟩

/-- A confirmed break is inside its packet, with spaces shown and no byte counted (R155, R157). -/
theorem confirmBreak_frameRegsLegal (c : Cfg) (d : Decoded) (v : Byte) (fl : BitVec 4) (x : Iteration) :
    FrameRegsLegal c (confirmBreak d v fl x).pass := by
  rw [confirmBreak_pass]
  exact ⟨Nat.zero_le _, by simp, by simp, rfl, fun _ => rfl⟩

/-- The response states, by the number of bytes counted (R160, R161). -/
def responseState (c : Cfg) (count : Nat) : FState :=
  if count < c.maxResponseBytes then .responseData else .responseChecksum

/-- A pass inside its packet that has counted a byte, and no more than a response holds, is legal in the response state
of its count. -/
theorem frameRegsLegal_responseState {c : Cfg} {p : Pass} (hopen : p.packetOpen = true) (hspaces : p.showIbs = true)
    (hone : 1 ≤ p.byteCount) (hle : p.byteCount ≤ c.maxResponseBytes)
    (hf : p.fstate = responseState c p.byteCount) : FrameRegsLegal c p := by
  rw [responseState] at hf
  split at hf
  · next hlt => exact ⟨hle, fun _ => ⟨hone, hlt⟩, by simp [hf], by simp [hopen, hf, insidePacket], fun _ => hspaces⟩
  · next hfull =>
    exact ⟨hle, by simp [hf], fun _ => Nat.le_antisymm hle (Nat.le_of_not_lt hfull),
      by simp [hopen, hf, insidePacket], fun _ => hspaces⟩

/-- What `DataArm` leaves in the pass: the byte summed and counted, and the state of that count (R161). -/
theorem dataArm_pass (c : Cfg) (d : Decoded) (fl : BitVec 4) (x : Iteration) (hf : x.pass.fstate = .responseData) :
    (dataArm c d fl x).pass = { x.pass with
      ckd := sumAdd x.pass.ckd d.value, byteCount := x.pass.byteCount + 1,
      fstate := responseState c (x.pass.byteCount + 1) } := by
  by_cases hfull : c.maxResponseBytes ≤ x.pass.byteCount + 1
  · simp [dataArm, responseState, hfull, Nat.not_lt.2 hfull]
  · simp [dataArm, responseState, hfull, Nat.lt_of_not_le hfull, ← hf]

section
variable {c : Cfg} {x : Iteration} (h : FrameRegsLegal c x.pass) (d : Decoded) (fl : BitVec 4)
include h

theorem headerBreakArm_frameRegsLegal : FrameRegsLegal c (headerBreakArm d fl x).pass := by
  unfold headerBreakArm
  split
  · exact confirmBreak_frameRegsLegal ..
  · simpa using frameRegsLegal_noFrame h

theorem headerSyncArm_frameRegsLegal (hf : x.pass.fstate = .headerSync) :
    FrameRegsLegal c (headerSyncArm d fl x).pass := by
  unfold headerSyncArm
  split
  · exact ⟨h.count_le, by simp, by simp, by simp [h.packet, hf, insidePacket], h.spaces⟩
  · simpa using frameRegsLegal_noFrame h

theorem headerPidArm_frameRegsLegal (hf : x.pass.fstate = .headerPid) :
    FrameRegsLegal c (headerPidArm c d fl x).pass :=
  ⟨h.count_le, by simp [headerPidArm], by simp [headerPidArm], by simp [headerPidArm, h.packet, hf, insidePacket],
    h.spaces⟩

/-- The first response byte moves on to the state of one byte counted (R160). -/
theorem dataZeroArm_frameRegsLegal (hmax : 1 ≤ c.maxResponseBytes) (hf : x.pass.fstate = .responseDataZero) :
    FrameRegsLegal c (dataZeroArm c d fl x).pass := by
  have hopen : x.pass.packetOpen = true := by rw [h.packet, hf]; rfl
  exact frameRegsLegal_responseState hopen (h.spaces hopen) (le_refl _) hmax rfl

/-- A later response byte is counted, and moves on to the state of that count (R161). -/
theorem dataArm_frameRegsLegal (hf : x.pass.fstate = .responseData) : FrameRegsLegal c (dataArm c d fl x).pass := by
  have hopen : x.pass.packetOpen = true := by rw [h.packet, hf]; rfl
  have hlt := (h.count_data hf).2
  rw [dataArm_pass c d fl x hf]
  exact frameRegsLegal_responseState hopen (h.spaces hopen) (Nat.le_add_left ..) hlt rfl

theorem checksumArm_frameRegsLegal : FrameRegsLegal c (checksumArm d fl x).pass := by
  simpa [checksumArm] using frameRegsLegal_noFrame h

/-- Whichever arm an iteration takes, and a disguised break in its place, it keeps the frame registers legal (R150). -/
theorem arm_frameRegsLegal (hmax : 1 ≤ c.maxResponseBytes) : FrameRegsLegal c (arm c d x).pass := by
  have orBreak : ∀ y : Iteration, FrameRegsLegal c y.pass →
      FrameRegsLegal c (if d.brk then breakInByteArm d x else y).pass := by
    intro y hy
    split
    · exact confirmBreak_frameRegsLegal ..
    · exact hy
  unfold arm
  split
  · exact headerBreakArm_frameRegsLegal h d _
  · exact headerBreakArm_frameRegsLegal h d _
  · next hf => exact orBreak _ (headerSyncArm_frameRegsLegal h d _ hf)
  · next hf => exact orBreak _ (headerPidArm_frameRegsLegal h d _ hf)
  · next hf => exact orBreak _ (dataZeroArm_frameRegsLegal h d _ hmax hf)
  · next hf => exact orBreak _ (dataArm_frameRegsLegal h d _ hf)
  · exact orBreak _ (checksumArm_frameRegsLegal h d _)

end

theorem iterate_frameRegsLegal {c : Cfg} {p : Pass} (h : FrameRegsLegal c p) (hmax : 1 ≤ c.maxResponseBytes)
    (d : Decoded) : FrameRegsLegal c (iterate c d p).pass := by
  have hgap : FrameRegsLegal c (emitGap d { pass := p, ev := [] }).pass := by rwa [emitGap_pass]
  exact (arm_frameRegsLegal hgap d hmax).withCursor _ _ _

theorem CommandEffect.frameRegsLegal {i : Instr} {s t : State} (h : CommandEffect i s t)
    (hmax : 1 ≤ s.cfg.maxResponseBytes) (hs : FrameRegsLegal s.cfg s.pass) : FrameRegsLegal t.cfg t.pass := by
  have hleave : FrameRegsLegal s.cfg (leaveNoFrame s.pass) := leaveNoFrame_frameRegsLegal hs
  cases h
  case decode hmoved _ => exact frameRegsLegal_of_cursorMoved hs hmoved
  case iteration d p _ hd =>
    obtain ⟨hmoved, -, -⟩ := decodeFor_answered hd
    exact iterate_frameRegsLegal (frameRegsLegal_of_cursorMoved hleave hmoved) hmax d
  case exhaustDecode => exact hs.withCursor _ _ _
  case exhaustStep => exact hleave.withCursor _ _ _
  case cancel => exact hs.withCursor _ _ _
  all_goals exact hs

/-! ### The registers over a step -/

/-- The registers' part of `BlockLegal`. -/
abbrev RegistersLegal (s : State) : Prop := InputsHeld s ∧ CursorLegal s ∧ FsmLegal s ∧ RequestLegal s

theorem requestLegal_of_idle {s : State} (h : s.request = none) : RequestLegal s := fun i hi => by
  rw [h] at hi
  cases hi

/-- A delivery moves the end of the timeline on and nothing else (R69, R261). -/
theorem delivery_registersLegal {s : State} {x : Supply} (hs : RegistersLegal s) (hx : SupplyLegal s.cfg s.tlb x) :
    RegistersLegal { s with tlb := extendTimeline s.tlb x } := by
  obtain ⟨⟨hcfg, htlb⟩, ⟨hs0, hlast, hpos⟩, hfsm, hrequest⟩ := hs
  have hlonger : s.tlb.lastSample ≤ x.upTo := hx.2.1
  exact ⟨⟨hcfg, extendTimeline_legal htlb hx⟩, ⟨hs0, hlast, hpos.trans hlonger⟩, hfsm, hrequest⟩

theorem CommandEffect.requestLegal {i : Instr} {s t : State} (h : CommandEffect i s t) (hidle : s.request = none) :
    RequestLegal t := by
  obtain hsame | ⟨rfl, hi, hrun, hkind⟩ := h.request_cases
  · exact requestLegal_of_idle (hsame.trans hidle)
  · intro j hj
    cases hj
    exact ⟨hi, hrun, hkind⟩

theorem CommandEffect.registersLegal {i : Instr} {s t : State} (h : CommandEffect i s t) (hs : RegistersLegal s)
    (hidle : s.request = none) : RegistersLegal t := by
  obtain ⟨⟨hcfg, htlb⟩, hcursor, hfsm, -⟩ := hs
  obtain ⟨hcfg', htlb', -, -⟩ := h.keeps_inputs
  have hmax : 1 ≤ s.cfg.maxResponseBytes := by
    obtain ⟨-, -, -, -, -, -, hmax, -⟩ := hcfg
    exact hmax
  have hheld : InputsHeld t := by
    rw [InputsHeld, hcfg', htlb']
    exact ⟨hcfg, htlb⟩
  exact ⟨hheld, h.cursorLegal htlb hcursor, fsmLegal_iff.2 (h.frameRegsLegal hmax (fsmLegal_iff.1 hfsm)),
    h.requestLegal hidle⟩

/-- Settles O56: the registers' invariant over a reset, a delivery and every effect of a command. -/
theorem everyStepKeepsTheRegistersLegal : Obligations.EveryStepKeepsTheRegistersLegal := by
  intro s t hblock hstep
  obtain ⟨hheld, hcursor, hfsm, hrequest, -⟩ := hblock
  refine step_keeps (P := RegistersLegal) ?ports ?reset ?delivery ?command ⟨hheld, hcursor, hfsm, hrequest⟩ hstep
  case ports => exact fun _ _ _ _ ⟨hheld, hcursor, hfsm, _⟩ => ⟨hheld, hcursor, hfsm, requestLegal_of_idle rfl⟩
  case reset =>
    intro inputs hin
    obtain ⟨hheld, hcursor, hfsm, hrequest, -⟩ := ofInputs_blockLegal hin
    exact ⟨hheld, hcursor, hfsm, hrequest⟩
  case delivery => exact fun _ _ hs hx => delivery_registersLegal hs hx
  case command => exact fun _ _ _ hs hidle heffect => heffect.registersLegal hs hidle

/-! ### The synthesizer over a step -/

/-- A line that is high has an even number of edges (R71, R201). -/
theorem LineLegal.even_of_high {c : Cfg} {y : Synth} (h : LineLegal c y) (hhigh : y.lvl = .high) :
    y.edges.length % 2 = 0 := by
  by_contra hodd
  have hlow := h.level
  rw [if_neg hodd, hhigh] at hlow
  cases hlow

/-- A synthesis command that fits leaves the synthesizer legal (R201). -/
theorem synthLegal_of_driven {s t : State} {cost : Nat} (hc : CfgLegal s.cfg) (hs : SynthLegal s) (hcfg : t.cfg = s.cfg)
    (hfits : synthFits s.cfg cost s.synth = true) (hy : Driven s.cfg cost s.synth t.synth) : SynthLegal t := by
  obtain ⟨ht, hend⟩ := of_decide_eq_true hfits
  have hline := hy.line hc (synthLegal_line hs)
  rw [SynthLegal, hcfg]
  exact ⟨hy.time ▸ ht, hy.time ▸ hend, hy.high, hline.rise, LineLegal.even_of_high hline hy.high, hline.before⟩

theorem CommandEffect.synthLegal {i : Instr} {s t : State} (h : CommandEffect i s t) (hc : CfgLegal s.cfg)
    (hs : SynthLegal s) : SynthLegal t := by
  cases h
  case drive hfits hy => exact synthLegal_of_driven hc hs rfl hfits hy
  all_goals exact hs

/-- Settles O60: only a synthesis command that fits, and a reset, write the synthesizer. -/
theorem everyStepKeepsTheSynthesizerLegal : Obligations.EveryStepKeepsTheSynthesizerLegal := by
  intro s t hblock hstep
  obtain ⟨⟨hcfg, -⟩, -, -, -, -, -, -, hsynth⟩ := hblock
  refine (step_keeps (P := fun u => CfgLegal u.cfg ∧ SynthLegal u) ?ports ?reset ?delivery ?command
    ⟨hcfg, hsynth⟩ hstep).2
  case ports => exact fun _ _ _ _ hs => hs
  case reset => exact fun inputs hin => ⟨hin.1, ofInputs_synthLegal inputs⟩
  case delivery => exact fun _ _ hs _ => hs
  case command =>
    intro i s t hs _ heffect
    obtain ⟨hcfg', -⟩ := heffect.keeps_inputs
    exact ⟨hcfg' ▸ hs.1, heffect.synthLegal hs.1 hs.2⟩

end Sys2Proof.Proofs
end

section
/-! PROOFS. The timeline (R61, R69, R217): the level changes at the edges only, the synthesized line is a timeline to
bind, and a command that completes reads nothing that a later delivery could change. -/

namespace Sys2Proof.Proofs

open Sys2Proof Sys2Proof.Machine Sys2Proof.Safety Sys2Proof.Laws

/-! ### The level -/

/-- Before the first edge the level is `L0` (R61). -/
theorem levelAt_of_no_edge_yet {tl : Timeline} {x : Nat} (h : ∀ e ∈ tl.edges, x < e) : levelAt tl x = tl.l0 := by
  have hnone : tl.edges.countP (fun e => decide (e ≤ x)) = 0 := by
    simpa [List.countP_eq_zero] using h
  rw [levelAt, hnone]
  rfl

/-- Settles O17: one sample on, the level follows from whether that sample is an edge; and no edge lies before `S0`. -/
theorem levelChangesExactlyAtEdges : Obligations.LevelChangesExactlyAtEdges := by
  intro c tl x ht
  refine ⟨fun hedge => ?_, fun hquiet => ?_, fun hs0 => levelAt_of_no_edge_yet fun e he => ?_⟩
  · rw [levelAt_succ ht, if_pos hedge]
    exact otherLevel_ne _
  · rw [levelAt_succ ht, if_neg hquiet]
  · obtain ⟨-, -, -, hrange⟩ := ht
    exact lt_of_le_of_ne (hrange e he).1 fun h => hs0 (h ▸ he)

/-! ### The synthesized line -/

/-- The synthesized line up to the present bit-time is a legal timeline (R71, R217, R234). -/
theorem synthTimeline_legal {s : State} (h : SynthLegal s) : TimelineLegal s.cfg (synthTimeline s.cfg s.synth) := by
  obtain ⟨-, hend, -, hrise, -, hbefore⟩ := h
  exact ⟨Nat.zero_le _, hend, hrise, fun e he => ⟨Nat.zero_le _, (hbefore e he).le⟩⟩

/-- Settles O49: no condition of R234 reads the timeline's kind. -/
theorem synthesizedTimelineCanBeBound : Obligations.SynthesizedTimelineCanBeBound :=
  fun _ _ hc hs => resetWith_of_legal ⟨hc, synthTimeline_legal hs⟩

/-! ### A command on a `FINITE` timeline -/

/-- Without a suspension a command leaves the request and has its response (R69, R97). -/
theorem CommandEffect.completes_of_finite {i : Instr} {s t : State} (h : CommandEffect i s t)
    (hfinite : s.cfg.timelineKind = .finite) : t.request = s.request ∧ t.response ≠ none := by
  cases h
  case suspend hkind => exact absurd (hfinite.symm.trans hkind) (by decide)
  all_goals exact ⟨rfl, by simp⟩

/-- Settles O38: of the effects of a command only a suspension leaves a request and no response. -/
theorem finiteTimelineNeverSuspends : Obligations.FiniteTimelineNeverSuspends := by
  intro i s t hfinite hidle h
  obtain ⟨hrequest, hresponse⟩ := (exec_effect h).completes_of_finite hfinite
  exact ⟨hrequest.trans hidle, hresponse⟩

/-! ### A command and a delivery -/

section
variable {α : Type} {tl : Timeline} {r r' : Read α}

theorem keeps_answered (h : Keeps tl r r') {v : α} {p : Pass} (hr : r = .ok v p) : r' = .ok v p := by
  subst hr
  exact h.1

theorem keeps_exhausted (h : Keeps tl r r') {q : Nat} (hr : r = .exhausted q) : r' = .exhausted q := by
  subst hr
  exact h

end

/-- An iteration's decode ends the same with more supplied (R150, R261). -/
theorem decodeFor_keeps {c : Cfg} {tl : Timeline} {x : Supply} (h : Grows c tl x) (p : Pass) :
    Keeps tl (decodeFor c tl p) (decodeFor c (extendTimeline tl x) p) := by
  unfold decodeFor
  split
  · exact breakDecode_keeps h p
  · exact byteDecode_keeps h p

/-- `BD.BRK` and `BD.BYTE` complete the same on the timeline `tl` if their decode ends the same there. -/
theorem runDecode_withTimeline {i : Instr} {dec : Cfg → Timeline → Pass → Read Decoded} {answer : Decoded → Response}
    {s t : State} {tl : Timeline} (hkeeps : Keeps s.tlb (dec s.cfg s.tlb s.pass) (dec s.cfg tl s.pass))
    (h : runDecode i dec answer s = .next t) (hdone : t.request = none) :
    runDecode i dec answer { s with tlb := tl } = .next { t with tlb := tl } := by
  obtain ⟨hhalt, rfl⟩ | ⟨hrun, d, p, hd, rfl⟩ | ⟨hrun, q, hd, rfl⟩ | ⟨-, -, rfl⟩ := runDecode_cases h
  · exact if_neg hhalt
  · simp only [runDecode, hrun, keeps_answered hkeeps hd, if_true]
    rfl
  · simp only [runDecode, hrun, keeps_exhausted hkeeps hd, if_true]
    rfl
  · cases hdone

/-- `FSM.STEP` completes the same on the timeline `tl` if its decode ends the same there. -/
theorem execFsmStep_withTimeline {s t : State} {tl : Timeline}
    (hkeeps : Keeps s.tlb (decodeFor s.cfg s.tlb (leaveNoFrame s.pass)) (decodeFor s.cfg tl (leaveNoFrame s.pass)))
    (h : execFsmStep s = .next t) (hdone : t.request = none) :
    execFsmStep { s with tlb := tl } = .next { t with tlb := tl } := by
  obtain ⟨hhalt, rfl⟩ | ⟨hrun, d, p, hd, rfl⟩ | ⟨hrun, q, hd, rfl⟩ | ⟨-, -, rfl⟩ := execFsmStep_cases h
  · exact if_neg hhalt
  · simp only [execFsmStep, hrun, keeps_answered hkeeps hd, if_true]
    rfl
  · simp only [execFsmStep, hrun, keeps_exhausted hkeeps hd, if_true]
    rfl
  · cases hdone

theorem execFsmStop_withTimeline {s t : State} (tl : Timeline) (h : execFsmStop s = .next t) :
    execFsmStop { s with tlb := tl } = .next { t with tlb := tl } := by
  by_cases hrun : s.pass.halted = .run
  all_goals
    simp only [execFsmStop, hrun, if_true, if_false] at h ⊢
    cases h
    rfl

/-- A synthesis command does the same on any timeline. -/
theorem KeepsToSynth.withTimeline {f : State → Host.Outcome State Fault Refusal} (hf : KeepsToSynth f) {s t : State}
    (tl : Timeline) (h : f s = .next t) : f { s with tlb := tl } = .next { t with tlb := tl } := by
  obtain ⟨hframe, hany⟩ := hf s t h
  refine (hany s.pass tl s.events s.ckt).trans (congrArg _ ?_)
  rw [hframe]

/-- Settles O40: the decodes end the same with more supplied, and the other commands read no timeline. -/
theorem deliveryDoesNotChangeACompletedCommand : Obligations.DeliveryDoesNotChangeACompletedCommand := by
  intro i s t x ht hx h hdone
  have hgrows : Grows s.cfg s.tlb x := ⟨ht, hx⟩
  cases i with
  | bdBrk => exact runDecode_withTimeline (breakDecode_keeps hgrows s.pass) h hdone
  | bdByte => exact runDecode_withTimeline (byteDecode_keeps hgrows s.pass) h hdone
  | fsmStep => exact execFsmStep_withTimeline (decodeFor_keeps hgrows (leaveNoFrame s.pass)) h hdone
  | fsmStop => exact execFsmStop_withTimeline _ h
  | syIdle n => exact (execSyIdle_keepsToSynth n).withTimeline _ h
  | syBrk => exact (synthesize_keepsToSynth _ _).withTimeline _ h
  | syByte b => exact (synthesize_keepsToSynth _ _).withTimeline _ h
  | syPid id => exact (execSyPid_keepsToSynth id).withTimeline _ h
  | syData b => exact (execSyData_keepsToSynth b).withTimeline _ h
  | syChk => exact (synthesize_keepsToSynth _ _).withTimeline _ h
  | ckClr | ckAdd | ckRes | utPar | utRev =>
    cases h
    rfl

end Sys2Proof.Proofs
end

section
/-! PROOFS. Where the timeline runs out (R64 to R69, R73, R232): with no edge left after the cursor, and, for each
decode and each command, exactly when it is exhausted and at which cursor. -/

namespace Sys2Proof.Proofs

open Sys2Proof Sys2Proof.Machine Sys2Proof.Safety Sys2Proof.Laws

/-! ### No edge left -/

theorem andThen_noEdge {α β : Type} (c : Cfg) (p : Pass) (f : α → Pass → Read β) :
    andThen (noEdge c p) f = noEdge c p := by
  unfold noEdge
  cases c.timelineKind <;> rfl

section
variable {c : Cfg} {tl : Timeline} {p : Pass} (h : ∀ e ∈ tl.edges, e ≤ p.pos)
include h

theorem waitFalling_of_no_edge : waitFalling c tl p = noEdge c p := by
  simp only [waitFalling, tlAdvanceToNextEdge, edgeAfter_none.2 h, andThen_noEdge]

theorem byteDecode_of_no_edge : byteDecode c tl p = noEdge c p := by
  rw [byteDecode, waitFalling_of_no_edge h, andThen_noEdge]

theorem seekBreak_of_no_edge (turns : Nat) : seekBreak c tl turns p = noEdge c p := by
  cases turns with
  | zero => rfl
  | succ turns => rw [seekBreak, measureLowRun, waitFalling_of_no_edge h, andThen_noEdge, andThen_noEdge]

theorem breakDecode_of_no_edge : breakDecode c tl p = noEdge c p := by
  rw [breakDecode, seekBreak_of_no_edge h, andThen_noEdge]

theorem decodeFor_of_no_edge : decodeFor c tl p = noEdge c p := by
  rw [decodeFor, breakDecode_of_no_edge h, byteDecode_of_no_edge h, ite_self]

end

/-! ### The exhausted and the suspended command -/

/-- The state in which `BD.BRK` or `BD.BYTE` leaves `s`, exhausted with the cursor at `q` (R232). -/
def exhaustedAt (s : State) (q : Nat) : State := respond (.exhausted q) { s with pass := exhaustPass s.pass q }

/-- The state in which `FSM.STEP` leaves `s`, exhausted with the cursor at `q` (R152, R232). -/
def stepExhaustedAt (s : State) (q : Nat) : State :=
  deliver [.exhausted q] { s with pass := exhaustPass (leaveNoFrame s.pass) q }

/-- `FSM.STEP` exhausted, register by register. -/
theorem stepExhaustedAt_eq (s : State) (q : Nat) :
    stepExhaustedAt s q = { s with
      pass := { s.pass with pos := q, halted := .exhausted,
                            fstate := if s.pass.fstate = .noFrame then .headerBreak else s.pass.fstate },
      events := s.events ++ [.exhausted q], response := some (.events [.exhausted q]) } := by
  rw [stepExhaustedAt, leaveNoFrame_eq]
  rfl

section
variable {i : Instr} {dec : Cfg → Timeline → Pass → Read Decoded} {answer : Decoded → Response} {s t : State} {q : Nat}
  (hrun : s.pass.halted = .run)
include hrun

theorem runDecode_of_exhausted (hd : dec s.cfg s.tlb s.pass = .exhausted q) :
    runDecode i dec answer s = .next (exhaustedAt s q) := by
  simp only [runDecode, hrun, hd, if_true]
  rfl

theorem runDecode_of_suspended (hd : dec s.cfg s.tlb s.pass = .suspended) :
    runDecode i dec answer s = .next (suspendCommand i s) := by
  simp only [runDecode, hrun, hd, if_true]

theorem execFsmStep_of_exhausted (hd : decodeFor s.cfg s.tlb (leaveNoFrame s.pass) = .exhausted q) :
    execFsmStep s = .next (stepExhaustedAt s q) := by
  simp only [execFsmStep, hrun, hd, if_true]
  rfl

theorem execFsmStep_of_suspended (hd : decodeFor s.cfg s.tlb (leaveNoFrame s.pass) = .suspended) :
    execFsmStep s = .next (suspendCommand .fsmStep s) := by
  simp only [execFsmStep, hrun, hd, if_true]

/-- Of the ways a decode command of a running pass ends, only exhaustion sets `halted` (R31, R119, R120). -/
theorem runDecode_exhausts {Q : Decoded → Pass → Prop}
    (hends : Ends s.cfg s.tlb s.pass (dec s.cfg s.tlb s.pass) Q) (h : runDecode i dec answer s = .next t)
    (hx : t.pass.halted = .exhausted) :
    ∃ q, s.pass.pos ≤ q ∧ dec s.cfg s.tlb s.pass = .exhausted q ∧ t = exhaustedAt s q := by
  obtain ⟨hhalt, -⟩ | ⟨-, d, p, hd, rfl⟩ | ⟨-, q, hd, rfl⟩ | ⟨-, -, rfl⟩ := runDecode_cases h
  · exact absurd hrun hhalt
  · obtain ⟨hmoved, -, -⟩ := ends_answered hends hd
    obtain ⟨-, -, -, -, -, -, -, -, hhalted⟩ := cursorMoved_fields hmoved
    exact absurd (hx.symm.trans (hhalted.trans hrun)) (by decide)
  · obtain ⟨hle, -⟩ := ends_exhausted hends hd
    exact ⟨q, hle, hd, rfl⟩
  · exact absurd (hx.symm.trans hrun) (by decide)

/-- Of the ways `FSM.STEP` of a running pass ends, only exhaustion sets `halted` (R31, R150). -/
theorem execFsmStep_exhausts (h : execFsmStep s = .next t) (hx : t.pass.halted = .exhausted) :
    ∃ q, s.pass.pos ≤ q ∧ decodeFor s.cfg s.tlb (leaveNoFrame s.pass) = .exhausted q ∧ t = stepExhaustedAt s q := by
  obtain ⟨hhalt, -⟩ | ⟨-, d, p, hd, rfl⟩ | ⟨-, q, hd, rfl⟩ | ⟨-, -, rfl⟩ := execFsmStep_cases h
  · exact absurd hrun hhalt
  · obtain ⟨hmoved, -, -⟩ := decodeFor_answered hd
    obtain ⟨-, -, -, -, -, -, -, -, hhalted⟩ := cursorMoved_fields hmoved
    obtain ⟨-, hkept, -⟩ := iterate_cursor s.cfg d p
    have hrun' : (iterate s.cfg d p).pass.halted = .run := by
      rw [hkept, hhalted, leaveNoFrame_halted, hrun]
    exact absurd (hx.symm.trans hrun') (by decide)
  · obtain ⟨hle, -⟩ := ends_exhausted (decodeFor_ends ..) hd
    exact ⟨q, leaveNoFrame_pos s.pass ▸ hle, hd, rfl⟩
  · exact absurd (hx.symm.trans hrun) (by decide)

/-- A decode command is exhausted at `q` exactly when its decode is. -/
theorem runDecode_exhausted_iff {Q : Decoded → Pass → Prop}
    (hends : Ends s.cfg s.tlb s.pass (dec s.cfg s.tlb s.pass) Q) :
    runDecode i dec answer s = .next (exhaustedAt s q) ↔ dec s.cfg s.tlb s.pass = .exhausted q := by
  refine ⟨fun h => ?_, runDecode_of_exhausted hrun⟩
  obtain ⟨q', -, hd, heq⟩ := runDecode_exhausts hrun hends h rfl
  obtain rfl : q = q' := congrArg (fun u => u.pass.pos) heq
  exact hd

/-- `FSM.STEP` is exhausted at `q` exactly when its decode is. -/
theorem execFsmStep_exhausted_iff :
    execFsmStep s = .next (stepExhaustedAt s q) ↔ decodeFor s.cfg s.tlb (leaveNoFrame s.pass) = .exhausted q := by
  refine ⟨fun h => ?_, execFsmStep_of_exhausted hrun⟩
  obtain ⟨q', -, hd, heq⟩ := execFsmStep_exhausts hrun h rfl
  obtain rfl : q = q' := congrArg (fun u => u.pass.pos) heq
  exact hd

end

/-- Settles O25: with no edge left every decode is one request for an edge that is not there. -/
theorem noEdgeLeftExhaustsOrSuspends : Obligations.NoEdgeLeftExhaustsOrSuspends := by
  intro s hrun hnone
  have hbreak := breakDecode_of_no_edge (c := s.cfg) hnone
  have hbyte := byteDecode_of_no_edge (c := s.cfg) hnone
  have hstep := decodeFor_of_no_edge (c := s.cfg) (p := leaveNoFrame s.pass) (by simpa using hnone)
  refine ⟨fun hfinite => ⟨?decode, ?step⟩, fun hunbounded => ?suspend⟩
  case decode =>
    simp only [noEdge, hfinite] at hbreak hbyte
    rintro i (rfl | rfl)
    · exact runDecode_of_exhausted hrun hbreak
    · exact runDecode_of_exhausted hrun hbyte
  case step =>
    simp only [noEdge, hfinite, leaveNoFrame_pos] at hstep
    exact (execFsmStep_of_exhausted hrun hstep).trans (congrArg _ (stepExhaustedAt_eq s s.pass.pos))
  case suspend =>
    simp only [noEdge, hunbounded] at hbreak hbyte hstep
    rintro i (rfl | rfl | rfl)
    · exact runDecode_of_suspended hrun hbreak
    · exact runDecode_of_suspended hrun hbyte
    · exact execFsmStep_of_suspended hrun hstep

/-! ### Where a decode runs out -/

/-- A row of requests depends on what follows an answer only where there is one. -/
theorem andThen_congr {α β : Type} {r : Read α} {f g : α → Pass → Read β}
    (h : ∀ v p, r = .ok v p → f v p = g v p) : andThen r f = andThen r g := by
  cases r with
  | ok v p => exact h v p rfl
  | exhausted q => rfl
  | suspended => rfl
  | backward => rfl

theorem byteResult_ne_exhausted (v : Byte) (fe brk : Bool) (p : Pass) (q : Nat) :
    byteResult v fe brk p ≠ .exhausted q :=
  fun h => nomatch h

/-- The probes of a low stop bit with the cursor at `x` run out with the cursor at `q`: no edge follows, or the half bit
after the edge that follows the first window is quiet and not reached (R67, R117). -/
def ProbesRunOut (c : Cfg) (tl : Timeline) (x q : Nat) : Prop :=
  c.timelineKind = .finite ∧
    (((∀ e ∈ tl.edges, e ≤ x) ∧ q = x) ∨
      (FirstEdgeAfter tl x q ∧ x + win c c.breakProbeBits < q ∧ QuietBetween tl q (q + half c) ∧
        tl.lastSample < q + half c))

section
variable {c : Cfg} {tl : Timeline} (ht : TimelineLegal c tl) {p : Pass} {q : Nat}
include ht

/-- The low bits of a break of `n` bit-times and its delimiter run out at the first of their `n + 1` centres that is out
of reach (R116). -/
theorem breakCentres_exhausted_iff {β : Type} {f : Unit → Pass → Read β} (hf : ∀ r, f () r ≠ .exhausted q)
    (hp : p.pos = p.anchor) :
    andThen (sampleBits c tl p.n 1 p)
        (fun _ r => andThen (advanceTo c tl (r.anchor + off c (2 * r.n + 1)) r) f) = .exhausted q ↔
      CentresRunOut c tl p.anchor (p.n + 1) q := by
  have hle : p.pos ≤ p.anchor + off c 1 := hp ▸ Nat.le_add_right _ _
  have hn : ∀ v r, sampleBits c tl p.n 1 p = .ok v r → 2 * r.n + 1 = 1 + 2 * p.n := by
    intro v r hr
    obtain ⟨-, -, hkept, -⟩ := ends_answered (sampleBits_ends c tl p.n 1 p hle) hr
    rw [hkept, Nat.add_comm]
  rw [andThen_congr fun v r hr => by rw [hn v r hr],
    sampleBits_exhausted_iff ht (X := False) p.n 1 hle fun r _ _ _ => iff_false_intro (hf r),
    hp, pointsRunOut_centres, and_false, or_false]

/-- `BreakDecode` runs out in its search, or at a centre of the break it found (R116). -/
theorem breakDecode_exhausted_iff : breakDecode c tl p = .exhausted q ↔ BreakRunsOut c tl p.pos q := by
  rw [breakDecode, seekBreak_exhausted_iff ht _ List.countP_le_length]
  refine or_congr Iff.rfl (exists_congr fun a => exists_congr fun e => ?_)
  refine (and_congr_right fun _ => breakCentres_exhausted_iff ht
    (p := { p with pos := a, anchor := a, n := nbits c (e - a), sr := 0#8 }) (fun _ => by simp) rfl).trans ?_
  simp only [and_assoc]

theorem probeBreak_exhausted_iff : probeBreak c tl p = .exhausted q ↔ ProbesRunOut c tl p.pos q := by
  have hlast : ∀ e ∈ tl.edges, e ≤ tl.lastSample := fun e he => edge_le_last ht he
  simp only [probeBreak, ProbesRunOut, tlWouldTransitionWithin_exhausted_iff, tlAdvanceToNextEdge_exhausted_iff ht,
    if_true, if_false, byteResult_ne_exhausted, and_false, or_false, Bool.false_eq_true]
  constructor
  · rintro ⟨hquiet, ⟨hfinite, hshort, rfl⟩ | ⟨-, ⟨hfinite, hnone, rfl⟩ |
      ⟨e, ⟨hmem, hafter, hmin⟩, hquiet', hfinite, hshort, rfl⟩⟩⟩
    · refine ⟨hfinite, .inl ⟨fun e he => Nat.le_of_not_lt fun hlt => hquiet e he ⟨hlt, ?_⟩, rfl⟩⟩
      exact (hlast e he).trans hshort.le
    · exact ⟨hfinite, .inl ⟨hnone, rfl⟩⟩
    · have hwindow := Nat.lt_of_not_le fun hle => hquiet _ hmem ⟨hafter, hle⟩
      exact ⟨hfinite, .inr ⟨⟨hmem, hafter, hmin⟩, hwindow, hquiet', hshort⟩⟩
  · rintro ⟨hfinite, ⟨hnone, rfl⟩ | ⟨⟨hmem, hafter, hmin⟩, hwindow, hquiet', hshort⟩⟩
    · refine ⟨fun e he hin => absurd (hnone e he) (Nat.not_le.2 hin.1), ?_⟩
      obtain hlt | hle := Nat.lt_or_ge tl.lastSample (p.pos + win c c.breakProbeBits)
      · exact .inl ⟨hfinite, hlt, rfl⟩
      · exact .inr ⟨hle, .inl ⟨hfinite, hnone, rfl⟩⟩
    · exact ⟨fun e he hin => absurd (hin.2.trans_lt hwindow) (Nat.not_lt.2 (hmin e he hin.1)),
        .inr ⟨hwindow.le.trans (hlast q hmem), .inr ⟨q, ⟨hmem, hafter, hmin⟩, hquiet', hfinite, hshort, rfl⟩⟩⟩

/-- `ByteDecode` on the stop bit's centre runs out only if the bit reads low, and then in its probes (R117). -/
theorem stopBit_exhausted_iff :
    (if tlLevel tl p = .high then byteResult p.sr false false p else probeBreak c tl p) = .exhausted q ↔
      levelAt tl p.pos = .low ∧ ProbesRunOut c tl p.pos q := by
  rw [tlLevel, ← probeBreak_exhausted_iff ht]
  split
  · next hhigh => simp [hhigh, byteResult_ne_exhausted]
  · next hnot => simp [eq_low_of_ne_high hnot]

/-- The start bit, the data bits and the stop bit of a byte run out at the first of their ten centres that is out of
reach, or after them (R117). -/
theorem byteCentres_exhausted_iff {β : Type} {f : Unit → Pass → Read β} {X : Prop} (hp : p.pos = p.anchor)
    (hf : ∀ r : Pass, r.pos = p.anchor + off c 19 → (f () r = .exhausted q ↔ X)) :
    andThen (advanceTo c tl (p.pos + off c 1) p) (fun _ r =>
        andThen (sampleBits c tl 8 3 { r with sr := 0#8 }) fun _ r =>
          andThen (advanceTo c tl (r.anchor + off c 19) r) f) = .exhausted q ↔
      CentresRunOut c tl p.anchor 10 q ∨ (p.anchor + off c 19 ≤ tl.lastSample ∧ X) := by
  have hstart := off_mono c (show 1 ≤ 19 by decide)
  have hbits := sampleBits_exhausted_iff ht (q := q) (X := X) (f := f) 8 3
    (p := { p with pos := p.anchor + off c 1, sr := 0#8 }) (Nat.add_le_add_left (off_mono c (by decide)) _)
    fun r _ hr _ => hf r hr
  rw [advanceTo_exhausted_iff ht (Nat.le_add_right _ _), hp, ← pointsRunOut_centres, pointsRunOut_succ, or_assoc]
  refine or_congr Iff.rfl ((and_congr_right fun _ => hbits).trans ?_)
  rw [and_or_left]
  exact or_congr Iff.rfl (and_iff_right_of_imp fun ⟨hstop, _⟩ => (Nat.add_le_add_left hstart _).trans hstop)

/-- `ByteDecode` runs out in its search, at a centre of the byte it found, or in the probes of a low stop bit (R117). -/
theorem byteDecode_exhausted_iff : byteDecode c tl p = .exhausted q ↔ ByteRunsOut c tl p.pos q := by
  rw [byteDecode, waitFalling_exhausted_iff ht]
  refine or_congr Iff.rfl (exists_congr fun a => and_congr_right fun _ => ?_)
  refine (byteCentres_exhausted_iff ht (p := { p with pos := a, anchor := a })
    (X := levelAt tl (a + off c 19) = .low ∧ ProbesRunOut c tl (a + off c 19) q) rfl
    fun r hpos => by rw [stopBit_exhausted_iff ht, hpos]).trans (or_congr Iff.rfl ?_)
  constructor
  · exact fun ⟨hstop, hlow, hfinite, hprobes⟩ => ⟨hfinite, hstop, hlow, hprobes⟩
  · exact fun ⟨hfinite, hstop, hlow, hprobes⟩ => ⟨hstop, hlow, hfinite, hprobes⟩

/-- An iteration's decode runs out as the break's or the byte's, by the state it decodes in (R150). -/
theorem decodeFor_leaveNoFrame_exhausted_iff :
    decodeFor c tl (leaveNoFrame p) = .exhausted q ↔
      if p.fstate = .noFrame ∨ p.fstate = .headerBreak then BreakRunsOut c tl p.pos q
      else ByteRunsOut c tl p.pos q := by
  have hstate : (leaveNoFrame p).fstate = .headerBreak ↔ p.fstate = .noFrame ∨ p.fstate = .headerBreak := by
    rw [leaveNoFrame_fstate]
    cases p.fstate <;> decide
  rw [decodeFor]
  simp only [hstate]
  split
  · rw [breakDecode_exhausted_iff ht, leaveNoFrame_pos]
  · rw [byteDecode_exhausted_iff ht, leaveNoFrame_pos]

end

/-- Settles O24: a command is exhausted exactly when its decode is, and each decode where its search, its centres or its
probes run out. -/
theorem exhaustionEndsThePass : Obligations.ExhaustionEndsThePass := by
  refine ⟨fun s t hrun hx => ⟨?decode, ?step⟩, fun s q ht hrun => ⟨?brk, ?byte, ?iteration⟩⟩
  case decode =>
    rintro i (rfl | rfl) h
    · obtain ⟨q, hle, -, rfl⟩ := runDecode_exhausts hrun (breakDecode_ends ..) h hx
      exact ⟨q, hle, rfl⟩
    · obtain ⟨q, hle, -, rfl⟩ := runDecode_exhausts hrun (byteDecode_ends ..) h hx
      exact ⟨q, hle, rfl⟩
  case step =>
    intro h
    obtain ⟨q, hle, -, rfl⟩ := execFsmStep_exhausts hrun h hx
    exact ⟨q, hle, stepExhaustedAt_eq s q⟩
  case brk => exact (runDecode_exhausted_iff hrun (breakDecode_ends ..)).trans (breakDecode_exhausted_iff ht)
  case byte => exact (runDecode_exhausted_iff hrun (byteDecode_ends ..)).trans (byteDecode_exhausted_iff ht)
  case iteration =>
    have hiff := (execFsmStep_exhausted_iff hrun (q := q)).trans (decodeFor_leaveNoFrame_exhausted_iff ht)
    rwa [stepExhaustedAt_eq] at hiff

end Sys2Proof.Proofs
end

section
/-! PROOFS. The encoding of the command words (R93 to R100): the two fields are the word, a word decodes exactly if it
is the word of a well-formed command, the reserved words are the listed ones, and a reserved word changes nothing. -/

namespace Sys2Proof.Proofs

open Sys2Proof Sys2Proof.Machine Sys2Proof.Safety Sys2Proof.Laws

/-! ### The two fields -/

@[simp] theorem opField_wordOf (op imm : Byte) : opField (wordOf op imm) = op :=
  BitVec.extractLsb'_append_eq_left

@[simp] theorem immField_wordOf (op imm : Byte) : immField (wordOf op imm) = imm :=
  BitVec.extractLsb'_append_eq_right

/-- A word is its two fields: no bit lies outside them (R93, R100). -/
@[simp] theorem wordOf_fields (w : Word) : wordOf (opField w) (immField w) = w := by
  rw [wordOf, opField, immField, BitVec.extractLsb'_append_extractLsb'_eq_extractLsb' (by decide)]
  exact BitVec.extractLsb'_eq_self

/-! ### The decoder -/

/-- An identifier, zero-extended to a byte, is the byte's six low bits (R95). -/
theorem extract_setWidth_id6 : ∀ id : BitVec 6, (id.setWidth 8 : Byte).extractLsb' 0 6 = id := by decide

/-- A byte of the id6 class is its six low bits, zero-extended (R95). -/
theorem setWidth_extract_id6 : ∀ imm : Byte, ImmClass.id6.legal imm = true →
    (imm.extractLsb' 0 6).setWidth 8 = imm := by decide

/-- The opcode map reads a command back from its op and its immediate (R94). -/
theorem commandOf_fields (i : Instr) : commandOf (opByte i) (immByte i) = some i := by
  cases i
  case syPid id => exact congrArg (some ∘ Instr.syPid) (extract_setWidth_id6 id)
  case utPar id => exact congrArg (some ∘ Instr.utPar) (extract_setWidth_id6 id)
  all_goals rfl

/-- The immediate of a well-formed command lies in the class of its op (R94, R95). -/
theorem immByte_legal : ∀ i : Instr, ImmInClass.Statement i
  | .ckClr => ImmInClass.ckClr
  | .ckAdd b => ImmInClass.ckAdd b
  | .ckRes => ImmInClass.ckRes
  | .bdBrk => ImmInClass.bdBrk
  | .bdByte => ImmInClass.bdByte
  | .fsmStep => ImmInClass.fsmStep
  | .fsmStop => ImmInClass.fsmStop
  | .syIdle n => ImmInClass.syIdle n
  | .syBrk => ImmInClass.syBrk
  | .syByte b => ImmInClass.syByte b
  | .syPid id => ImmInClass.syPid id
  | .syData b => ImmInClass.syData b
  | .syChk => ImmInClass.syChk
  | .utPar id => ImmInClass.utPar id
  | .utRev b => ImmInClass.utRev b

/-- The opcode map gives an op and an immediate of its class to the one well-formed command that has them (R94, R95). -/
theorem fields_of_commandOf {op imm : Byte} {cls : ImmClass} {i : Instr} (hcls : immClassOf op = some cls)
    (hlegal : cls.legal imm = true) (hi : commandOf op imm = some i) :
    opByte i = op ∧ immByte i = imm ∧ i.wellFormed = true := by
  unfold commandOf at hi
  split at hi
  all_goals cases hi
  all_goals cases hcls
  -- `SY.IDLE`, the count class
  case h_8 => exact ⟨rfl, rfl, hlegal⟩
  -- `SY.PID` and `UT.PAR`, the id6 class
  case h_11 | h_14 => exact ⟨rfl, setWidth_extract_id6 imm hlegal, rfl⟩
  -- the byte class
  case h_2 | h_10 | h_12 | h_15 => exact ⟨rfl, rfl, rfl⟩
  -- the zero class
  all_goals exact ⟨rfl, (beq_iff_eq.1 hlegal).symm, rfl⟩

/-- The decoder answers the command of the opcode map, if the immediate lies in the class of the op (R94 to R96). -/
theorem decode_eq_ok_iff {w : Word} {i : Instr} :
    decode w = .ok i ↔ ∃ cls, immClassOf (opField w) = some cls ∧ cls.legal (immField w) = true ∧
      commandOf (opField w) (immField w) = some i := by
  unfold decode
  cases immClassOf (opField w) with
  | none => simp
  | some cls =>
    cases commandOf (opField w) (immField w) with
    | none => simp
    | some j => cases h : cls.legal (immField w) <;> simp [h]

/-- A word decodes to a command exactly if it is the word of that command, well formed (R94, R95, R98, R100). -/
theorem decode_eq_ok_iff_encode {w : Word} {i : Instr} :
    decode w = .ok i ↔ w = encode i ∧ i.wellFormed = true := by
  rw [decode_eq_ok_iff]
  constructor
  · rintro ⟨cls, hcls, hlegal, hi⟩
    obtain ⟨hop, himm, hwf⟩ := fields_of_commandOf hcls hlegal hi
    exact ⟨by rw [encode, hop, himm, wordOf_fields], hwf⟩
  · rintro ⟨rfl, hwf⟩
    obtain ⟨cls, hcls, hlegal⟩ := immByte_legal i hwf
    simp only [encode, opField_wordOf, immField_wordOf]
    exact ⟨cls, hcls, hlegal, commandOf_fields i⟩

/-- Settles O1: the word of a well-formed command is the word it decodes from. -/
theorem decodeReadsBackEveryCommand : Obligations.DecodeReadsBackEveryCommand :=
  fun _ hwf => decode_eq_ok_iff_encode.2 ⟨rfl, hwf⟩

/-- Settles O2: the other direction of the same equivalence. -/
theorem everyLegalWordIsItsCommandsEncoding : Obligations.EveryLegalWordIsItsCommandsEncoding := by
  intro w i hw
  obtain ⟨rfl, hwf⟩ := decode_eq_ok_iff_encode.1 hw
  exact ⟨rfl, hwf⟩

/-- Settles O4: each word is, by computation, the word of its command. -/
theorem specWordsDecodeToTheirCommands : Obligations.SpecWordsDecodeToTheirCommands := by
  refine ⟨?_, ?_, ?_, ?_, ?_, ?_, ?_, ?_, ?_, ?_, ?_, ?_, ?_, ?_, ?_⟩
  all_goals exact decode_eq_ok_iff_encode.2 ⟨rfl, rfl⟩

/-! ### The reserved words -/

/-- An op has a class exactly if the opcode map has a command for it (R94). -/
theorem commandOf_eq_none_iff {op imm : Byte} : commandOf op imm = none ↔ immClassOf op = none := by
  unfold commandOf immClassOf
  split <;> simp

/-- The decoder rejects a word exactly if no class of the op has the immediate (R96). -/
theorem decode_error_iff {w : Word} :
    (∃ r, decode w = .error r) ↔
      ∀ cls, immClassOf (opField w) = some cls → cls.legal (immField w) = false := by
  have herror : (∃ r, decode w = .error r) ↔ ∀ i, decode w ≠ .ok i := by
    cases decode w <;> simp
  simp only [herror, Ne, decode_eq_ok_iff]
  constructor
  · intro h cls hcls
    cases hi : commandOf (opField w) (immField w) with
    | none => rw [commandOf_eq_none_iff.1 hi] at hcls; cases hcls
    | some i => exact Bool.eq_false_iff.2 fun hlegal => h i ⟨cls, hcls, hlegal, hi⟩
  · rintro h i ⟨cls, hcls, hlegal, -⟩
    exact absurd hlegal (Bool.eq_false_iff.1 (h cls hcls))

/-! ### The ops of each class (R94, R95) -/

theorem immClassOf_eq_none_iff : ∀ op : Byte, immClassOf op = none ↔
    op ∉ [0x01#8, 0x02#8, 0x03#8, 0x10#8, 0x11#8, 0x20#8, 0x21#8, 0x30#8, 0x31#8, 0x32#8, 0x33#8, 0x34#8, 0x35#8,
      0x40#8, 0x41#8] := by decide

theorem immClassOf_eq_zero_iff : ∀ op : Byte, immClassOf op = some .zero ↔
    op ∈ [0x01#8, 0x03#8, 0x10#8, 0x11#8, 0x20#8, 0x21#8, 0x31#8, 0x35#8] := by decide

theorem immClassOf_eq_count_iff : ∀ op : Byte, immClassOf op = some .count ↔ op = 0x30#8 := by decide

theorem immClassOf_eq_id6_iff : ∀ op : Byte, immClassOf op = some .id6 ↔ op ∈ [0x33#8, 0x40#8] := by decide

/-- A reserved word on the idle command port is refused (R96, R233). -/
theorem wordRefused_of_decode_error {w : Word} (hw : ∃ r, decode w = .error r) : WordRefused w := by
  obtain ⟨r, hr⟩ := hw
  intro s rest hreq hin
  simp [step, nextTurn, acceptNext, acceptWord, hreq, hin, hr, refuseCommand]

/-- Settles O3: an op outside the map, or of the zero, count or id6 class with an immediate outside it; a byte-class
immediate is never reserved. -/
theorem reservedWordsAreTheListedOnes : Obligations.ReservedWordsAreTheListedOnes := by
  intro w op imm
  refine ⟨?_, wordRefused_of_decode_error⟩
  rw [decode_error_iff, ← immClassOf_eq_none_iff, ← immClassOf_eq_zero_iff, ← immClassOf_eq_count_iff,
    ← immClassOf_eq_id6_iff]
  change (∀ cls, immClassOf op = some cls → cls.legal imm = false) ↔ _
  cases immClassOf op with
  | none => simp
  | some cls => cases cls <;> simp [ImmClass.legal]

/-! ### The synthesized frame's words -/

/-- An identifier, zero-extended to a byte, is the identifier under two zero bits (R95). -/
theorem setWidth_id6_eq_append (id : BitVec 6) : (id.setWidth 8 : Byte) = 0#2 ++ id :=
  BitVec.setWidth_eq_append (by decide)

/-- The commands of `SY.FRAME id, data idle j`, with the checksum its data give (R99, R212). -/
def frameCommands (id : BitVec 6) (data : List Byte) (j : Byte) : List Instr :=
  [.syIdle j, .syBrk, .syByte syncByte, .syPid id] ++ data.map .syData ++ [.syChk]

theorem expand_frame {id : BitVec 6} {data : List Byte} {j : Byte} (hmin : 1 ≤ data.length) (hmax : data.length ≤ 8)
    (hj : j ≠ 0#8) : expand (.frame id data (some j) none) = some (frameCommands id data j) :=
  if_pos ⟨hmin, hmax, fun h => hj (Option.some.inj h)⟩

theorem frameCommands_wellFormed {id : BitVec 6} {data : List Byte} {j : Byte} (hj : j ≠ 0#8) :
    ∀ i ∈ frameCommands id data j, i.wellFormed = true := by
  refine List.forall_mem_append.2 ⟨List.forall_mem_append.2 ⟨?header, ?data⟩, ?checksum⟩
  case header => simp [Instr.wellFormed, hj]
  case data => exact List.forall_mem_map.2 fun _ _ => rfl
  case checksum => exact List.forall_mem_singleton.2 rfl

theorem map_encode_frameCommands (id : BitVec 6) (data : List Byte) (j : Byte) :
    (frameCommands id data j).map encode =
      [0x30#8 ++ j, 0x3100#16, 0x3255#16, 0x33#8 ++ (0#2 ++ id)] ++ data.map (fun d => 0x34#8 ++ d) ++ [0x3500#16] := by
  rw [← setWidth_id6_eq_append]
  simp only [frameCommands, List.map_append, List.map_map]
  rfl

/-- Settles O5: every command of the frame is well formed, so its word decodes to it. -/
theorem framePseudoExpandsToItsCommands : Obligations.FramePseudoExpandsToItsCommands :=
  fun id data j hmin hmax hj => ⟨frameCommands id data j, expand_frame hmin hmax hj,
    map_encode_frameCommands id data j, fun i hi => decode_eq_ok_iff_encode.2 ⟨rfl, frameCommands_wellFormed hj i hi⟩⟩

end Sys2Proof.Proofs
end

section
/-! PROOFS. `SY.BYTE` sends the byte frame (R81, R202 to R204, R207): the synthesized line reads start, data bits least
significant first, stop and gap. -/

namespace Sys2Proof.Proofs

open Sys2Proof Sys2Proof.Machine Sys2Proof.Safety Sys2Proof.Laws

/-- Bit-time `j` of a byte frame: start, `b[0]` to `b[7]`, stop (R81). -/
theorem byteFrame_getElem (b : Byte) {j : Nat} (hj : j < (byteFrame b).length) :
    (byteFrame b)[j] = if j = 0 then .low else if j ≤ 8 then levelOfBit (b.getLsbD (j - 1)) else .high := by
  have hlength : (byteFrame b).length = 10 := by simp [byteFrame]
  cases j with
  | zero => rfl
  | succ i =>
    by_cases hi : i < 8
    · simp [byteFrame, hi, show i + 1 ≤ 8 by omega]
    · have : i = 8 := by omega
      simp [byteFrame, this]

/-- After the byte frame ten bit-times have passed (R203). -/
theorem driveAll_byteCalls_t (c : Cfg) (b : Byte) (y : Synth) : (driveAll c (byteCalls b) y).t = y.t + 10 := by
  simp [byteCalls, byteFrame, List.range, List.range.loop, driveAll]

/-- The stop bit has left the line high, so the gap adds no edge (R207). -/
theorem driveByte_edges (c : Cfg) (b : Byte) (y : Synth) :
    (driveByte c b y).edges = (driveAll c (byteCalls b) y).edges := by
  rw [driveByte_eq, drive_edges, if_pos (driveAll_byteCalls_lvl c b y).symm, List.append_nil]

section
variable {c : Cfg} {b : Byte} {y u : Synth} {j x : Nat} (hc : CfgLegal c) (hy : LineLegal c y)
  (hu : u.edges = (driveByte c b y).edges)
include hc hy hu

/-- In the byte frame's ten bit-times the line reads the frame (R81). -/
theorem driveByte_level_frame (hj : j < (byteFrame b).length) (hge : edgeAt c (y.t + j) ≤ x)
    (hlt : x < edgeAt c (y.t + j + 1)) : levelAt (synthTimeline c u) x = (byteFrame b)[j] := by
  have hone : ∀ call ∈ byteCalls b, call.2 = 1 := by simp [byteCalls]
  have hedges : u.edges = (driveAll c (byteCalls b) y).edges ++ [] := by
    rw [hu, driveByte_edges, List.append_nil]
  have key := driveAll_level hc hone hy hedges (by simp) (by simpa [byteCalls] using hj) hge hlt
  simpa [byteCalls] using key

/-- After the stop bit the line reads high to the end of the gap (R207). -/
theorem driveByte_level_gap (hge : edgeAt c (y.t + 10) ≤ x) (hlt : x < edgeAt c (y.t + 10 + c.idleGapBits)) :
    levelAt (synthTimeline c u) x = .high := by
  have hbits : ∀ call ∈ byteCalls b, 1 ≤ call.2 := by simp [byteCalls]
  have hedges : u.edges = (drive c .high c.idleGapBits (driveAll c (byteCalls b) y)).edges ++ [] := by
    rw [hu, driveByte_eq, List.append_nil]
  refine drive_level hc (driveAll_legal hc hy hbits) (.inr (driveAll_byteCalls_lvl c b y).symm) hedges (by simp) ?_ ?_
  · rwa [driveAll_byteCalls_t]
  · rwa [driveAll_byteCalls_t]

/-- Bit-time `j` of `SY.BYTE b` reads start, data bit `j - 1`, or high (R81, R207). -/
theorem driveByte_level (hj : j < 10 + c.idleGapBits) (hge : edgeAt c (y.t + j) ≤ x)
    (hlt : x < edgeAt c (y.t + j + 1)) :
    levelAt (synthTimeline c u) x =
      if j = 0 then .low else if j ≤ 8 then levelOfBit (b.getLsbD (j - 1)) else .high := by
  by_cases hframe : j < 10
  · have hj : j < (byteFrame b).length := by simpa [byteFrame] using hframe
    rw [driveByte_level_frame hc hy hu hj hge hlt, byteFrame_getElem]
  · rw [if_neg (by omega), if_neg (by omega)]
    exact driveByte_level_gap hc hy hu ((edgeAt_mono c (by omega)).trans hge)
      (hlt.trans_le (edgeAt_mono c (by omega)))

end

/-- A byte driven on a high line leaves only the counter and the edges changed: the checksum stays (R203, R207). -/
theorem driveByte_of_high {c : Cfg} {b : Byte} {y : Synth} {new : List Nat} (hhigh : y.lvl = .high)
    (hnew : y.edges ++ new = (driveByte c b y).edges) :
    driveByte c b y = { y with t := y.t + 10 + c.idleGapBits, edges := y.edges ++ new } := by
  obtain ⟨htime, hlvl, hcks, hclassic, -⟩ := driveByte_line c b y
  rw [hnew, ← htime, ← hcks, ← hclassic, hhigh, ← hlvl]

/-- A byte that fits changes the line and answers with the edges it appended (R201, R207). -/
theorem execSyByte_of_fits {b : Byte} {s : State} {new : List Nat} (hhigh : s.synth.lvl = .high)
    (hfits : synthFits s.cfg (byteCost s.cfg) s.synth = true)
    (hnew : s.synth.edges ++ new = (driveByte s.cfg b s.synth).edges) :
    exec (.syByte b) s = .next { s with
      response := some (.edges new),
      synth := { s.synth with t := s.synth.t + 10 + s.cfg.idleGapBits, edges := s.synth.edges ++ new } } := by
  change synthesize (byteCost s.cfg) (driveByte s.cfg b) s = _
  rw [synthesize_next, if_pos hfits, ← hnew, List.drop_left, driveByte_of_high hhigh hnew]
  rfl

/-- Settles O46: the edges are those that driving the byte appends to the line, and the line reads what was driven. -/
theorem syByteSendsTheByteFrame : Obligations.SyByteSendsTheByteFrame := by
  intro b s hc hs hfits
  obtain ⟨-, -, -, -, new, hnew⟩ := driveByte_line s.cfg b s.synth
  have hline := synthLegal_line hs
  obtain ⟨-, -, hhigh, -⟩ := hs
  exact ⟨new, execSyByte_of_fits hhigh hfits hnew, fun j x hj hge hlt =>
    driveByte_level hc hline hnew hj hge hlt⟩

end Sys2Proof.Proofs
end

section
/-! PROOFS. The bit decoder's commands whatever they read: every command answers a next state (R124, R230, R233), and
`BD.*` move the cursor and the transients only (R119, R120, R243, R254). -/

namespace Sys2Proof.Proofs

open Sys2Proof Sys2Proof.Machine Sys2Proof.Safety Sys2Proof.Laws

/-! ### Every command answers -/

/-- No sample point lies before the cursor (R124). -/
theorem ends_ne_backward {α : Type} {c : Cfg} {tl : Timeline} {p : Pass} {r : Read α} {Q : α → Pass → Prop}
    (h : Ends c tl p r Q) : r ≠ .backward := by
  rintro rfl
  exact h

/-- A decode command has a next state, since its decode never goes backward. -/
theorem runDecode_answers {i : Instr} {dec : Cfg → Timeline → Pass → Read Decoded} {answer : Decoded → Response}
    {s : State} {Q : Decoded → Pass → Prop} (hends : Ends s.cfg s.tlb s.pass (dec s.cfg s.tlb s.pass) Q) :
    ∃ t, runDecode i dec answer s = .next t := by
  unfold runDecode
  split
  · split
    · exact ⟨_, rfl⟩
    · exact ⟨_, rfl⟩
    · exact ⟨_, rfl⟩
    · next hd => exact absurd hd (ends_ne_backward hends)
  · exact ⟨_, rfl⟩

theorem execFsmStep_answers (s : State) : ∃ t, execFsmStep s = .next t := by
  unfold execFsmStep
  split
  · split
    · exact ⟨_, rfl⟩
    · exact ⟨_, rfl⟩
    · exact ⟨_, rfl⟩
    · next hd => exact absurd hd (ends_ne_backward (decodeFor_ends ..))
  · exact ⟨_, rfl⟩

theorem synthesize_answers (cost : Nat) (run : Synth → Synth) (s : State) : ∃ t, synthesize cost run s = .next t :=
  ⟨_, synthesize_next⟩

theorem execSyIdle_answers (n : Byte) (s : State) : ∃ t, execSyIdle n s = .next t := by
  unfold execSyIdle
  split
  · exact ⟨_, rfl⟩
  · exact synthesize_answers ..

theorem execSyPid_answers (id : BitVec 6) (s : State) : ∃ t, execSyPid id s = .next t := by
  unfold execSyPid
  exact synthesize_answers ..

theorem execSyData_answers (b : Byte) (s : State) : ∃ t, execSyData b s = .next t := by
  unfold execSyData
  exact synthesize_answers ..

/-- Settles O37: of the three commands that read the timeline because no decode goes backward, of the others because
they have no other outcome. -/
theorem everyCommandAnswersANextState : Obligations.EveryCommandAnswersANextState := by
  intro i s
  cases i with
  | bdBrk => exact runDecode_answers (breakDecode_ends ..)
  | bdByte => exact runDecode_answers (byteDecode_ends ..)
  | fsmStep => exact execFsmStep_answers s
  | syIdle n => exact execSyIdle_answers n s
  | syBrk | syByte | syChk => exact synthesize_answers _ _ s
  | syPid id => exact execSyPid_answers id s
  | syData b => exact execSyData_answers b s
  | fsmStop | ckClr | ckAdd | ckRes | utPar | utRev => exact ⟨_, rfl⟩

/-! ### The registers of a decode command -/

/-- Of the block a decode command writes the pass, the response and the request; of the pass the cursor, which goes
forward and stays within the timeline, the transients and `halted`. -/
structure DecodeFrame (s t : State) : Prop where
  moved : OnlyCursorMoved { s.pass with halted := t.pass.halted } t.pass
  frame : t = { s with pass := t.pass, response := t.response, request := t.request }
  forward : Forward s.tlb s.pass.pos t.pass.pos

/-- The decode command that led from `s` to `t` has decoded `d`: an element after the old cursor that ends at the new
one, not both a framing error and a break. -/
structure DecodedBetween (s t : State) (d : Decoded) : Prop where
  after : s.pass.pos < d.startSample
  ordered : d.startSample ≤ d.endSample
  cursor : t.pass.pos = d.endSample
  running : t.pass.halted = s.pass.halted
  exclusive : ¬ (d.fe = true ∧ d.brk = true)

section
variable {i : Instr} {dec : Cfg → Timeline → Pass → Read Decoded} {answer : Decoded → Response} {s t : State}
  {Q : Decoded → Pass → Prop} (hends : Ends s.cfg s.tlb s.pass (dec s.cfg s.tlb s.pass) Q)
  (h : runDecode i dec answer s = .next t)
include hends h

theorem runDecode_frame : DecodeFrame s t := by
  obtain ⟨-, rfl⟩ | ⟨-, d, p, hd, rfl⟩ | ⟨-, q, hd, rfl⟩ | ⟨-, -, rfl⟩ := runDecode_cases h
  · exact ⟨rfl, rfl, le_refl _, fun _ hp => hp⟩
  · obtain ⟨hmoved, hforward, -⟩ := ends_answered hends hd
    obtain ⟨-, -, -, -, -, -, -, -, hhalted⟩ := cursorMoved_fields hmoved
    refine ⟨?_, rfl, hforward⟩
    change OnlyCursorMoved { s.pass with halted := p.halted } p
    rwa [hhalted]
  · exact ⟨rfl, rfl, ends_exhausted hends hd⟩
  · exact ⟨rfl, rfl, le_refl _, fun _ hp => hp⟩

/-- A response of a decode command is that of its element, `Halted` or `Exhausted`. -/
theorem runDecode_response
    (hQ : ∀ d q, Q d q → d.endSample = q.pos ∧ s.pass.pos < d.startSample ∧ d.startSample ≤ d.endSample ∧
      ¬ (d.fe = true ∧ d.brk = true))
    {r : Response} (hr : t.response = some r) :
    (∃ d, r = answer d ∧ DecodedBetween s t d) ∨ (∃ x, r = .halted x) ∨ ∃ x, r = .exhausted x := by
  obtain ⟨-, rfl⟩ | ⟨-, d, p, hd, rfl⟩ | ⟨-, q, hd, rfl⟩ | ⟨-, -, rfl⟩ := runDecode_cases h
  · exact .inr (.inl ⟨_, (Option.some.inj hr).symm⟩)
  · obtain ⟨hmoved, -, hq⟩ := ends_answered hends hd
    obtain ⟨-, -, -, -, -, -, -, -, hhalted⟩ := cursorMoved_fields hmoved
    obtain ⟨hend, hafter, hordered, hexclusive⟩ := hQ d p hq
    exact .inl ⟨d, (Option.some.inj hr).symm, hafter, hordered, hend.symm, hhalted, hexclusive⟩
  · exact .inr (.inr ⟨_, (Option.some.inj hr).symm⟩)
  · cases hr

end

theorem execBdBrk_response {s t : State} {r : Response} (h : execBdBrk s = .next t) (hr : t.response = some r) :
    (∃ d : Decoded, r = .brk d.value d.fe d.startSample d.endSample ∧ DecodedBetween s t d) ∨
      (∃ x, r = .halted x) ∨ ∃ x, r = .exhausted x := by
  refine runDecode_response (breakDecode_ends ..) h ?_ hr
  rintro d q ⟨hend, -, hafter, hordered, hbrk, -, -⟩
  exact ⟨hend, hafter, hordered, by simp [hbrk]⟩

theorem execBdByte_response {s t : State} {r : Response} (h : execBdByte s = .next t) (hr : t.response = some r) :
    (∃ d : Decoded, r = .byte d.value d.fe d.brk d.startSample d.endSample ∧ DecodedBetween s t d) ∨
      (∃ x, r = .halted x) ∨ ∃ x, r = .exhausted x := by
  refine runDecode_response (byteDecode_ends ..) h ?_ hr
  rintro d q ⟨hend, hafter, hordered, hexclusive, -⟩
  exact ⟨hend, hafter, hordered, hexclusive⟩

theorem execBd_frame {s t : State} {i : Instr} (hi : i = .bdBrk ∨ i = .bdByte) (h : exec i s = .next t) :
    DecodeFrame s t := by
  obtain rfl | rfl := hi
  · exact runDecode_frame (breakDecode_ends ..) h
  · exact runDecode_frame (byteDecode_ends ..) h

/-- A `Break` is `BD.BRK`'s answer only. -/
theorem decodedBetween_of_brk {s t : State} {i : Instr} (hi : i = .bdBrk ∨ i = .bdByte) (h : exec i s = .next t)
    {v : Byte} {fe : Bool} {a e : Nat} (hr : t.response = some (.brk v fe a e)) :
    s.pass.pos < a ∧ a ≤ e ∧ t.pass.pos = e ∧ t.pass.halted = s.pass.halted := by
  obtain rfl | rfl := hi
  · obtain ⟨d, hd, hbetween⟩ | ⟨x, hx⟩ | ⟨x, hx⟩ := execBdBrk_response h hr
    · cases hd
      exact ⟨hbetween.after, hbetween.ordered, hbetween.cursor, hbetween.running⟩
    · cases hx
    · cases hx
  · obtain ⟨d, hd, -⟩ | ⟨x, hx⟩ | ⟨x, hx⟩ := execBdByte_response h hr
    · cases hd
    · cases hx
    · cases hx

/-- A `Byte` is `BD.BYTE`'s answer only. -/
theorem decodedBetween_of_byte {s t : State} {i : Instr} (hi : i = .bdBrk ∨ i = .bdByte) (h : exec i s = .next t)
    {v : Byte} {fe brk : Bool} {a e : Nat} (hr : t.response = some (.byte v fe brk a e)) :
    s.pass.pos < a ∧ a ≤ e ∧ t.pass.pos = e ∧ t.pass.halted = s.pass.halted ∧ ¬ (fe = true ∧ brk = true) := by
  obtain rfl | rfl := hi
  · obtain ⟨d, hd, -⟩ | ⟨x, hx⟩ | ⟨x, hx⟩ := execBdBrk_response h hr
    · cases hd
    · cases hx
    · cases hx
  · obtain ⟨d, hd, hbetween⟩ | ⟨x, hx⟩ | ⟨x, hx⟩ := execBdByte_response h hr
    · cases hd
      exact ⟨hbetween.after, hbetween.ordered, hbetween.cursor, hbetween.running, hbetween.exclusive⟩
    · cases hx
    · cases hx

/-- Settles O23: the frame from the four ways a decode command ends, the answers from how the two decodes end. -/
theorem directDecodeMovesOnlyTheCursor : Obligations.DirectDecodeMovesOnlyTheCursor := by
  intro s t i ht hpos hi h
  obtain ⟨hmoved, hframe, hforward⟩ := execBd_frame hi h
  exact ⟨hmoved, hframe, hforward.1, hforward.le_last ht hpos, fun _ _ _ _ hr => decodedBetween_of_brk hi h hr,
    fun _ _ _ _ _ hr => decodedBetween_of_byte hi h hr⟩

end Sys2Proof.Proofs
end

section
/-! PROOFS. The bit timing (R112 to R114, R122, R202): the centres of the bit-times, and the measure of a low run. -/

namespace Sys2Proof.Proofs

open Sys2Proof Sys2Proof.Machine Sys2Proof.Safety Sys2Proof.Laws

/-- A quotient of a sum is the sum of the quotients, or one more. -/
theorem add_div_le_succ (x y : Nat) {d : Nat} (hd : 0 < d) : (x + y) / d ≤ x / d + y / d + 1 := by
  rw [Nat.add_div hd]
  split <;> omega

/-- The start of a bit-time in half-bits (R202). -/
theorem edgeAt_eq_halves (c : Cfg) (t : Nat) : edgeAt c t = 2 * (t * c.sampleRate) / (2 * c.bitRate) :=
  (Nat.mul_div_mul_left _ _ Nat.two_pos).symm

/-- Bit-times in a row last at least their sum (R202). -/
theorem edgeAt_add_le (c : Cfg) (t u : Nat) : edgeAt c t + edgeAt c u ≤ edgeAt c (t + u) := by
  unfold edgeAt
  rw [Nat.add_mul]
  exact Nat.div_add_div_le_add_div ..

section
variable {c : Cfg} (hc : CfgLegal c)
include hc

/-- A half bit lies within a bit-time (R113). -/
theorem half_le_edgeAt_one : half c ≤ edgeAt c 1 := by
  unfold half edgeAt
  rw [Nat.one_mul]
  exact Nat.div_le_div_left (by omega) (bitRate_pos hc)

/-- The exact centre of a bit-time lies at least one sample after its start, and at least one before its end: a half bit
is a whole sample or more (R122, R202). -/
theorem exactCentre_within (k : Nat) :
    edgeAt c k < (2 * k + 1) * c.sampleRate / (2 * c.bitRate) ∧
      (2 * k + 1) * c.sampleRate / (2 * c.bitRate) < edgeAt c (k + 1) := by
  have hb : 0 < 2 * c.bitRate := Nat.mul_pos Nat.two_pos (bitRate_pos hc)
  have hsample := two_bitRate_le hc
  rw [edgeAt_eq_halves, edgeAt_eq_halves, ← Nat.add_one_le_iff, ← Nat.add_one_le_iff, ← Nat.add_div_right _ hb,
    ← Nat.add_div_right _ hb]
  have hstart : 2 * (k * c.sampleRate) + 2 * c.bitRate ≤ (2 * k + 1) * c.sampleRate := by
    rw [Nat.add_mul, Nat.mul_assoc]
    omega
  have hend : (2 * k + 1) * c.sampleRate + 2 * c.bitRate ≤ 2 * ((k + 1) * c.sampleRate) := by
    rw [Nat.add_mul, Nat.add_mul, Nat.mul_assoc]
    omega
  exact ⟨Nat.div_le_div_right hstart, Nat.div_le_div_right hend⟩

/-- Under `EXACT` the centre of bit-time `j` after the start of bit-time `t` is the exact centre of bit-time `t + j`, or
one sample before it (R112, R122). -/
theorem edgeAt_add_off_near (hexact : c.bitClock = .exact) (t j : Nat) :
    edgeAt c t + off c (2 * j + 1) ≤ (2 * (t + j) + 1) * c.sampleRate / (2 * c.bitRate) ∧
      (2 * (t + j) + 1) * c.sampleRate / (2 * c.bitRate) ≤ edgeAt c t + off c (2 * j + 1) + 1 := by
  have hb : 0 < 2 * c.bitRate := Nat.mul_pos Nat.two_pos (bitRate_pos hc)
  have hoff : off c (2 * j + 1) = (2 * j + 1) * c.sampleRate / (2 * c.bitRate) := by rw [off, hexact]
  have hsum : (2 * (t + j) + 1) * c.sampleRate = 2 * (t * c.sampleRate) + (2 * j + 1) * c.sampleRate := by ring
  rw [hoff, edgeAt_eq_halves, hsum]
  exact ⟨Nat.div_add_div_le_add_div .., add_div_le_succ _ _ hb⟩

/-- Under `EXACT` every centre after a bit boundary lies in its own bit-time (R122). -/
theorem exactCentre_in_bit (hexact : c.bitClock = .exact) (t j : Nat) :
    edgeAt c (t + j) ≤ edgeAt c t + off c (2 * j + 1) ∧ edgeAt c t + off c (2 * j + 1) < edgeAt c (t + j + 1) := by
  obtain ⟨hstart, hend⟩ := exactCentre_within hc (t + j)
  obtain ⟨hle, hge⟩ := edgeAt_add_off_near hc hexact t j
  omega

/-- `nbits` is the nearest whole number of bit-times, halves up (R114). -/
theorem nbits_eq_iff (gap n : Nat) :
    nbits c gap = n ↔ 2 * n * c.sampleRate ≤ 2 * gap * c.bitRate + c.sampleRate ∧
      2 * gap * c.bitRate + c.sampleRate < 2 * (n + 1) * c.sampleRate := by
  have hpos : 0 < 2 * c.sampleRate := Nat.mul_pos Nat.two_pos (sampleRate_pos hc)
  unfold nbits
  rw [Nat.div_eq_iff hpos, Nat.mul_right_comm 2 n, Nat.mul_right_comm 2 (n + 1), Nat.mul_add_one,
    Nat.mul_comm n]
  omega

/-- A bit-time starts on the last sample not after its exact position (R202). -/
theorem edgeAt_bounds (t : Nat) :
    edgeAt c t * c.bitRate ≤ t * c.sampleRate ∧ t * c.sampleRate < edgeAt c t * c.bitRate + c.bitRate :=
  ⟨Nat.div_mul_le_self .., Nat.lt_div_mul_add (bitRate_pos hc)⟩

/-- A low run from one bit boundary to another measures its bit-times (R114, R202). -/
theorem nbits_edgeAt (t n : Nat) : nbits c (edgeAt c (t + n) - edgeAt c t) = n := by
  have hsample := two_bitRate_le hc
  obtain ⟨gap, hgap⟩ := Nat.exists_eq_add_of_le (edgeAt_mono c (Nat.le_add_right t n))
  obtain ⟨hstart, hstart'⟩ := edgeAt_bounds hc t
  obtain ⟨hend, hend'⟩ := edgeAt_bounds hc (t + n)
  rw [hgap, Nat.add_mul (edgeAt c t), Nat.add_mul t] at hend hend'
  rw [hgap, Nat.add_sub_cancel_left, nbits_eq_iff hc, Nat.mul_assoc 2 n, Nat.mul_assoc 2 gap, Nat.mul_assoc 2 (n + 1),
    Nat.add_mul n]
  omega

end

/-- Settles O15: the centre lies within a sample of the exact one, which is a whole sample inside its bit-time. -/
theorem exactCentresLieInTheirBits : Obligations.ExactCentresLieInTheirBits :=
  fun _ t j hc hexact => exactCentre_in_bit hc hexact t j

/-- Settles O16: `nbits` is a quotient, and its bounds are those of a quotient. -/
theorem lowRunsMeasureToTheNearestBit : Obligations.LowRunsMeasureToTheNearestBit :=
  fun _ gap n hc => nbits_eq_iff hc gap n

end Sys2Proof.Proofs
end

section
/-! PROOFS. `BD.BYTE` from the line (R115, R117, R118, R120, R123): the search for the first fall, the eight samples, and
the three ways a stop bit ends; and `FSM.STEP` on the PID byte (R150, R156, R159, R163). -/

namespace Sys2Proof.Proofs

open Sys2Proof Sys2Proof.Machine Sys2Proof.Safety Sys2Proof.Laws

/-- The pass on the stop-bit centre of a byte anchored at `a` whose data bits have read `v` (R117). -/
def atStopBit (c : Cfg) (p : Pass) (a : Nat) (v : Byte) : Pass :=
  { p with pos := a + off c 19, anchor := a, sr := v }

section
variable {c : Cfg} {tl : Timeline} (ht : TimelineLegal c tl) {p : Pass} {a e : Nat}
include ht

/-! ### The search -/

theorem tlAdvanceToNextEdge_of_first (he : FirstEdgeAfter tl p.pos e) :
    tlAdvanceToNextEdge c tl p = .ok () { p with pos := e } := by
  rw [tlAdvanceToNextEdge, (edgeAfter_eq_some_iff ht).2 he]

theorem tlNextEdge_of_first (he : FirstEdgeAfter tl p.pos e) : tlNextEdge c tl p = .ok e p := by
  rw [tlNextEdge, (edgeAfter_eq_some_iff ht).2 he]

/-- The first fall is the next edge, or the edge after it if the next edge rises (R61, R115). -/
theorem firstFall_cases {x b : Nat} (ha : FirstFallAfter tl x a) (hb : FirstEdgeAfter tl x b) :
    (levelAt tl b = .low ∧ b = a) ∨ (levelAt tl b = .high ∧ FirstEdgeAfter tl b a) := by
  obtain ⟨hmem, hafter, hlow, hmin⟩ := ha
  have hle : b ≤ a := hb.2.2 a hmem hafter
  cases hlevel : levelAt tl b with
  | low => exact .inl ⟨rfl, le_antisymm hle (hmin b hb.1 hb.2.1 hlevel)⟩
  | high =>
    have hlt : b < a := lt_of_le_of_ne hle fun h => by simp [← h, hlevel] at hlow
    obtain ⟨y, -, hy, hya⟩ := edgeAfter_of_mem ht hmem hlt
    have hfall : levelAt tl y = .low := by rw [levelAt_next ht hy, hlevel]; rfl
    obtain rfl : y = a := le_antisymm hya (hmin y hy.1 (hb.2.1.trans hy.2.1) hfall)
    exact .inr ⟨rfl, hy⟩

/-- `WaitFalling` ends on the first fall, and moves the cursor only (R115). -/
theorem waitFalling_of_firstFall (ha : FirstFallAfter tl p.pos a) :
    waitFalling c tl p = .ok () { p with pos := a } := by
  obtain ⟨b, -, hb, -⟩ := edgeAfter_of_mem ht ha.1 ha.2.1
  rw [waitFalling, tlAdvanceToNextEdge_of_first ht hb, andThen_ok]
  obtain ⟨hlevel, rfl⟩ | ⟨hlevel, hnext⟩ := firstFall_cases ht ha hb
  · rw [if_neg (by simp [tlLevel, hlevel])]
  · exact (if_pos hlevel).trans (tlAdvanceToNextEdge_of_first ht hnext)

/-! ### The samples -/

/-- Eight points or more, all within the timeline: the shift register holds the last eight, the oldest in bit 0 (R112,
R118). -/
theorem sampleBits_last_eight {count h : Nat} (hcount : 8 ≤ count) (hp : p.pos ≤ p.anchor + off c h)
    (hlast : p.anchor + off c (h + 2 * (count - 1)) ≤ tl.lastSample) :
    ∃ v : Byte, (∀ i < 8, v.getLsbD i = decide (levelAt tl (p.anchor + off c (h + 2 * (count - 8 + i))) = .high)) ∧
      sampleBits c tl count h p = .ok () { p with pos := p.anchor + off c (h + 2 * (count - 1)), sr := v } := by
  obtain ⟨q, hq, hkept, hpos, hbits⟩ := sampleBits_of_le ht count h p hp fun _ => hlast
  refine ⟨q.sr, fun i hi => ?_, ?_⟩
  · rw [hbits i hi, if_neg (by omega), show i + count - 8 = count - 8 + i by omega]
  · rw [hq, hkept, hpos, if_neg (by omega)]

/-! ### The stop bit -/

/-- `ByteDecode` reads the next byte up to its stop bit (R117, R118). -/
theorem byteDecode_to_stopBit (ha : FirstFallAfter tl p.pos a) (hstop : a + off c 19 ≤ tl.lastSample) :
    ∃ v : Byte, SampledByte c tl a v ∧
      byteDecode c tl p =
        if levelAt tl (a + off c 19) = .high then byteResult v false false (atStopBit c p a v)
        else probeBreak c tl (atStopBit c p a v) := by
  have hstart : a + off c 1 ≤ tl.lastSample :=
    (Nat.add_le_add_left (off_mono c (show 1 ≤ 19 by decide)) a).trans hstop
  have hdata : a + off c (3 + 2 * (8 - 1)) ≤ tl.lastSample :=
    (Nat.add_le_add_left (off_mono c (show 3 + 2 * (8 - 1) ≤ 19 by decide)) a).trans hstop
  obtain ⟨v, hv, hsample⟩ := sampleBits_last_eight ht (count := 8) (h := 3)
    (p := { p with pos := a + off c 1, anchor := a, sr := 0#8 }) (le_refl 8)
    (Nat.add_le_add_left (off_mono c (by decide)) a) hdata
  refine ⟨v, fun i hi => ?_, ?_⟩
  · rw [hv i hi, Nat.sub_self, Nat.zero_add, Nat.add_comm 3]
  · have hmove : advanceTo c tl (a + off c 1) { p with pos := a, anchor := a } =
        .ok () { p with pos := a + off c 1, anchor := a } := advanceTo_of_le ht (Nat.le_add_right _ _) hstart
    have hend : advanceTo c tl (a + off c 19) { p with pos := a + off c 17, anchor := a, sr := v } =
        .ok () (atStopBit c p a v) := advanceTo_of_le ht (Nat.add_le_add_left (off_mono c (by decide)) a) hstop
    simp only [byteDecode, waitFalling_of_firstFall ht ha, andThen_ok, hmove, hsample, hend]
    rfl

theorem byteDecode_of_high_stopBit (ha : FirstFallAfter tl p.pos a) (hstop : a + off c 19 ≤ tl.lastSample)
    (hhigh : levelAt tl (a + off c 19) = .high) :
    ∃ v : Byte, SampledByte c tl a v ∧ byteDecode c tl p = byteResult v false false (atStopBit c p a v) := by
  obtain ⟨v, hv, hdecode⟩ := byteDecode_to_stopBit ht ha hstop
  exact ⟨v, hv, hdecode.trans (if_pos hhigh)⟩

theorem byteDecode_of_low_stopBit (ha : FirstFallAfter tl p.pos a) (hstop : a + off c 19 ≤ tl.lastSample)
    (hlow : levelAt tl (a + off c 19) = .low) :
    ∃ v : Byte, SampledByte c tl a v ∧ byteDecode c tl p = probeBreak c tl (atStopBit c p a v) := by
  obtain ⟨v, hv, hdecode⟩ := byteDecode_to_stopBit ht ha hstop
  exact ⟨v, hv, hdecode.trans (if_neg (by simp [hlow]))⟩

/-! ### The probes -/

omit ht in
/-- An edge in the first window is a framing error, with the cursor unmoved (R117). -/
theorem probeBreak_of_edge_in_window (he : FirstEdgeAfter tl p.pos e) (hwin : e ≤ p.pos + win c c.breakProbeBits) :
    probeBreak c tl p = byteResult p.sr true false p := by
  rw [probeBreak, tlWouldTransitionWithin_true he.1 he.2.1 hwin, andThen_ok, if_pos rfl]

/-- If the first window is quiet, the second one after the edge decides (R117). -/
theorem probeBreak_of_quiet_window (he : FirstEdgeAfter tl p.pos e) (hwin : p.pos + win c c.breakProbeBits < e) :
    probeBreak c tl p =
      andThen (tlWouldTransitionWithin c tl (half c) { p with pos := e }) fun second p =>
        if second then byteResult p.sr true false p else byteResult 0x00#8 false true p := by
  have hquiet : QuietBetween tl p.pos (p.pos + win c c.breakProbeBits) := fun x hx hin =>
    absurd (he.2.2 x hx hin.1) (Nat.not_le.2 (hin.2.trans_lt hwin))
  have hlast := hwin.le.trans (edge_le_last ht he.1)
  rw [probeBreak, tlWouldTransitionWithin_false hquiet hlast, andThen_ok, if_neg (by decide),
    tlAdvanceToNextEdge_of_first ht he, andThen_ok]

/-- A line that falls again within half a bit is a framing error, with the cursor on the rising edge (R117). -/
theorem probeBreak_of_refall (he : FirstEdgeAfter tl p.pos e) (hwin : p.pos + win c c.breakProbeBits < e)
    (hrefall : ¬ QuietBetween tl e (e + half c)) :
    probeBreak c tl p = byteResult p.sr true false { p with pos := e } := by
  obtain ⟨x, hx, hafter, hwithin⟩ : ∃ x ∈ tl.edges, e < x ∧ x ≤ e + half c := by
    simpa [QuietBetween] using hrefall
  rw [probeBreak_of_quiet_window ht he hwin, tlWouldTransitionWithin_true hx hafter hwithin, andThen_ok, if_pos rfl]

/-- Both windows quiet: a disguised break (R117, R123). -/
theorem probeBreak_of_quiet (he : FirstEdgeAfter tl p.pos e) (hwin : p.pos + win c c.breakProbeBits < e)
    (hquiet : QuietBetween tl e (e + half c)) (hlast : e + half c ≤ tl.lastSample) :
    probeBreak c tl p = byteResult 0x00#8 false true { p with pos := e } := by
  rw [probeBreak_of_quiet_window ht he hwin, tlWouldTransitionWithin_false hquiet hlast, andThen_ok,
    if_neg (by decide)]

end

/-! ### The commands -/

/-- A decode command of a running pass whose decode is answered. -/
theorem runDecode_of_answered {i : Instr} {dec : Cfg → Timeline → Pass → Read Decoded} {answer : Decoded → Response}
    {s : State} {d : Decoded} {p : Pass} (hrun : s.pass.halted = .run) (hd : dec s.cfg s.tlb s.pass = .ok d p) :
    runDecode i dec answer s = .next (respond (answer d) { s with pass := p }) := by
  simp only [runDecode, hrun, hd, if_true]

theorem execFsmStep_of_answered {s : State} {d : Decoded} {p : Pass} (hrun : s.pass.halted = .run)
    (hd : decodeFor s.cfg s.tlb (leaveNoFrame s.pass) = .ok d p) :
    execFsmStep s = .next (deliver (iterate s.cfg d p).ev { s with pass := (iterate s.cfg d p).pass }) := by
  simp only [execFsmStep, hrun, hd, if_true]

/-- `BD.BYTE` of a running pass whose `ByteDecode` returns `v`, `fe` and `brk` with the pass `p` (R117, R120). -/
theorem execBdByte_of_byteResult {s : State} {v : Byte} {fe brk : Bool} {p : Pass} (hrun : s.pass.halted = .run)
    (hd : byteDecode s.cfg s.tlb s.pass = byteResult v fe brk p) :
    exec .bdByte s = .next { s with
      response := some (.byte v fe brk p.anchor p.pos), pass := { p with fe := fe, brk := brk } } :=
  runDecode_of_answered hrun hd

/-- Settles O18: the first edge falls, or rises and the next one falls. -/
theorem waitFallingFindsTheFirstFall : Obligations.WaitFallingFindsTheFirstFall :=
  fun _ _ _ _ ht ha => waitFalling_of_firstFall ht ha

/-- Settles O20: a high stop bit ends the byte. -/
theorem bdByteReadsAByteWithAHighStop : Obligations.BdByteReadsAByteWithAHighStop := by
  intro s a stop _ ht hrun ha hstop hhigh
  obtain ⟨v, hv, hdecode⟩ := byteDecode_of_high_stopBit ht ha hstop hhigh
  exact ⟨v, hv, execBdByte_of_byteResult hrun hdecode⟩

/-- A low stop bit with a quiet probe window that ends in a rise, and the half bit after the rise quiet: `BD.BYTE` takes
it for a break (R117, R123). -/
theorem execBdByte_of_disguised_break {s : State} {a e : Nat} (ht : TimelineLegal s.cfg s.tlb)
    (hrun : s.pass.halted = .run) (ha : FirstFallAfter s.tlb s.pass.pos a)
    (hlow : levelAt s.tlb (a + off s.cfg 19) = .low) (he : FirstEdgeAfter s.tlb (a + off s.cfg 19) e)
    (hwin : a + off s.cfg 19 + win s.cfg s.cfg.breakProbeBits < e)
    (hquiet : QuietBetween s.tlb e (e + half s.cfg)) (hlast : e + half s.cfg ≤ s.tlb.lastSample) :
    ∃ v : Byte, SampledByte s.cfg s.tlb a v ∧
      exec .bdByte s = .next { s with
        response := some (.byte 0x00#8 false true a e),
        pass := { s.pass with pos := e, anchor := a, sr := v, fe := false, brk := true } } := by
  have hstop := he.2.1.le.trans (edge_le_last ht he.1)
  obtain ⟨v, hv, hdecode⟩ := byteDecode_of_low_stopBit ht ha hstop hlow
  exact ⟨v, hv, execBdByte_of_byteResult hrun (hdecode.trans (probeBreak_of_quiet ht he hwin hquiet hlast))⟩

/-- Settles O21: both windows are quiet. -/
theorem bdByteTakesAQuietLowStopForABreak : Obligations.BdByteTakesAQuietLowStopForABreak := by
  intro s a e stop probe halfBit _ ht hrun ha hlow hquiet he hquiet' hlast
  have hwin : probe < e := Nat.lt_of_not_le fun hle => hquiet e he.1 ⟨he.2.1, hle⟩
  exact execBdByte_of_disguised_break ht hrun ha hlow he hwin hquiet' hlast

/-- Settles O22: an edge in the first window, or one in the second. -/
theorem bdByteFlagsAFramingError : Obligations.BdByteFlagsAFramingError := by
  intro s a e stop probe halfBit _ ht hrun ha hstop hlow he
  obtain ⟨v, hv, hdecode⟩ := byteDecode_of_low_stopBit ht ha hstop hlow
  refine ⟨fun hwin => ⟨v, hv, ?first⟩, fun hwin hrefall => ⟨v, hv, ?second⟩⟩
  case first => exact execBdByte_of_byteResult hrun (hdecode.trans (probeBreak_of_edge_in_window he hwin))
  case second => exact execBdByte_of_byteResult hrun (hdecode.trans (probeBreak_of_refall ht he hwin hrefall))

/-! ### The PID byte -/

/-- The checksum mode of a PID byte as R156 writes it out. -/
theorem isClassic_eq (c : Cfg) (v : Byte) :
    isClassic c v = decide (c.protocolVersion < 2 ∨ (c.diagClassic = true ∧
      (v.extractLsb' 0 6 = 0x3C#6 ∨ v.extractLsb' 0 6 = 0x3D#6))) := by
  simp [isClassic, isDiagnostic, idOf, Bool.beq_eq_decide_eq]

/-- An iteration in `HeaderPID` whose byte is no disguised break (R153, R156, R159, R163). -/
theorem iterate_headerPid {c : Cfg} {d : Decoded} {p : Pass} (hf : p.fstate = .headerPid) (hbrk : d.brk = false) :
    (iterate c d p).pass = { p with
        fstate := .responseDataZero, lastEnd := d.endSample, pid := d.value, ckd := d.value,
        classic := isClassic c d.value } ∧
      (iterate c d p).ev = gapEvents p d.startSample ++
        [frameEvent d .headerPid d.value 0 (decodeFlags d.fe), .progress p.pos] := by
  have harm : arm c d (emitGap d { pass := p, ev := [] }) =
      headerPidArm c d (decodeFlags d.fe) (emitGap d { pass := p, ev := [] }) := by
    simp [arm, hf, hbrk]
  rw [iterate, harm]
  constructor <;> simp [headerPidArm]

/-- `FSM.STEP` in `HeaderPID`, from the byte decoded to the events and the registers (R150, R159). -/
theorem execFsmStep_headerPid {s : State} {d : Decoded} {p : Pass} (hrun : s.pass.halted = .run)
    (hf : s.pass.fstate = .headerPid) (hd : byteDecode s.cfg s.tlb s.pass = .ok d p) (hbrk : d.brk = false) :
    exec .fsmStep s = .next (afterStep s
      (gapEvents p d.startSample ++ [frameEvent d .headerPid d.value 0 (decodeFlags d.fe), .progress p.pos])
      { p with fstate := .responseDataZero, lastEnd := d.endSample, pid := d.value, ckd := d.value,
               classic := isClassic s.cfg d.value }) := by
  have hleave : leaveNoFrame s.pass = s.pass := if_neg (by simp [hf])
  have hdecode : decodeFor s.cfg s.tlb (leaveNoFrame s.pass) = .ok d p := by
    rw [hleave, decodeFor, if_neg (by simp [hf]), hd]
  obtain ⟨hmoved, -, -⟩ := ends_answered (byteDecode_ends ..) hd
  obtain ⟨hstate, -⟩ := cursorMoved_fields hmoved
  obtain ⟨hpass, hev⟩ := iterate_headerPid (c := s.cfg) (hstate.trans hf) hbrk
  refine (execFsmStep_of_answered hrun hdecode).trans ?_
  rw [hpass, hev]
  rfl

/-- Settles O36: the byte as `BD.BYTE` reads it, then the arm of `HeaderPID`. -/
theorem fsmStepReadsThePidFromTheLine : Obligations.FsmStepReadsThePidFromTheLine := by
  intro s a stop _ ht hrun hf ha hstop hhigh
  obtain ⟨v, hv, hdecode⟩ := byteDecode_of_high_stopBit ht ha hstop hhigh
  refine ⟨v, hv, (execFsmStep_headerPid hrun hf hdecode rfl).trans ?_⟩
  rw [isClassic_eq]
  rfl

end Sys2Proof.Proofs
end

section
/-! PROOFS. `BD.BRK` from the line (R112, R114, R116, R118, R119): the search skips the short low runs, and the first long
one is sampled to its end. -/

namespace Sys2Proof.Proofs

open Sys2Proof Sys2Proof.Machine Sys2Proof.Safety Sys2Proof.Laws

/-- The low run from `a` to `e` is the first after `pos` that measures `BREAK_MIN_BITS` or more (R116). -/
structure FirstLongRun (c : Cfg) (tl : Timeline) (pos a e : Nat) : Prop where
  edge : a ∈ tl.edges
  after : pos < a
  low : levelAt tl a = .low
  ended : FirstEdgeAfter tl a e
  long : c.breakMinBits ≤ nbits c (e - a)
  shorter : ∀ a' ∈ tl.edges, pos < a' → a' < a → levelAt tl a' = .low →
    ∀ e', FirstEdgeAfter tl a' e' → nbits c (e' - a') < c.breakMinBits

/-- It is still the first from a later position before it. -/
theorem FirstLongRun.from_later {c : Cfg} {tl : Timeline} {pos b a e : Nat} (h : FirstLongRun c tl pos a e)
    (hpos : pos < b) (hb : b < a) : FirstLongRun c tl b a e where
  edge := h.edge
  after := hb
  low := h.low
  ended := h.ended
  long := h.long
  shorter a' ha' hafter := h.shorter a' ha' (hpos.trans hafter)

section
variable {c : Cfg} {tl : Timeline} (ht : TimelineLegal c tl) {p : Pass} {a e : Nat}
include ht

/-- One turn of the search anchors the first fall and measures its run (R116). -/
theorem measureLowRun_of_first {b : Nat} (hb : FirstFallAfter tl p.pos b) (he : FirstEdgeAfter tl b e) :
    measureLowRun c tl p = .ok () { p with pos := b, anchor := b, n := nbits c (e - b) } := by
  have hnext : tlNextEdge c tl { p with pos := b } = .ok e { p with pos := b } := tlNextEdge_of_first ht he
  simp only [measureLowRun, waitFalling_of_firstFall ht hb, hnext, andThen_ok]

/-- The search, with a turn for each edge after the cursor, ends on the first long run (R116, R258). -/
theorem seekBreak_of_firstLongRun (h : FirstLongRun c tl p.pos a e) {turns : Nat}
    (hturns : tl.edges.countP (fun x => decide (p.pos < x)) ≤ turns) :
    seekBreak c tl turns p = .ok () { p with pos := a, anchor := a, n := nbits c (e - a) } := by
  induction turns generalizing p with
  | zero =>
    have hnone := List.countP_eq_zero.1 (Nat.le_zero.1 hturns) a h.edge
    exact absurd (decide_eq_true h.after) hnone
  | succ turns ih =>
    obtain ⟨b, hb, hle⟩ := firstFall_of_mem h.edge h.after h.low
    obtain rfl | hlt := Nat.eq_or_lt_of_le hle
    · rw [seekBreak, measureLowRun_of_first ht hb h.ended, andThen_ok]
      exact if_pos h.long
    · obtain ⟨e', -, he', -⟩ := edgeAfter_of_mem ht h.edge hlt
      have hshort := h.shorter b hb.1 hb.2.1 hlt hb.2.2.1 e' he'
      have hfewer := countP_after_lt hb.1 hb.2.1
      rw [seekBreak, measureLowRun_of_first ht hb he', andThen_ok]
      refine (if_neg (Nat.not_le.2 hshort)).trans (ih (h.from_later hb.2.1 hlt) ?_)
      exact Nat.le_of_lt_succ (hfewer.trans_le hturns)

/-- `BreakDecode` on the first long run: the last eight of its low-bit samples, and the delimiter's check (R116). -/
theorem breakDecode_of_firstLongRun (hmin : 8 ≤ c.breakMinBits) (h : FirstLongRun c tl p.pos a e)
    (hstop : a + off c (2 * nbits c (e - a) + 1) ≤ tl.lastSample) :
    ∃ v : Byte, SampledBreak c tl a (nbits c (e - a)) v ∧
      breakDecode c tl p =
        .ok { value := v, fe := decide (levelAt tl (a + off c (2 * nbits c (e - a) + 1)) ≠ .high), brk := false,
              startSample := a, endSample := a + off c (2 * nbits c (e - a) + 1) }
          { p with pos := a + off c (2 * nbits c (e - a) + 1), anchor := a, n := nbits c (e - a), sr := v,
                   fe := decide (levelAt tl (a + off c (2 * nbits c (e - a) + 1)) ≠ .high) } := by
  have hseek := seekBreak_of_firstLongRun ht h List.countP_le_length
  have hlong := h.long
  generalize nbits c (e - a) = n at hseek hlong hstop ⊢
  have hdelim : off c (1 + 2 * (n - 1)) ≤ off c (2 * n + 1) := off_mono c (by omega)
  obtain ⟨v, hv, hsample⟩ := sampleBits_last_eight ht (count := n) (h := 1)
    (p := { p with pos := a, anchor := a, n := n, sr := 0#8 }) (hmin.trans hlong) (Nat.le_add_right _ _)
    ((Nat.add_le_add_left hdelim a).trans hstop)
  have hend : advanceTo c tl (a + off c (2 * n + 1))
      { p with pos := a + off c (1 + 2 * (n - 1)), anchor := a, n := n, sr := v } =
        .ok () { p with pos := a + off c (2 * n + 1), anchor := a, n := n, sr := v } :=
    advanceTo_of_le ht (Nat.add_le_add_left hdelim a) hstop
  refine ⟨v, fun i hi => ?_, ?_⟩
  · rw [hv i hi, Nat.add_comm 1]
  · simp only [breakDecode, hseek, hsample, hend, andThen_ok]
    rfl

end

/-- `BD.BRK` answers with the first long run (R119). -/
theorem execBdBrk_of_firstLongRun {s : State} {a e : Nat} (hc : CfgLegal s.cfg) (ht : TimelineLegal s.cfg s.tlb)
    (hrun : s.pass.halted = .run) (h : FirstLongRun s.cfg s.tlb s.pass.pos a e)
    (hstop : a + off s.cfg (2 * nbits s.cfg (e - a) + 1) ≤ s.tlb.lastSample) :
    ∃ v : Byte, SampledBreak s.cfg s.tlb a (nbits s.cfg (e - a)) v ∧
      exec .bdBrk s = .next { s with
        response := some (.brk v (decide (levelAt s.tlb (a + off s.cfg (2 * nbits s.cfg (e - a) + 1)) ≠ .high)) a
          (a + off s.cfg (2 * nbits s.cfg (e - a) + 1))),
        pass := { s.pass with
          pos := a + off s.cfg (2 * nbits s.cfg (e - a) + 1), anchor := a, n := nbits s.cfg (e - a), sr := v,
          fe := decide (levelAt s.tlb (a + off s.cfg (2 * nbits s.cfg (e - a) + 1)) ≠ .high) } } := by
  have hmin : 8 ≤ s.cfg.breakMinBits := by
    obtain ⟨-, -, -, -, hmin, -⟩ := hc
    omega
  obtain ⟨v, hv, hdecode⟩ := breakDecode_of_firstLongRun ht hmin h hstop
  exact ⟨v, hv, runDecode_of_answered hrun hdecode⟩

/-- Settles O19: the run is the first long one. -/
theorem bdBrkReadsTheFirstLongLowRun : Obligations.BdBrkReadsTheFirstLongLowRun := by
  intro s a e n stop hc ht hrun hedge hafter hlow he hlong hshorter hstop
  exact execBdBrk_of_firstLongRun hc ht hrun ⟨hedge, hafter, hlow, he, hlong, hshorter⟩ hstop

end Sys2Proof.Proofs
end

section
/-! PROOFS. A synthesized break decodes as a break (R122, R123, R202, R206, R215): the line it leaves, where its bit centres
and probe windows lie on it, and from these `BD.BRK` and `BD.BYTE`. -/

namespace Sys2Proof.Proofs

open Sys2Proof Sys2Proof.Machine Sys2Proof.Safety Sys2Proof.Laws

/-! ### The line of a break -/

/-- A break driven on a high line adds its falling and its rising edge (R206). -/
theorem driveBreak_edges {c : Cfg} {y : Synth} (hhigh : y.lvl = .high) :
    (driveBreak c y).edges = y.edges ++ [edgeAt c y.t, edgeAt c (y.t + c.synBreakBits)] := by
  simp [driveBreak, hhigh]

/-- The timeline of the line `y` with a break driven on it (R217). -/
def breakTimeline (c : Cfg) (y : Synth) : Timeline := synthTimeline c (driveBreak c y)

theorem breakTimeline_lastSample (c : Cfg) (y : Synth) :
    (breakTimeline c y).lastSample = edgeAt c (y.t + c.synBreakBits + c.synDelimBits) := by
  obtain ⟨htime, -⟩ := driveBreak_line c y
  rw [← htime]
  rfl

/-- A break to be driven on the high line `y`, and a cursor past every earlier edge and before the break's fall. -/
structure BreakAhead (c : Cfg) (y : Synth) (pos : Nat) : Prop where
  cfg : CfgLegal c
  line : LineLegal c y
  high : y.lvl = .high
  past : ∀ e ∈ y.edges, e ≤ pos
  before : pos < edgeAt c y.t

section
variable {c : Cfg} {y : Synth} {pos : Nat} (h : BreakAhead c y pos)
include h

theorem mem_breakTimeline_edges {e : Nat} :
    e ∈ (breakTimeline c y).edges ↔ e ∈ y.edges ∨ e = edgeAt c y.t ∨ e = edgeAt c (y.t + c.synBreakBits) := by
  change e ∈ (driveBreak c y).edges ↔ _
  simp [driveBreak_edges h.high]

theorem breakFall_lt_rise : edgeAt c y.t < edgeAt c (y.t + c.synBreakBits) := by
  obtain ⟨hbreak, -⟩ := breakBits_pos h.cfg
  exact edgeAt_lt c h.cfg (by omega)

/-- The delimiter lasts a bit-time or more (R6, R206). -/
theorem breakDelimiter_le_last : edgeAt c (y.t + c.synBreakBits + 1) ≤ (breakTimeline c y).lastSample := by
  obtain ⟨-, hdelim⟩ := breakBits_pos h.cfg
  rw [breakTimeline_lastSample]
  exact edgeAt_mono c (by omega)

/-- During the break the line reads low (R206). -/
theorem levelAt_break {x : Nat} (hge : edgeAt c y.t ≤ x) (hlt : x < edgeAt c (y.t + c.synBreakBits)) :
    levelAt (breakTimeline c y) x = .low := by
  obtain ⟨hbreak, -⟩ := breakBits_pos h.cfg
  refine drive_level h.cfg h.line (.inl hbreak) (drive_edges ..) (fun e he => ?_) hge hlt
  obtain rfl : e = edgeAt c (y.t + c.synBreakBits) := by simpa using he
  exact le_refl _

/-- During the delimiter the line reads high (R206). -/
theorem levelAt_breakDelimiter {x : Nat} (hge : edgeAt c (y.t + c.synBreakBits) ≤ x)
    (hlt : x < edgeAt c (y.t + c.synBreakBits + 1)) : levelAt (breakTimeline c y) x = .high := by
  obtain ⟨hbreak, hdelim⟩ := breakBits_pos h.cfg
  refine drive_level h.cfg (drive_legal h.cfg h.line (.inl hbreak)) (.inl hdelim) (List.append_nil _).symm
    (by simp) ?_ ?_
  · rwa [drive_t]
  · rw [drive_t]
    exact hlt.trans_le (edgeAt_mono c (by omega))

/-! ### The break as the decoder meets it -/

/-- From within the break the next edge is its rise. -/
theorem breakRise_first {x : Nat} (hge : edgeAt c y.t ≤ x) (hlt : x < edgeAt c (y.t + c.synBreakBits)) :
    FirstEdgeAfter (breakTimeline c y) x (edgeAt c (y.t + c.synBreakBits)) := by
  refine ⟨(mem_breakTimeline_edges h).2 (.inr (.inr rfl)), hlt, fun e he hafter => ?_⟩
  obtain hold | rfl | rfl := (mem_breakTimeline_edges h).1 he
  · exact absurd (h.line.before e hold) (by omega)
  · omega
  · exact le_refl _

/-- No edge follows the rise. -/
theorem breakRise_last {e : Nat} (he : e ∈ (breakTimeline c y).edges) : e ≤ edgeAt c (y.t + c.synBreakBits) := by
  have hrise := breakFall_lt_rise h
  obtain hold | rfl | rfl := (mem_breakTimeline_edges h).1 he
  · exact (h.line.before e hold).le.trans hrise.le
  · exact hrise.le
  · exact le_refl _

/-- The first edge after the cursor is the break's fall. -/
theorem breakFall_le {e : Nat} (he : e ∈ (breakTimeline c y).edges) (hafter : pos < e) : edgeAt c y.t ≤ e := by
  obtain hold | rfl | rfl := (mem_breakTimeline_edges h).1 he
  · exact absurd (h.past e hold) (Nat.not_le.2 hafter)
  · exact le_refl _
  · exact (breakFall_lt_rise h).le

theorem breakFall_first : FirstFallAfter (breakTimeline c y) pos (edgeAt c y.t) :=
  ⟨(mem_breakTimeline_edges h).2 (.inr (.inl rfl)), h.before, levelAt_break h (le_refl _) (breakFall_lt_rise h),
    fun _ he hafter _ => breakFall_le h he hafter⟩

/-- A synthesized break is long enough to be one (R6, R234), and no low run comes before it. -/
theorem break_firstLongRun :
    FirstLongRun c (breakTimeline c y) pos (edgeAt c y.t) (edgeAt c (y.t + c.synBreakBits)) := by
  obtain ⟨hfall, hafter, hlow, -⟩ := breakFall_first h
  refine ⟨hfall, hafter, hlow, breakRise_first h (le_refl _) (breakFall_lt_rise h), ?_, fun a ha hpos hlt => ?_⟩
  · obtain ⟨-, -, -, -, -, -, -, -, hlong, -⟩ := h.cfg
    rwa [nbits_edgeAt h.cfg]
  · exact absurd hlt (Nat.not_lt.2 (breakFall_le h ha hpos))

/-! ### The bit centres -/

section
variable (hexact : c.bitClock = .exact)
include hexact

/-- The centre of a bit of the break reads low (R122). -/
theorem levelAt_breakCentre {k : Nat} (hk : k < c.synBreakBits) :
    levelAt (breakTimeline c y) (edgeAt c y.t + off c (2 * k + 1)) = .low := by
  obtain ⟨-, hlt⟩ := exactCentre_in_bit h.cfg hexact y.t k
  exact levelAt_break h (Nat.le_add_right _ _) (hlt.trans_le (edgeAt_mono c (by omega)))

/-- The probe window after the stop-bit centre ends before a break of `10 + BREAK_PROBE_BITS` bit-times does (R117,
R123). -/
theorem stopBit_probe_lt_rise (hlong : 10 + c.breakProbeBits ≤ c.synBreakBits) :
    edgeAt c y.t + off c 19 + win c c.breakProbeBits < edgeAt c (y.t + c.synBreakBits) := by
  obtain ⟨-, hstop⟩ := exactCentre_in_bit h.cfg hexact y.t 9
  calc edgeAt c y.t + off c 19 + win c c.breakProbeBits
    _ < edgeAt c (y.t + 9 + 1) + edgeAt c c.breakProbeBits := Nat.add_lt_add_right hstop _
    _ ≤ edgeAt c (y.t + 9 + 1 + c.breakProbeBits) := edgeAt_add_le ..
    _ ≤ edgeAt c (y.t + c.synBreakBits) := edgeAt_mono c (by omega)

end

/-- After the rise half a bit lies within the timeline (R113, R117). -/
theorem breakRise_half_le_last :
    edgeAt c (y.t + c.synBreakBits) + half c ≤ (breakTimeline c y).lastSample :=
  calc edgeAt c (y.t + c.synBreakBits) + half c
    _ ≤ edgeAt c (y.t + c.synBreakBits) + edgeAt c 1 := Nat.add_le_add_left (half_le_edgeAt_one h.cfg) _
    _ ≤ edgeAt c (y.t + c.synBreakBits + 1) := edgeAt_add_le ..
    _ ≤ (breakTimeline c y).lastSample := breakDelimiter_le_last h

end

/-- Low samples make the value `0x00` (R118). -/
theorem sampledBreak_eq_zero {c : Cfg} {tl : Timeline} {a n : Nat} {v : Byte} (hv : SampledBreak c tl a n v)
    (hn : 8 ≤ n) (hlow : ∀ k < n, levelAt tl (a + off c (2 * k + 1)) = .low) : v = 0x00#8 := by
  apply BitVec.eq_of_getLsbD_eq
  intro i hi
  rw [hv i hi, hlow _ (by omega)]
  simp

/-! ### The two commands -/

section
variable {v : State} {y : Synth} (h : BreakAhead v.cfg y v.pass.pos) (hexact : v.cfg.bitClock = .exact)
  (htlb : v.tlb = breakTimeline v.cfg y) (ht : TimelineLegal v.cfg v.tlb) (hrun : v.pass.halted = .run)
include h hexact htlb ht hrun

/-- `BD.BRK` on a synthesized break: value `0x00`, and the delimiter reads high (R116, R215). -/
theorem execBdBrk_of_break :
    ∃ w : State, exec .bdBrk v = .next w ∧
      w.response = some (.brk 0x00#8 false (edgeAt v.cfg y.t)
        (edgeAt v.cfg y.t + off v.cfg (2 * v.cfg.synBreakBits + 1))) := by
  have hlongRun := break_firstLongRun h
  have hbits := nbits_edgeAt h.cfg y.t v.cfg.synBreakBits
  obtain ⟨hge, hlt⟩ := exactCentre_in_bit h.cfg hexact y.t v.cfg.synBreakBits
  have hstop := hlt.le.trans (breakDelimiter_le_last h)
  rw [← htlb] at hlongRun hstop
  obtain ⟨b, hb, hexec⟩ := execBdBrk_of_firstLongRun h.cfg ht hrun hlongRun (by rwa [hbits])
  rw [hbits, htlb] at hb
  rw [hbits, htlb, levelAt_breakDelimiter h hge hlt] at hexec
  have hmin : 8 ≤ v.cfg.synBreakBits := by
    obtain ⟨-, -, -, -, hmin, -, -, -, hlong, -⟩ := h.cfg
    omega
  obtain rfl := sampledBreak_eq_zero hb hmin fun k hk => levelAt_breakCentre h hexact hk
  exact ⟨_, hexec, rfl⟩

/-- `BD.BYTE` on a synthesized break that outlasts the probe window takes it for a disguised break (R117, R123, R215). -/
theorem execBdByte_of_break (hlong : 10 + v.cfg.breakProbeBits ≤ v.cfg.synBreakBits) :
    ∃ w : State, exec .bdByte v = .next w ∧
      w.response = some (.byte 0x00#8 false true (edgeAt v.cfg y.t) (edgeAt v.cfg (y.t + v.cfg.synBreakBits))) := by
  have hprobe := stopBit_probe_lt_rise h hexact hlong
  have hfall := breakFall_first h
  have hlow := levelAt_breakCentre h hexact (k := 9) (by omega)
  have hrise := breakRise_first h (Nat.le_add_right _ _) ((Nat.le_add_right _ _).trans_lt hprobe)
  have hquiet : QuietBetween (breakTimeline v.cfg y) (edgeAt v.cfg (y.t + v.cfg.synBreakBits))
      (edgeAt v.cfg (y.t + v.cfg.synBreakBits) + half v.cfg) := fun e he hin =>
    absurd (breakRise_last h he) (Nat.not_le.2 hin.1)
  have hlast := breakRise_half_le_last h
  rw [← htlb] at hfall hlow hrise hquiet hlast
  obtain ⟨b, -, hexec⟩ := execBdByte_of_disguised_break ht hrun hfall hlow hrise hprobe hquiet hlast
  exact ⟨_, hexec, rfl⟩

end

/-- A break that fits leaves the line with the break driven on it (R201, R206). -/
theorem synth_of_execSyBrk {s u : State} (hfits : synthFits s.cfg (breakCost s.cfg) s.synth = true)
    (h : exec .syBrk s = .next u) : u.synth = driveBreak s.cfg s.synth := by
  change synthesize (breakCost s.cfg) (driveBreak s.cfg) s = .next u at h
  rw [synthesize_next, if_pos hfits] at h
  cases h
  rfl

/-- Settles O51: `BD.BRK` finds the break as the first long run, and `BD.BYTE` finds both its windows quiet. -/
theorem synthesizedBreakDecodesAsABreak : Obligations.SynthesizedBreakDecodesAsABreak := by
  intro s u v hc hexact hs hfits hbreak hcfg htlb hrun hold hpos a
  have hsynth := synth_of_execSyBrk hfits hbreak
  have heffect := exec_effect hbreak
  obtain ⟨hkept, -⟩ := heffect.keeps_inputs
  have ht := synthTimeline_legal (heffect.synthLegal hc hs)
  have hline := synthLegal_line hs
  obtain ⟨-, -, hhigh, -⟩ := hs
  rw [hkept, ← htlb] at ht
  rw [hsynth] at htlb
  have h : BreakAhead s.cfg s.synth v.pass.pos := ⟨hc, hline, hhigh, hold, hpos⟩
  simp only [a, ← hcfg] at h hexact htlb ht ⊢
  exact ⟨execBdBrk_of_break h hexact htlb ht hrun, execBdByte_of_break h hexact htlb ht hrun⟩

end Sys2Proof.Proofs
end

section
/-! PROOFS. The checksum accumulator (R140 to R148): `add` is addition modulo 255 that returns to 0 only from 0, so the
sum of a list of bytes is known from their total; and the commands `CK.CLR`, `CK.ADD` and `CK.RES` on `CKt`. -/

namespace Sys2Proof.Proofs

open Sys2Proof Sys2Proof.Machine Sys2Proof.Safety Sys2Proof.Laws

/-! ### One `add` -/

/-- The end-around carry takes off a multiple of 255 (R141, R143). -/
theorem sumAdd_mod_255 (sum b : Byte) : (sumAdd sum b).toNat % 255 = (sum.toNat + b.toNat) % 255 := by
  rw [sumAdd_toNat]
  split
  · next hcarry => exact (Nat.mod_eq_sub_mod hcarry.le).symm
  · rfl

/-- The carry leaves at least 1, so a sum is 0 only if nothing was added to 0 (R143). -/
theorem sumAdd_eq_zero_iff {sum b : Byte} : sumAdd sum b = 0#8 ↔ sum = 0#8 ∧ b = 0#8 := by
  simp only [← BitVec.toNat_inj, sumAdd_toNat, BitVec.toNat_ofNat, Nat.zero_mod]
  split <;> omega

/-- A byte is known from its residue modulo 255 and whether it is 0: only 0 and `0xFF` share a residue (R143). -/
theorem eq_of_mod_255 {x y : Byte} (hmod : x.toNat % 255 = y.toNat % 255) (hzero : x = 0#8 ↔ y = 0#8) : x = y := by
  simp only [← BitVec.toNat_inj, BitVec.toNat_ofNat, Nat.zero_mod] at hzero ⊢
  omega

/-- The complement as a number (R142). -/
theorem sumResult_eq_ofNat (sum : Byte) : sumResult sum = BitVec.ofNat 8 (255 - sum.toNat) := by
  apply BitVec.eq_of_toNat_eq
  rw [sumResult, BitVec.toNat_not, BitVec.toNat_ofNat]
  omega

theorem sumResult_eq_ff_iff {sum : Byte} : sumResult sum = 0xFF#8 ↔ sum = 0#8 :=
  BitVec.not_inj (y := 0#8)

/-! ### The sum of a list of bytes -/

theorem foldl_sumAdd_mod_255 (bytes : List Byte) (sum : Byte) :
    (bytes.foldl sumAdd sum).toNat % 255 = (sum.toNat + (bytes.map BitVec.toNat).sum) % 255 := by
  induction bytes generalizing sum with
  | nil => rfl
  | cons b rest ih =>
    rw [List.foldl_cons, ih, Nat.add_mod, sumAdd_mod_255, ← Nat.add_mod, List.map_cons, List.sum_cons, Nat.add_assoc]

theorem foldl_sumAdd_eq_zero_iff {bytes : List Byte} {sum : Byte} :
    bytes.foldl sumAdd sum = 0#8 ↔ sum = 0#8 ∧ ∀ b ∈ bytes, b = 0#8 := by
  induction bytes generalizing sum with
  | nil => simp
  | cons b rest ih => rw [List.foldl_cons, ih, sumAdd_eq_zero_iff, List.forall_mem_cons, and_assoc]

/-- The plain total is 0 for zero bytes only. -/
theorem sum_toNat_eq_zero_iff {bytes : List Byte} :
    (bytes.map BitVec.toNat).sum = 0 ↔ ∀ b ∈ bytes, b = 0#8 := by
  simp [List.sum_eq_zero_iff, ← BitVec.toNat_inj]

/-- The sum depends on the bytes' total and on whether they are all 0, and so not on their order (R148). -/
theorem foldl_sumAdd_eq_of_perm {a b : List Byte} (hperm : a.Perm b) (sum : Byte) :
    a.foldl sumAdd sum = b.foldl sumAdd sum := by
  apply eq_of_mod_255
  · rw [foldl_sumAdd_mod_255, foldl_sumAdd_mod_255, (hperm.map BitVec.toNat).sum_eq]
  · simp only [foldl_sumAdd_eq_zero_iff, hperm.mem_iff]

/-- Settles O13: the sum is congruent to the total, and 0 with it only; so a nonzero total that is a multiple of 255
leaves `0xFF`, the one nonzero sum that is. -/
theorem sumIsTheTotalModulo255 : Obligations.SumIsTheTotalModulo255 := by
  intro bytes sum total
  have hzero : sum = 0#8 ↔ ∀ b ∈ bytes, b = 0#8 := foldl_sumAdd_eq_zero_iff.trans (and_iff_right rfl)
  have hmod : sum.toNat % 255 = total % 255 :=
    (foldl_sumAdd_mod_255 bytes sumClear).trans (congrArg (· % 255) (Nat.zero_add total))
  refine ⟨hzero, hmod, sumResult_eq_ff_iff.trans hzero, fun htotal hmultiple => ?_⟩
  have hne : sum ≠ 0#8 := fun hsum => htotal (sum_toNat_eq_zero_iff.2 (hzero.1 hsum))
  have hff : sum = 0xFF#8 := eq_of_mod_255 (hmod.trans hmultiple) (iff_of_false hne (by decide))
  exact ⟨hff, by rw [hff]; rfl⟩

/-! ### `CKt` over a run of commands -/

/-- The byte a command adds to `CKt`. -/
def addedByte : Instr → Option Byte
  | .ckAdd b => some b
  | _ => none

/-- Except for `CK.CLR`, a command folds the byte it adds, if any, into `CKt`: the decoder pass, the synthesizer and
the utilities share no register with it (R144). -/
theorem exec_ckt {i : Instr} {s t : State} (h : exec i s = .next t) (hi : i ≠ .ckClr) :
    t.ckt = (addedByte i).toList.foldl sumAdd s.ckt := by
  obtain ⟨hpass, hsynth, -, hutil⟩ := agentsShareNoRegister
  cases i with
  | ckClr => exact absurd rfl hi
  | ckAdd | ckRes => cases h; rfl
  | bdBrk | bdByte | fsmStep | fsmStop => exact (congrArg State.ckt (hpass _ s t (by simp) h).1 :)
  | syIdle | syBrk | syByte | syPid | syData | syChk => exact (congrArg State.ckt (hsynth _ s t (by simp) h).1 :)
  | utPar | utRev => exact (congrArg State.ckt (hutil _ s t (by simp) h).1 :)

theorem execAll_cons {i : Instr} {is : List Instr} {s t : State} (h : execAll (i :: is) s = some t) :
    ∃ u, exec i s = .next u ∧ execAll is u = some t := by
  rw [execAll] at h
  cases hi : exec i s with
  | next u => rw [hi] at h; exact ⟨u, rfl, h⟩
  | fault | refused => rw [hi] at h; cases h

/-- Without `CK.CLR` the bytes added are folded into `CKt` in order, whatever runs between them (R148). -/
theorem execAll_ckt {is : List Instr} {s t : State} (h : execAll is s = some t) (his : ∀ i ∈ is, i ≠ .ckClr) :
    t.ckt = (is.filterMap addedByte).foldl sumAdd s.ckt := by
  induction is generalizing s with
  | nil => cases h; rfl
  | cons i rest ih =>
    obtain ⟨hi, hrest⟩ := List.forall_mem_cons.1 his
    obtain ⟨u, hu, ht⟩ := execAll_cons h
    rw [ih ht hrest, exec_ckt hu hi, List.filterMap_eq_flatMap_toList, List.filterMap_eq_flatMap_toList,
      List.flatMap_cons, List.foldl_append]

/-- Settles O14: `CKt` command by command, and the sum of a permuted list. -/
theorem sumIgnoresBatchingAndOrder : Obligations.SumIgnoresBatchingAndOrder :=
  ⟨fun _ _ _ h his => execAll_ckt h his, fun _ _ sum hperm => foldl_sumAdd_eq_of_perm hperm sum⟩

/-! ### `CK.CLR`, `CK.ADD` and `CK.RES` -/

/-- A command of the zero class has no word with another immediate than 0 (R95, R96). -/
theorem wordRefused_of_zero_class {op imm : Byte} (hop : immClassOf op = some .zero) (himm : imm ≠ 0#8) :
    WordRefused (op ++ imm) := by
  change WordRefused (wordOf op imm)
  refine wordRefused_of_decode_error (decode_error_iff.2 fun cls hcls => ?_)
  rw [opField_wordOf, hop] at hcls
  cases hcls
  rw [immField_wordOf]
  exact beq_false_of_ne himm

/-- Settles O10: its word is its encoding, its class is zero, and it clears `CKt`. -/
theorem ckClrClearsTheStandaloneSum : Obligations.CkClrClearsTheStandaloneSum :=
  ⟨⟨decode_eq_ok_iff_encode.2 ⟨rfl, rfl⟩, fun _ => wordRefused_of_zero_class rfl⟩, fun _ => rfl⟩

/-- Settles O11: its words are its encodings, and the byte is added as `sumAdd` adds it. -/
theorem ckAddFoldsItsByteIn : Obligations.CkAddFoldsItsByteIn :=
  ⟨fun _ => decode_eq_ok_iff_encode.2 ⟨rfl, rfl⟩, fun b s => ⟨sumAdd s.ckt b, rfl, sumAdd_toNat s.ckt b⟩⟩

/-- Settles O12: its word is its encoding, its class is zero, and it answers `sumResult`, the complement. -/
theorem ckResAnswersTheComplement : Obligations.CkResAnswersTheComplement := by
  refine ⟨⟨decode_eq_ok_iff_encode.2 ⟨rfl, rfl⟩, fun _ => wordRefused_of_zero_class rfl⟩, fun s => ?_⟩
  rw [← sumResult_eq_ofNat]
  rfl

end Sys2Proof.Proofs
end

section
/-! PROOFS. An iteration of the frame state machine (R150 to R165): for each arm the pass it leaves and the events it
appends (`ArmLeaves`), and from it `FSM.STEP` from the decoded element to the events and the registers; and
`FSM.STOP`. -/

namespace Sys2Proof.Proofs

open Sys2Proof Sys2Proof.Machine Sys2Proof.Safety Sys2Proof.Laws

/-! ### What each arm leaves -/

/-- The arm of an iteration that has decoded `d` with the pass `p` leaves the pass `q` and appends `ev`. -/
structure ArmLeaves (c : Cfg) (d : Decoded) (p q : Pass) (ev : List Event) : Prop where
  pass : ∀ old, (arm c d { pass := p, ev := old }).pass = q
  events : ∀ old, (arm c d { pass := p, ev := old }).ev = old ++ ev

/-- A packet is committed if it is open (R154). -/
theorem commitPacket_appends (x : Iteration) : (commitPacket x).ev = x.ev ++ commitEvents x.pass :=
  commitPacket_ev x

/-- The flags of a failed break (R155, R164). -/
theorem breakFailFlags_eq (fe : Bool) : breakFailFlags (decodeFlags fe) = if fe then 0x3#4 else 0x2#4 := by
  cases fe <;> rfl

/-- The flags of a failed sync byte (R158, R164). -/
theorem syncFailFlags_eq (fe : Bool) : syncFailFlags (decodeFlags fe) = if fe then 0x5#4 else 0x4#4 := by
  cases fe <;> rfl

/-- The flags of the terminating byte are additive (R162, R164). -/
theorem checksumFlags_eq (fl : BitVec 4) (v result : Byte) :
    checksumFlags fl v result = fl ||| if v = result then 0x0#4 else 0x8#4 := by
  unfold checksumFlags
  split
  · exact (BitVec.or_zero ..).symm
  · rfl

section
variable (c : Cfg) {d : Decoded} {p : Pass}

/-- Before a packet the arm is `HeaderBreak`'s: `NoFrame` has become `HeaderBreak` (R152). -/
theorem arm_of_outside {x : Iteration} (hf : insidePacket x.pass.fstate = false) :
    arm c d x = headerBreakArm d (decodeFlags d.fe) x := by
  unfold arm
  split
  · rfl
  · rfl
  all_goals simp_all [insidePacket]

/-- In a packet a disguised break wins over the state's arm (R157, R235). -/
theorem arm_of_disguised_break {x : Iteration} (hf : insidePacket x.pass.fstate = true) (hbrk : d.brk = true) :
    arm c d x = breakInByteArm d x := by
  unfold arm
  split
  · simp_all [insidePacket]
  · simp_all [insidePacket]
  all_goals exact if_pos hbrk

/-- A break of value `0x00` closes an open packet, opens the next and begins its header, whatever its delimiter read
(R155). -/
theorem arm_confirmedBreak (hf : insidePacket p.fstate = false) (hv : d.value = 0x00#8) :
    ArmLeaves c d p { p with fstate := .headerSync, packetOpen := true, showIbs := true, byteCount := 0 }
      (commitEvents p ++ [.beginPacket, frameEvent d .headerBreak 0x00#8 0 (decodeFlags d.fe)]) := by
  constructor
  all_goals
    intro old
    rw [arm_of_outside c hf]
    simp [headerBreakArm, hv]

/-- A break of another value is flagged, and an open packet closed (R155). -/
theorem arm_failedBreak (hf : insidePacket p.fstate = false) (hv : d.value ≠ 0x00#8) :
    ArmLeaves c d p { p with fstate := .noFrame, packetOpen := false }
      ([frameEvent d .headerBreak d.value 0 (breakFailFlags (decodeFlags d.fe))] ++ commitEvents p) := by
  constructor
  all_goals
    intro old
    rw [arm_of_outside c hf]
    simp [headerBreakArm, hv, commitPacket_appends, -commitPacket_ev]

/-- A disguised break begins a header with no flag (R157). -/
theorem arm_disguisedBreak (hf : insidePacket p.fstate = true) (hbrk : d.brk = true) :
    ArmLeaves c d p { p with fstate := .headerSync, packetOpen := true, showIbs := true, byteCount := 0 }
      (commitEvents p ++ [.beginPacket, frameEvent d .headerBreak 0x00#8 0 0#4]) := by
  constructor
  all_goals
    intro old
    rw [arm_of_disguised_break c hf hbrk]
    simp [breakInByteArm]

section
variable (hbrk : d.brk = false)
include hbrk

/-- The sync byte `0x55` leads on to the PID (R158). -/
theorem arm_syncByte (hf : p.fstate = .headerSync) (hv : d.value = 0x55#8) :
    ArmLeaves c d p { p with fstate := .headerPid }
      [frameEvent d .headerSync 0x55#8 0 (decodeFlags d.fe)] := by
  constructor <;> simp [arm, hf, hbrk, headerSyncArm, syncByte, hv]

/-- Any other byte in the sync byte's place is flagged, and its packet closed (R158). -/
theorem arm_failedSync (hf : p.fstate = .headerSync) (hv : d.value ≠ 0x55#8) :
    ArmLeaves c d p { p with fstate := .noFrame, packetOpen := false }
      ([frameEvent d .headerSync d.value 0 (syncFailFlags (decodeFlags d.fe))] ++ commitEvents p) := by
  constructor <;> simp [arm, hf, hbrk, headerSyncArm, syncByte, hv, commitPacket_appends, -commitPacket_ev]

/-- Any byte is the PID: it is summed after a clear, and selects the mode (R156, R159). -/
theorem arm_pidByte (hf : p.fstate = .headerPid) :
    ArmLeaves c d p
      { p with fstate := .responseDataZero, pid := d.value, ckd := d.value, classic := isClassic c d.value }
      [frameEvent d .headerPid d.value 0 (decodeFlags d.fe)] := by
  constructor <;> simp [arm, hf, hbrk, headerPidArm]

/-- The first response byte is data; classic mode clears the sum before it, and so leaves the PID out (R160). -/
theorem arm_firstByte (hf : p.fstate = .responseDataZero) :
    ArmLeaves c d p
      { p with fstate := if 1 < c.maxResponseBytes then .responseData else .responseChecksum, byteCount := 1,
               ckd := if p.classic then d.value else sumAdd p.ckd d.value }
      [frameEvent d .responseDataZero d.value 0 (decodeFlags d.fe)] := by
  refine ⟨fun old => ?_, fun old => by simp [arm, hf, hbrk, dataZeroArm]⟩
  cases hclassic : p.classic <;> simp [arm, hf, hbrk, dataZeroArm, hclassic]

/-- A later response byte may be the checksum, and is summed and counted either way (R161). -/
theorem arm_laterByte (hf : p.fstate = .responseData) :
    ArmLeaves c d p
      { p with fstate := if c.maxResponseBytes ≤ p.byteCount + 1 then .responseChecksum else .responseData,
               byteCount := p.byteCount + 1, ckd := sumAdd p.ckd d.value }
      [frameEvent d (if d.value = sumResult p.ckd then .responsePotentialChecksum else .responseData) d.value
        p.byteCount (decodeFlags d.fe)] := by
  by_cases hfull : c.maxResponseBytes ≤ p.byteCount + 1
  · constructor <;> simp [arm, hf, hbrk, dataArm, hfull]
  · constructor <;> simp [arm, hf, hbrk, dataArm, hfull]

/-- The terminating byte is compared with the running result, and its packet closed (R162). -/
theorem arm_checksumByte (hf : p.fstate = .responseChecksum) :
    ArmLeaves c d p { p with fstate := .noFrame, packetOpen := false }
      ([frameEvent d .responseChecksum d.value p.byteCount
        (checksumFlags (decodeFlags d.fe) d.value (sumResult p.ckd))] ++ commitEvents p) := by
  constructor <;> simp [arm, hf, hbrk, checksumArm, commitPacket_appends, -commitPacket_ev]

end

end

/-! ### `FSM.STEP` from the decoded element -/

theorem gapEvents_of_cursorMoved {p q : Pass} (h : OnlyCursorMoved p q) (start : Nat) :
    gapEvents q start = gapEvents p start := by
  rw [h]
  rfl

theorem commitEvents_of_cursorMoved {p q : Pass} (h : OnlyCursorMoved p q) : commitEvents q = commitEvents p := by
  rw [h]
  rfl

/-- An iteration is the gap, what the arm leaves, and the end (R150, R153, R163). -/
theorem iterate_of_arm {c : Cfg} {d : Decoded} {p q : Pass} {ev : List Event} (harm : ArmLeaves c d p q ev) :
    (iterate c d p).pass = { q with lastEnd := d.endSample } ∧
      (iterate c d p).ev = gapEvents p d.startSample ++ ev ++ [.progress p.pos] := by
  have hgap : emitGap d { pass := p, ev := [] } = { pass := p, ev := gapEvents p d.startSample } := by
    unfold emitGap gapEvents
    split <;> rfl
  obtain ⟨hpos, -⟩ := arm_cursor c d { pass := p, ev := gapEvents p d.startSample }
  rw [harm.pass] at hpos
  simp [iterate, hgap, harm.pass, harm.events, hpos]

/-- `FSM.STEP` of a running pass whose decode is answered. -/
theorem execFsmStep_of_arm {s : State} {d : Decoded} {p q : Pass} {ev : List Event} (hrun : s.pass.halted = .run)
    (hd : decodeFor s.cfg s.tlb (leaveNoFrame s.pass) = .ok d p) (harm : ArmLeaves s.cfg d p q ev) :
    exec .fsmStep s = .next (afterStep s (gapEvents s.pass d.startSample ++ ev ++ [.progress d.endSample])
      { q with lastEnd := d.endSample }) := by
  obtain ⟨hpass, hev⟩ := iterate_of_arm harm
  obtain ⟨hmoved, -, hend⟩ := decodeFor_answered hd
  have hgap : gapEvents (leaveNoFrame s.pass) d.startSample = gapEvents s.pass d.startSample := by simp [gapEvents]
  refine (execFsmStep_of_answered hrun hd).trans ?_
  rw [hpass, hev, gapEvents_of_cursorMoved hmoved, hgap, ← hend]
  rfl

section
variable {s : State} {d : Decoded} {p : Pass}

theorem insidePacket_iff {f : FState} : insidePacket f = true ↔ f ≠ .noFrame ∧ f ≠ .headerBreak := by
  cases f <;> decide

/-- In a packet the decode is `ByteDecode` from the pass as it is (R150). -/
theorem decodeFor_inside (hf : insidePacket s.pass.fstate = true) :
    decodeFor s.cfg s.tlb (leaveNoFrame s.pass) = byteDecode s.cfg s.tlb s.pass := by
  obtain ⟨hno, hbreak⟩ := insidePacket_iff.1 hf
  rw [leaveNoFrame, if_neg hno, decodeFor, if_neg hbreak]

/-- Before a packet the decode is `BreakDecode`, which does not read the frame state: `NoFrame` gives the same as
`HeaderBreak` (R150, R152). -/
theorem decodeFor_outside (hf : s.pass.fstate = .noFrame ∨ s.pass.fstate = .headerBreak)
    (hd : breakDecode s.cfg s.tlb s.pass = .ok d p) :
    decodeFor s.cfg s.tlb (leaveNoFrame s.pass) = .ok d { p with fstate := .headerBreak } := by
  have hleave : leaveNoFrame s.pass = { s.pass with fstate := .headerBreak } := by
    rw [leaveNoFrame_eq]
    obtain hf | hf := hf <;> simp [hf]
  rw [hleave, decodeFor, if_pos rfl, breakDecode_inState, hd]
  rfl

/-- `ByteDecode` leaves the cursor at the end of what it decoded, and beside it writes the transients only (R117,
R163). -/
theorem byteDecode_moved (hd : byteDecode s.cfg s.tlb s.pass = .ok d p) :
    OnlyCursorMoved s.pass p ∧ p.pos = d.endSample := by
  obtain ⟨hmoved, -, hend, -⟩ := ends_answered (byteDecode_ends ..) hd
  exact ⟨hmoved, hend.symm⟩

/-- `BreakDecode` does so too (R116, R163). -/
theorem breakDecode_moved (hd : breakDecode s.cfg s.tlb s.pass = .ok d p) :
    OnlyCursorMoved s.pass p ∧ p.pos = d.endSample := by
  obtain ⟨hmoved, -, hend, -⟩ := ends_answered (breakDecode_ends ..) hd
  exact ⟨hmoved, hend.symm⟩

end

/-- `FSM.STEP` in a packet, from the byte decoded to the events and the registers (R150). -/
theorem execFsmStep_inside {s : State} {d : Decoded} {p q : Pass} {ev : List Event} (hrun : s.pass.halted = .run)
    (hf : insidePacket s.pass.fstate = true) (hd : byteDecode s.cfg s.tlb s.pass = .ok d p)
    (harm : ArmLeaves s.cfg d p q ev) :
    exec .fsmStep s = .next (afterStep s (gapEvents s.pass d.startSample ++ ev ++ [.progress d.endSample])
      { q with lastEnd := d.endSample }) :=
  execFsmStep_of_arm hrun ((decodeFor_inside hf).trans hd) harm

/-- Settles O28: the arm of a break of value `0x00`. -/
theorem confirmedBreakBeginsAPacket : Obligations.ConfirmedBreakBeginsAPacket := by
  intro s d p hrun hf hd hv
  obtain ⟨hmoved, hend⟩ := breakDecode_moved hd
  refine ⟨hmoved, hend, ?_⟩
  refine (execFsmStep_of_arm hrun (decodeFor_outside hf hd) (arm_confirmedBreak s.cfg rfl hv)).trans ?_
  rw [← commitEvents_of_cursorMoved hmoved]
  simp [commitEvents]

/-- Settles O29: the arm of a break of another value. -/
theorem failedBreakIsFlagged : Obligations.FailedBreakIsFlagged := by
  intro s d p hrun hf hd hv
  obtain ⟨hmoved, hend⟩ := breakDecode_moved hd
  refine ⟨hmoved, hend, ?_⟩
  refine (execFsmStep_of_arm hrun (decodeFor_outside hf hd) (arm_failedBreak s.cfg rfl hv)).trans ?_
  rw [← commitEvents_of_cursorMoved hmoved, breakFailFlags_eq, ← List.append_assoc]
  rfl

/-- Settles O30: `ByteDecode` never answers with both results set, and the break wins over the state's arm. -/
theorem disguisedBreakBeginsAPacket : Obligations.DisguisedBreakBeginsAPacket := by
  intro s d p hrun hno hbreak hd hbrk
  have hf := insidePacket_iff.2 ⟨hno, hbreak⟩
  obtain ⟨hmoved, -, hend, -, -, hexclusive, -⟩ := ends_answered (byteDecode_ends ..) hd
  obtain ⟨hstate, -⟩ := cursorMoved_fields hmoved
  refine ⟨hmoved, hend.symm, by simpa [hbrk] using hexclusive, ?_⟩
  refine (execFsmStep_inside hrun hf hd (arm_disguisedBreak s.cfg (hstate ▸ hf) hbrk)).trans ?_
  rw [← commitEvents_of_cursorMoved hmoved]
  simp

/-- Settles O31: the two ends of the sync byte's arm. -/
theorem syncByteIsChecked : Obligations.SyncByteIsChecked := by
  intro s d p hrun hf hd hbrk
  obtain ⟨hmoved, hend⟩ := byteDecode_moved hd
  obtain ⟨hstate, -⟩ := cursorMoved_fields hmoved
  have hinside : insidePacket s.pass.fstate = true := by rw [hf]; rfl
  refine ⟨hmoved, hend, fun hv => ?sync, fun hv => ?failed⟩
  case sync =>
    refine (execFsmStep_inside hrun hinside hd (arm_syncByte s.cfg hbrk (hstate.trans hf) hv)).trans ?_
    simp
  case failed =>
    refine (execFsmStep_inside hrun hinside hd (arm_failedSync s.cfg hbrk (hstate.trans hf) hv)).trans ?_
    rw [commitEvents_of_cursorMoved hmoved, syncFailFlags_eq, ← List.append_assoc]

/-- Settles O32: the iteration in `HeaderPID`, with the mode written out. -/
theorem anyByteIsTakenAsThePid : Obligations.AnyByteIsTakenAsThePid := by
  intro s d p hrun hf hd hbrk
  obtain ⟨hmoved, hend⟩ := byteDecode_moved hd
  refine ⟨hmoved, hend, (execFsmStep_headerPid hrun hf hd hbrk).trans ?_⟩
  rw [isClassic_eq, gapEvents_of_cursorMoved hmoved, hend]
  rfl

/-- Settles O33: the arm of the first response byte. -/
theorem firstResponseByteIsData : Obligations.FirstResponseByteIsData := by
  intro s d p hrun hf hd hbrk
  obtain ⟨hmoved, hend⟩ := byteDecode_moved hd
  obtain ⟨hstate, -, hckd, hclassic, -⟩ := cursorMoved_fields hmoved
  refine ⟨hmoved, hend, ?_⟩
  refine (execFsmStep_inside hrun (by rw [hf]; rfl) hd (arm_firstByte s.cfg hbrk (hstate.trans hf))).trans ?_
  simp [hckd, hclassic]

/-- Settles O34: the arm of a later response byte. -/
theorem laterResponseByteIsSummedEitherWay : Obligations.LaterResponseByteIsSummedEitherWay := by
  intro s d p hrun hf hd hbrk
  obtain ⟨hmoved, hend⟩ := byteDecode_moved hd
  obtain ⟨hstate, hcount, hckd, -⟩ := cursorMoved_fields hmoved
  refine ⟨hmoved, hend, ?_⟩
  refine (execFsmStep_inside hrun (by rw [hf]; rfl) hd (arm_laterByte s.cfg hbrk (hstate.trans hf))).trans ?_
  simp [hckd, hcount, sumResult]

/-- Settles O35: the arm of the terminating byte. -/
theorem terminatingByteIsTheChecksum : Obligations.TerminatingByteIsTheChecksum := by
  intro s d p hrun hf hd hbrk
  obtain ⟨hmoved, hend⟩ := byteDecode_moved hd
  obtain ⟨hstate, hcount, hckd, -⟩ := cursorMoved_fields hmoved
  refine ⟨hmoved, hend, ?_⟩
  refine (execFsmStep_inside hrun (by rw [hf]; rfl) hd (arm_checksumByte s.cfg hbrk (hstate.trans hf))).trans ?_
  rw [commitEvents_of_cursorMoved hmoved, hckd, hcount, checksumFlags_eq, ← List.append_assoc]
  rfl

/-! ### `FSM.STOP` -/

/-- Settles O27: its word is its encoding, its class is zero, and it writes `halted` of a running pass only. -/
theorem fsmStopCancelsARunningPass : Obligations.FsmStopCancelsARunningPass := by
  refine ⟨⟨decode_eq_ok_iff_encode.2 ⟨rfl, rfl⟩, fun _ => wordRefused_of_zero_class rfl⟩, fun s => ⟨?run, ?ended⟩⟩
  case run =>
    intro hrun
    simp only [exec, execFsmStop, if_pos hrun]
    rfl
  case ended =>
    intro hended
    simp only [exec, execFsmStop, if_neg hended]
    rfl

end Sys2Proof.Proofs
end

section
/-! PROOFS. `SY.PID` (R156, R208, R211): it sends the PID byte as `SY.BYTE` does, and starts the checksum in the mode
that the decoder chooses for that byte. -/

namespace Sys2Proof.Proofs

open Sys2Proof Sys2Proof.Machine Sys2Proof.Safety Sys2Proof.Laws

/-- The PID byte carries its identifier in its six low bits (R84, R85). -/
theorem extract_parity : ∀ id : BitVec 6, (parity id).extractLsb' 0 6 = id := by decide

/-- A synthesis command that fits runs, and answers with the edges it appended (R201). -/
theorem synthesize_of_fits {cost : Nat} {run : Synth → Synth} {s : State}
    (hfits : synthFits s.cfg cost s.synth = true) :
    synthesize cost run s = .next
      (respond (.edges ((run s.synth).edges.drop s.synth.edges.length)) { s with synth := run s.synth }) :=
  if_pos hfits

/-- Settles O47: the checksum registers that `SY.PID` writes have no part in driving its byte. -/
theorem syPidStartsTheChecksum : Obligations.SyPidStartsTheChecksum := by
  intro id s hfits classic
  have hmode : isClassic s.cfg (parity id) = classic := by rw [isClassic_eq, extract_parity]
  change synthFits s.cfg (byteCost s.cfg) s.synth = true at hfits
  refine ⟨_, synthesize_of_fits hfits, ?_⟩
  change execSyPid id s = _
  rw [execSyPid, synthesize_of_fits hfits]
  simp only [startChecksum, driveByte_sum, sumAdd_clear, hmode]
  rfl

end Sys2Proof.Proofs
end

section
/-! PROOFS. The invariants of the event stream (R154, R163, R167, R168): what an iteration's arm can append
(`ArmEvents`), what a property of the stream needs for every step to keep it (`StreamInvariant`), and the three
properties: the packets, the flags, and the order of the frames. -/

namespace Sys2Proof.Proofs

open Sys2Proof Sys2Proof.Machine Sys2Proof.Safety Sys2Proof.Laws

/-! ### What an arm can append -/

/-- The events that an arm appends with the pass `p`, and whether a packet is open after them: one frame of the decoded
element, with flags its kind can have. -/
inductive ArmEvents (d : Decoded) (p : Pass) : (isOpen : Bool) → List Event → Prop
  /-- A break begins the next packet (R155, R157). -/
  | begins {fl : BitVec 4} (hflags : flagsAllowed .headerBreak fl = true) :
      ArmEvents d p true (commitEvents p ++ [.beginPacket, frameEvent d .headerBreak 0x00#8 0 fl])
  /-- A byte of the packet (R158 to R161). -/
  | continues {k : Kind} {v : Byte} {i : Nat} {fl : BitVec 4} (hflags : flagsAllowed k fl = true)
      (hopen : p.packetOpen = true) (hkind : k ≠ .headerBreak) : ArmEvents d p true [frameEvent d k v i fl]
  /-- The last byte of the packet (R158, R162). -/
  | ends {k : Kind} {v : Byte} {i : Nat} {fl : BitVec 4} (hflags : flagsAllowed k fl = true)
      (hopen : p.packetOpen = true) (hkind : k ≠ .headerBreak) :
      ArmEvents d p false ([frameEvent d k v i fl] ++ commitEvents p)
  /-- A failed break outside packets (R155). -/
  | fails {v : Byte} {fl : BitVec 4} (hflags : flagsAllowed .headerBreak fl = true) (hclosed : p.packetOpen = false)
      (hv : v ≠ 0x00#8) : ArmEvents d p false ([frameEvent d .headerBreak v 0 fl] ++ commitEvents p)

theorem flagsAllowed_decodeFlags {k : Kind} (hk : k ≠ .noFrame) (fe : Bool) :
    flagsAllowed k (decodeFlags fe) = true := by
  cases k
  case noFrame => exact absurd rfl hk
  all_goals cases fe <;> rfl

theorem flagsAllowed_breakFailFlags (fe : Bool) :
    flagsAllowed .headerBreak (breakFailFlags (decodeFlags fe)) = true := by
  cases fe <;> rfl

theorem flagsAllowed_syncFailFlags (fe : Bool) :
    flagsAllowed .headerSync (syncFailFlags (decodeFlags fe)) = true := by
  cases fe <;> rfl

theorem flagsAllowed_checksumFlags (fe : Bool) (v result : Byte) :
    flagsAllowed .responseChecksum (checksumFlags (decodeFlags fe) v result) = true := by
  unfold checksumFlags
  split <;> cases fe <;> rfl

/-- Every arm appends what `ArmEvents` lists, and leaves `packet_open` to say whether the packet is open. -/
theorem arm_events {c : Cfg} {p : Pass} (h : FrameRegsLegal c p) (d : Decoded) :
    ∃ q ev, ArmLeaves c d p q ev ∧ ArmEvents d p q.packetOpen ev := by
  cases hinside : insidePacket p.fstate with
  | false =>
    by_cases hv : d.value = 0x00#8
    · exact ⟨_, _, arm_confirmedBreak c hinside hv, .begins (flagsAllowed_decodeFlags (by decide) _)⟩
    · exact ⟨_, _, arm_failedBreak c hinside hv,
        .fails (flagsAllowed_breakFailFlags _) (h.packet.trans hinside) hv⟩
  | true =>
    have hopen : p.packetOpen = true := h.packet.trans hinside
    have continues : ∀ {k v i}, k ≠ .noFrame → k ≠ .headerBreak →
        ArmEvents d p p.packetOpen [frameEvent d k v i (decodeFlags d.fe)] := fun hk hkind => by
      rw [hopen]
      exact .continues (flagsAllowed_decodeFlags hk _) hopen hkind
    cases hbrk : d.brk with
    | true => exact ⟨_, _, arm_disguisedBreak c hinside hbrk, .begins rfl⟩
    | false =>
      cases hf : p.fstate with
      | noFrame | headerBreak => simp [hf, insidePacket] at hinside
      | headerSync =>
        by_cases hv : d.value = 0x55#8
        · exact ⟨_, _, arm_syncByte c hbrk hf hv, continues (by decide) (by decide)⟩
        · exact ⟨_, _, arm_failedSync c hbrk hf hv, .ends (flagsAllowed_syncFailFlags _) hopen (by decide)⟩
      | headerPid => exact ⟨_, _, arm_pidByte c hbrk hf, continues (by decide) (by decide)⟩
      | responseDataZero => exact ⟨_, _, arm_firstByte c hbrk hf, continues (by decide) (by decide)⟩
      | responseData => exact ⟨_, _, arm_laterByte c hbrk hf, continues (by split <;> decide) (by split <;> decide)⟩
      | responseChecksum =>
        exact ⟨_, _, arm_checksumByte c hbrk hf, .ends (flagsAllowed_checksumFlags ..) hopen (by decide)⟩

/-! ### A property of the stream over a step -/

/-- A property `P` of the event stream, `packet_open` and `last_end` that reset gives and every completed or exhausted
iteration keeps. -/
structure StreamInvariant (P : List Event → Bool → Nat → Prop) : Prop where
  reset : ∀ s0, P [] false s0
  exhausted : ∀ {old isOpen lastEnd} x, P old isOpen lastEnd → P (old ++ [.exhausted x]) isOpen lastEnd
  iteration : ∀ {old d p isOpen ev} (pos : Nat), P old p.packetOpen p.lastEnd → p.lastEnd ≤ d.startSample →
    d.startSample ≤ d.endSample → ArmEvents d p isOpen ev →
    P (old ++ (gapEvents p d.startSample ++ ev ++ [.progress pos])) isOpen d.endSample

theorem registersLegal_of_blockLegal {s : State} (h : BlockLegal s) : RegistersLegal s := by
  obtain ⟨hheld, hcursor, hfsm, hrequest, -⟩ := h
  exact ⟨hheld, hcursor, hfsm, hrequest⟩

/-- What was decoded starts after `last_end` (R124, R163). -/
theorem decodeFor_after_lastEnd {s : State} {d : Decoded} {p : Pass} (hs : CursorLegal s)
    (hd : decodeFor s.cfg s.tlb (leaveNoFrame s.pass) = .ok d p) :
    s.pass.lastEnd ≤ d.startSample ∧ d.startSample ≤ d.endSample := by
  obtain ⟨-, -, -, hafter, hordered, -⟩ := ends_answered (decodeFor_ends ..) hd
  obtain ⟨-, hlast, -⟩ := hs
  rw [leaveNoFrame_pos] at hafter
  exact ⟨hlast.trans hafter.le, hordered⟩

section
variable {P : List Event → Bool → Nat → Prop} (hP : StreamInvariant P)
include hP

/-- Only `FSM.STEP` appends to the stream, and no other command writes `packet_open` or `last_end` (R243, R254). -/
theorem CommandEffect.streamInvariant {i : Instr} {s t : State} (h : CommandEffect i s t) (hregs : RegistersLegal s)
    (hs : P s.events s.pass.packetOpen s.pass.lastEnd) : P t.events t.pass.packetOpen t.pass.lastEnd := by
  obtain ⟨-, hcursor, hfsm, -⟩ := hregs
  cases h
  case decode p _ hmoved _ =>
    obtain ⟨-, -, -, -, -, -, hlast, hopen, -⟩ := cursorMoved_fields hmoved
    change P s.events p.packetOpen p.lastEnd
    rwa [hopen, hlast]
  case iteration d p _ hd =>
    obtain ⟨hmoved, -, -⟩ := decodeFor_answered hd
    obtain ⟨-, -, -, -, -, -, hlast, hopen, -⟩ := cursorMoved_fields hmoved
    obtain ⟨hafter, hordered⟩ := decodeFor_after_lastEnd hcursor hd
    have hlegal := frameRegsLegal_of_cursorMoved (leaveNoFrame_frameRegsLegal (fsmLegal_iff.1 hfsm)) hmoved
    obtain ⟨q, ev, hleaves, hev⟩ := arm_events hlegal d
    obtain ⟨hpass, hevents⟩ := iterate_of_arm hleaves
    rw [leaveNoFrame_lastEnd] at hlast
    rw [leaveNoFrame_packetOpen] at hopen
    rw [← hlast] at hs hafter
    rw [← hopen] at hs
    rw [deliver_events, deliver_pass, hpass, hevents]
    exact hP.iteration p.pos hs hafter hordered hev
  case exhaustStep x _ _ => simpa using hP.exhausted x hs
  all_goals exact hs

/-- A step is a reset, a delivery or a command, and only a reset or a command touches the stream (R72). -/
theorem StreamInvariant.kept_by_step {s t : State} (hblock : BlockLegal s)
    (hs : P s.events s.pass.packetOpen s.pass.lastEnd) (h : step s = .next t) :
    P t.events t.pass.packetOpen t.pass.lastEnd := by
  refine (step_keeps (P := fun u => RegistersLegal u ∧ P u.events u.pass.packetOpen u.pass.lastEnd)
    ?ports ?reset ?delivery ?command ⟨registersLegal_of_blockLegal hblock, hs⟩ h).2
  case ports =>
    exact fun _ _ _ _ ⟨⟨hheld, hcursor, hfsm, _⟩, hs⟩ => ⟨⟨hheld, hcursor, hfsm, requestLegal_of_idle rfl⟩, hs⟩
  case reset => exact fun _ hin => ⟨registersLegal_of_blockLegal (ofInputs_blockLegal hin), hP.reset _⟩
  case delivery => exact fun _ _ ⟨hregs, hs⟩ hx => ⟨delivery_registersLegal hregs hx, hs⟩
  case command =>
    exact fun _ _ _ ⟨hregs, hs⟩ hidle heffect => ⟨heffect.registersLegal hregs hidle,
      heffect.streamInvariant hP hregs hs⟩

end

/-! ### The packets -/

/-- Where a well-formed stream stands, by `packet_open` (R30, R167). -/
def packetScan (isOpen : Bool) : PacketScan := if isOpen then .inside else .outside

theorem scanEvents_append (st : PacketScan) (old ev : List Event) :
    scanEvents st (old ++ ev) = (scanEvents st old).bind fun st' => scanEvents st' ev := by
  induction old generalizing st with
  | nil => rfl
  | cons e rest ih =>
    rw [List.cons_append, scanEvents, scanEvents]
    cases scanEvent st e with
    | none => rfl
    | some st' => exact ih st'

/-- An inter-byte space may stand inside a packet and outside (R153, R167). -/
theorem scanEvents_gapEvents (isOpen : Bool) (p : Pass) (start : Nat) :
    scanEvents (packetScan isOpen) (gapEvents p start) = some (packetScan isOpen) := by
  unfold gapEvents
  split
  · cases isOpen <;> rfl
  · rfl

/-- Whether or not a packet was open, it is closed after its commit (R154). -/
theorem scanEvents_commitEvents (p : Pass) :
    scanEvents (packetScan p.packetOpen) (commitEvents p) = some .outside := by
  unfold commitEvents
  cases p.packetOpen <;> rfl

/-- `Progress` may stand anywhere but before a packet's break. -/
theorem scanEvents_progress (isOpen : Bool) (pos : Nat) :
    scanEvents (packetScan isOpen) [.progress pos] = some (packetScan isOpen) := by
  cases isOpen <;> rfl

theorem scanEvents_exhausted (isOpen : Bool) (pos : Nat) :
    scanEvents (packetScan isOpen) [.exhausted pos] = some (packetScan isOpen) := by
  cases isOpen <;> rfl

/-- What an arm appends keeps the packets well formed (R154, R167). -/
theorem ArmEvents.keeps_scan {d : Decoded} {p : Pass} {isOpen : Bool} {ev : List Event}
    (h : ArmEvents d p isOpen ev) :
    scanEvents (packetScan p.packetOpen) ev = some (packetScan isOpen) := by
  cases h with
  | begins _ =>
    rw [scanEvents_append, scanEvents_commitEvents]
    rfl
  | continues _ hopen hkind => simp [hopen, packetScan, frameEvent, scanEvents, scanEvent, hkind]
  | ends _ hopen hkind =>
    simp [hopen, packetScan, frameEvent, scanEvents, scanEvent, hkind, commitEvents]
  | fails _ hclosed hv =>
    simp [hclosed, packetScan, frameEvent, scanEvents, scanEvent, hv, commitEvents]

theorem packets_streamInvariant :
    StreamInvariant fun ev isOpen _ => scanEvents .outside ev = some (packetScan isOpen) where
  reset _ := rfl
  exhausted x hs := by
    rw [scanEvents_append, hs]
    exact scanEvents_exhausted _ x
  iteration pos hs _ _ hev := by
    simp only [scanEvents_append, hs, scanEvents_gapEvents, hev.keeps_scan, scanEvents_progress, Option.bind_some]

/-- Settles O57: in each of the four ways an arm appends, the scan of the stream follows `packet_open`. -/
theorem everyStepKeepsThePacketsLegal : Obligations.EveryStepKeepsThePacketsLegal := by
  intro s t hblock hstep
  have hpackets : PacketsLegal s := by
    obtain ⟨-, -, -, -, hpackets, -⟩ := hblock
    exact hpackets
  exact packets_streamInvariant.kept_by_step hblock hpackets hstep

/-! ### The frames of an iteration -/

@[simp] theorem framesOf_append (old ev : List Event) : framesOf (old ++ ev) = framesOf old ++ framesOf ev :=
  List.filterMap_append

@[simp] theorem framesOf_commitEvents (p : Pass) : framesOf (commitEvents p) = [] := by
  unfold commitEvents
  split <;> rfl

@[simp] theorem framesOf_progress (pos : Nat) : framesOf [.progress pos] = [] := rfl

@[simp] theorem framesOf_exhausted (pos : Nat) : framesOf [.exhausted pos] = [] := rfl

/-- An arm appends exactly one frame, that of the decoded element (R163, R164). -/
theorem ArmEvents.one_frame {d : Decoded} {p : Pass} {isOpen : Bool} {ev : List Event} (h : ArmEvents d p isOpen ev) :
    ∃ f : Frame, framesOf ev = [f] ∧ f.startSample = d.startSample ∧ f.endSample = d.endSample ∧
      flagsAllowed f.kind f.flags = true := by
  cases h with
  | begins hflags => exact ⟨_, by rw [framesOf_append, framesOf_commitEvents]; rfl, rfl, rfl, hflags⟩
  | continues hflags _ _ => exact ⟨_, rfl, rfl, rfl, hflags⟩
  | ends hflags _ _ => exact ⟨_, by rw [framesOf_append, framesOf_commitEvents]; rfl, rfl, rfl, hflags⟩
  | fails hflags _ _ => exact ⟨_, by rw [framesOf_append, framesOf_commitEvents]; rfl, rfl, rfl, hflags⟩

/-! ### The flags -/

/-- An inter-byte space has no flag (R153, R167). -/
theorem flagsAllowed_gapEvents {p : Pass} {start : Nat} :
    ∀ f ∈ framesOf (gapEvents p start), flagsAllowed f.kind f.flags = true := by
  unfold gapEvents
  split
  · exact List.forall_mem_singleton.2 rfl
  · exact fun _ hf => nomatch hf

theorem flags_streamInvariant :
    StreamInvariant fun ev _ _ => ∀ f ∈ framesOf ev, flagsAllowed f.kind f.flags = true where
  reset _ := fun _ hf => nomatch hf
  exhausted x hs := by rwa [framesOf_append, framesOf_exhausted, List.append_nil]
  iteration pos hs _ _ hev := by
    obtain ⟨g, hframe, -, -, hflags⟩ := hev.one_frame
    simp only [framesOf_append, hframe, framesOf_progress, List.append_nil, List.forall_mem_append,
      List.forall_mem_singleton]
    exact ⟨hs, flagsAllowed_gapEvents, hflags⟩

/-- Settles O58: a space has no flag, and an arm's frame has flags its kind can have. -/
theorem everyStepKeepsTheFlagsLegal : Obligations.EveryStepKeepsTheFlagsLegal := by
  intro s t hblock hstep
  have hflags : FlagsLegal s := by
    obtain ⟨-, -, -, -, -, hflags, -⟩ := hblock
    exact hflags
  exact flags_streamInvariant.kept_by_step hblock hflags hstep

/-! ### The order of the frames -/

/-- Frames in order, none after `lastEnd`: `FramesOrdered` as a predicate of the frames (R168). -/
structure InOrder (frames : List Frame) (lastEnd : Nat) : Prop where
  disjoint : frames.Pairwise fun f g => f.endSample ≤ g.startSample
  within : ∀ f ∈ frames, f.startSample ≤ f.endSample ∧ f.endSample ≤ lastEnd

theorem InOrder.mono {frames : List Frame} {a b : Nat} (h : InOrder frames a) (hab : a ≤ b) : InOrder frames b where
  disjoint := h.disjoint
  within f hf := ⟨(h.within f hf).1, (h.within f hf).2.trans hab⟩

/-- A further frame, not before `lastEnd`. -/
theorem InOrder.concat {frames : List Frame} {lastEnd : Nat} {f : Frame} (h : InOrder frames lastEnd)
    (hstart : lastEnd ≤ f.startSample) (hend : f.startSample ≤ f.endSample) :
    InOrder (frames ++ [f]) f.endSample where
  disjoint := List.pairwise_append.2 ⟨h.disjoint, List.pairwise_singleton _ _, fun g hg =>
    List.forall_mem_singleton.2 ((h.within g hg).2.trans hstart)⟩
  within := List.forall_mem_append.2 ⟨(h.mono (hstart.trans hend)).within,
    List.forall_mem_singleton.2 ⟨hend, le_refl _⟩⟩

/-- An inter-byte space reaches from `last_end` to the next anchor (R153). -/
theorem InOrder.gap {frames : List Frame} {p : Pass} {start : Nat} (h : InOrder frames p.lastEnd)
    (hstart : p.lastEnd ≤ start) : InOrder (frames ++ framesOf (gapEvents p start)) start := by
  unfold gapEvents
  split
  · exact h.concat (le_refl _) hstart
  · simpa [framesOf] using h.mono hstart

theorem order_streamInvariant : StreamInvariant fun ev _ lastEnd => InOrder (framesOf ev) lastEnd where
  reset _ := ⟨List.Pairwise.nil, fun _ hf => nomatch hf⟩
  exhausted x hs := by rwa [framesOf_append, framesOf_exhausted, List.append_nil]
  iteration pos hs hafter hordered hev := by
    obtain ⟨g, hframe, hstart, hend, -⟩ := hev.one_frame
    rw [← hstart] at hafter ⊢
    rw [← hstart, ← hend] at hordered
    rw [← hend, framesOf_append, framesOf_append, framesOf_append, hframe, framesOf_progress, List.append_nil,
      ← List.append_assoc]
    exact (hs.gap hafter).concat (le_refl _) hordered

/-- Settles O59: a space starts at `last_end`, and an arm's frame where the space ends. -/
theorem everyStepKeepsTheFramesInOrder : Obligations.EveryStepKeepsTheFramesInOrder := by
  intro s t hblock hstep
  have hframes : FramesOrdered s := by
    obtain ⟨-, -, -, -, -, -, hframes, -⟩ := hblock
    exact hframes
  obtain ⟨hdisjoint, hwithin⟩ := order_streamInvariant.kept_by_step hblock ⟨hframes.1, hframes.2⟩ hstep
  exact ⟨hdisjoint, hwithin⟩

end Sys2Proof.Proofs
end

section
/-! PROOFS. The annotated view of a frame (R192, R193): the view's fields as functions of the kind, from one case split over
the kinds, and a flag's boolean as the flag's bit. -/

namespace Sys2Proof.Proofs

open Sys2Proof Sys2Proof.Machine

/-- A flag is a mask of one bit, so the test of R193 reads that bit (R89). -/
theorem and_oneBit_bne_zero : ∀ (flags : BitVec 4) (i : Fin 4),
    (flags &&& 1#4 <<< i.val != 0#4) = flags.getLsbD i := by decide

/-- The four booleans, each the bit of its flag (R193). -/
theorem annotateFlags_booleans (flags : BitVec 4) :
    (annotateFlags flags).byteFramingError = flags.getLsbD 0 ∧
    (annotateFlags flags).headerBreakExpected = flags.getLsbD 1 ∧
    (annotateFlags flags).headerSyncExpected = flags.getLsbD 2 ∧
    (annotateFlags flags).checksumMismatch = flags.getLsbD 3 :=
  ⟨and_oneBit_bne_zero flags 0, and_oneBit_bne_zero flags 1, and_oneBit_bne_zero flags 2, and_oneBit_bne_zero flags 3⟩

/-- The table of R192 read by field: to the view of the flags each kind adds its named fields and no other. -/
theorem annotate_eq (f : Frame) :
    annotate f =
      { annotateFlags f.flags with
        protectedIdentifier := if f.kind = .headerPid then some (idOf f.value) else none
        data := if f.kind = .responseDataZero ∨ f.kind = .responseData ∨ f.kind = .responsePotentialChecksum
          then some f.value else none
        index := if f.kind = .responseDataZero ∨ f.kind = .responseData ∨ f.kind = .responsePotentialChecksum
          then some f.sequenceIndex else none
        checksum := if f.kind = .responseChecksum ∨ f.kind = .responsePotentialChecksum
          then some f.value else none } := by
  obtain ⟨first, last, kind, value, index, flags⟩ := f
  cases kind <;> rfl

/-- Settles O54: the fields by kind, and the booleans by flag bit. -/
theorem annotatedViewNamesTheFieldsOfItsKind : Obligations.AnnotatedViewNamesTheFieldsOfItsKind := by
  intro f
  rw [annotate_eq]
  exact ⟨rfl, rfl, rfl, rfl, annotateFlags_booleans f.flags⟩

end Sys2Proof.Proofs
end

section
/-! PROOFS. The synthesizer's commands (R200 to R210): a command runs exactly if its bit-times fit and is refused
otherwise, what `drive` leaves in one record, and from these `SY.IDLE`, `SY.BRK`, `SY.DATA` and `SY.CHK`. -/

namespace Sys2Proof.Proofs

open Sys2Proof Sys2Proof.Machine Sys2Proof.Safety Sys2Proof.Laws

/-! ### Whether the bit-times fit -/

/-- The two bounds of R201, in the configuration's numbers. -/
theorem synthFits_iff {c : Cfg} {count : Nat} {y : Synth} :
    synthFits c count y = true ↔
      y.t + count ≤ 2 ^ 64 - 1 ∧ (y.t + count) * c.sampleRate / c.bitRate ≤ 2 ^ c.sampleW - 1 :=
  decide_eq_true_iff

/-- A synthesis command that does not fit answers `Illegal` and changes nothing else of the block (R201, R233). -/
theorem synthesize_of_not_fits {cost : Nat} {run : Synth → Synth} {s : State}
    (hfits : ¬ synthFits s.cfg cost s.synth = true) :
    synthesize cost run s = .next { s with response := some .illegal, refused := true } :=
  if_neg hfits

/-- A synthesis command that fits answers with the edges it appends (R201). -/
theorem synthesize_of_appends {cost : Nat} {run : Synth → Synth} {s : State} {new : List Nat}
    (hfits : synthFits s.cfg cost s.synth = true) (hnew : (run s.synth).edges = s.synth.edges ++ new) :
    synthesize cost run s = .next { s with response := some (.edges new), synth := run s.synth } := by
  rw [synthesize_of_fits hfits, hnew, List.drop_left]
  rfl

/-- `SY.IDLE` of the count class (R95, R205). -/
theorem exec_syIdle_of_ne_zero {n : Byte} {s : State} (hn : n ≠ 0#8) :
    exec (.syIdle n) s = synthesize n.toNat (drive s.cfg .high n.toNat) s :=
  if_neg hn

theorem exec_syIdle_of_not_fits {n : Byte} {s : State} (hfits : ¬ synthFits s.cfg n.toNat s.synth = true) :
    exec (.syIdle n) s = .next { s with response := some .illegal, refused := true } := by
  by_cases hn : n = 0#8
  · exact if_pos hn
  · rw [exec_syIdle_of_ne_zero hn, synthesize_of_not_fits hfits]

/-- Settles O43: each command runs through `synthesize` with its cost of R203, and a count past a bound does not fit. -/
theorem overflowingSynthesisIsRefused : Obligations.OverflowingSynthesisIsRefused := by
  intro i s count hi hover
  have hfits : ¬ synthFits s.cfg count s.synth = true := by
    rw [synthFits_iff, not_and_or, Nat.not_le, Nat.not_le]
    exact hover
  obtain ⟨rfl, rfl⟩ | ⟨n, rfl, rfl⟩ | ⟨⟨b, rfl⟩ | ⟨id, rfl⟩ | ⟨b, rfl⟩ | rfl, rfl⟩ := hi
  · exact synthesize_of_not_fits (cost := breakCost s.cfg) hfits
  · exact exec_syIdle_of_not_fits hfits
  all_goals
    simp only [exec, execSyByte, execSyPid, execSyData, execSyChk]
    exact synthesize_of_not_fits hfits

/-! ### `SY.IDLE` and `SY.BRK` -/

/-- What `drive` leaves: the counter, the level, and an edge if the level changes (R201). -/
theorem drive_eq (c : Cfg) (l : Level) (count : Nat) (y : Synth) :
    drive c l count y = { y with
      t := y.t + count, lvl := l, edges := y.edges ++ if y.lvl = l then [] else [edgeAt c y.t] } := by
  unfold drive
  by_cases hl : l = y.lvl
  · simp [hl]
  · rw [if_neg hl, if_neg (Ne.symm hl)]

/-- What a break leaves: its fall unless the line was low, and its rise (R206). -/
theorem driveBreak_eq (c : Cfg) (y : Synth) :
    driveBreak c y = { y with
      t := y.t + (c.synBreakBits + c.synDelimBits), lvl := .high,
      edges := y.edges ++ ((if y.lvl = .low then [] else [edgeAt c y.t]) ++ [edgeAt c (y.t + c.synBreakBits)]) } := by
  simp [driveBreak, drive_eq, Nat.add_assoc]

/-- A word whose immediate lies outside the class of its op is refused (R95, R96). -/
theorem wordRefused_of_imm_outside_class {op imm : Byte} {cls : ImmClass} (hop : immClassOf op = some cls)
    (himm : cls.legal imm = false) : WordRefused (op ++ imm) := by
  change WordRefused (wordOf op imm)
  refine wordRefused_of_decode_error (decode_error_iff.2 fun cls' hcls => ?_)
  rw [opField_wordOf, hop] at hcls
  cases hcls
  rwa [immField_wordOf]

/-- Settles O44: its words are its encodings, 0 is outside the count class, and it is one `drive` call. -/
theorem syIdleDrivesHigh : Obligations.SyIdleDrivesHigh := by
  refine ⟨fun n hn => decode_eq_ok_iff_encode.2 ⟨rfl, bne_iff_ne.2 hn⟩, ?zero,
    fun n s hn => ⟨fun h => ?fits, ?refusal⟩⟩
  case zero => exact wordRefused_of_imm_outside_class (op := 0x30#8) (imm := 0#8) rfl rfl
  case fits =>
    have hdrive := drive_eq s.cfg .high n.toNat s.synth
    rw [exec_syIdle_of_ne_zero hn, synthesize_of_appends (synthFits_iff.2 h) (congrArg Synth.edges hdrive), hdrive]
    rfl
  case refusal => exact fun h => exec_syIdle_of_not_fits (mt synthFits_iff.1 h)

/-- Settles O45: its word is its encoding, its class is zero, and it is two `drive` calls. -/
theorem syBrkDrivesABreak : Obligations.SyBrkDrivesABreak := by
  refine ⟨⟨decode_eq_ok_iff_encode.2 ⟨rfl, rfl⟩, fun _ => wordRefused_of_zero_class rfl⟩,
    fun s => ⟨fun h => ?fits, ?refusal⟩⟩
  case fits =>
    have hdrive := driveBreak_eq s.cfg s.synth
    have hfits : synthFits s.cfg (breakCost s.cfg) s.synth = true := synthFits_iff.2 h
    change synthesize (breakCost s.cfg) (driveBreak s.cfg) s = _
    rw [synthesize_of_appends hfits (congrArg Synth.edges hdrive), hdrive]
    rfl
  case refusal => exact fun h => synthesize_of_not_fits (mt synthFits_iff.1 h)

/-! ### `SY.DATA` and `SY.CHK` -/

/-- The running sum has no part in driving a byte (R207). -/
theorem driveByte_cks (c : Cfg) (b : Byte) (y : Synth) (k : Byte) :
    driveByte c b { y with cks := k } = { driveByte c b y with cks := k } := by
  obtain ⟨-, -, -, hclassic, -⟩ := driveByte_line c b y
  exact (driveByte_sum c b y k y.sClassic).trans (by rw [← hclassic])

/-- Settles O48: both are `SY.BYTE`, of a byte summed first and of the complement of the sum. -/
theorem syDataSumsAndSyChkSendsTheSum : Obligations.SyDataSumsAndSyChkSendsTheSum := by
  intro b s hfits
  change synthFits s.cfg (byteCost s.cfg) s.synth = true at hfits
  refine ⟨⟨_, synthesize_of_fits hfits, ?data⟩, rfl, _, synthesize_of_fits hfits, ?checksum⟩
  case data =>
    change execSyData b s = _
    rw [execSyData, synthesize_of_fits hfits]
    simp only [driveByte_cks]
    rfl
  case checksum =>
    obtain ⟨htime, hhigh, hcks, hclassic, -⟩ := driveByte_line s.cfg (sumResult s.synth.cks) s.synth
    exact ⟨hcks, hclassic, htime, hhigh⟩

end Sys2Proof.Proofs
end

section
/-! PROOFS. A synthesized byte decodes to itself (R122, R202, R207, R215): its start bit is the first fall ahead of the
cursor, and every centre that `ByteDecode` reads lies in the bit-time that was driven for it. -/

namespace Sys2Proof.Proofs

open Sys2Proof Sys2Proof.Machine Sys2Proof.Safety Sys2Proof.Laws

/-- The timeline of the line `y` with a byte driven on it (R217). -/
def byteTimeline (c : Cfg) (b : Byte) (y : Synth) : Timeline := synthTimeline c (driveByte c b y)

theorem byteTimeline_lastSample (c : Cfg) (b : Byte) (y : Synth) :
    (byteTimeline c b y).lastSample = edgeAt c (y.t + 10 + c.idleGapBits) := by
  obtain ⟨htime, -⟩ := driveByte_line c b y
  rw [← htime]
  rfl

/-! ### The fall of the start bit -/

/-- A byte adds no edge before its start bit (R207). -/
theorem edgeAt_le_of_byte_edge {c : Cfg} {b : Byte} {y : Synth} {e : Nat} (he : e ∈ (byteTimeline c b y).edges)
    (hnew : e ∉ y.edges) : edgeAt c y.t ≤ e := by
  obtain ⟨new, hedges, hstart⟩ := driveAll_edges c (byteCalls b) y
  change e ∈ (driveByte c b y).edges at he
  rw [driveByte_edges, hedges] at he
  exact hstart e ((List.mem_append.1 he).resolve_left hnew)

/-- On a high line the start bit begins with an edge (R201, R207). -/
theorem startBit_mem_byteTimeline {c : Cfg} {b : Byte} {y : Synth} (hhigh : y.lvl = .high) :
    edgeAt c y.t ∈ (byteTimeline c b y).edges := by
  obtain ⟨-, -, -, hbits⟩ := driveBits_line c (reverseBits b) (drive c .low 1 y)
  have hstart : edgeAt c y.t ∈ (drive c .low 1 y).edges := by simp [hhigh]
  exact ((hbits.trans (drive_prefix ..)).trans (drive_prefix ..)).subset hstart

section
variable {c : Cfg} {b : Byte} {y : Synth} (hc : CfgLegal c) (hline : LineLegal c y)
include hc hline

/-- The start bit is the first fall after a cursor that is past the line's earlier edges (R115, R207). -/
theorem startBit_firstFall {pos : Nat} (hhigh : y.lvl = .high) (hpast : ∀ e ∈ y.edges, e ≤ pos)
    (hbefore : pos < edgeAt c y.t) : FirstFallAfter (byteTimeline c b y) pos (edgeAt c y.t) := by
  have hlow : levelAt (byteTimeline c b y) (edgeAt c y.t) = .low :=
    driveByte_level (j := 0) hc hline rfl (by omega) (le_refl _) (edgeAt_lt c hc (Nat.lt_succ_self _))
  refine ⟨startBit_mem_byteTimeline hhigh, hbefore, hlow, fun e he hafter _ => ?_⟩
  exact edgeAt_le_of_byte_edge he fun hold => Nat.not_le.2 hafter (hpast e hold)

/-! ### The centres -/

variable (hexact : c.bitClock = .exact)
include hexact

/-- The centre of the byte's bit-time `j` reads the level driven in it (R122, R207). -/
theorem levelAt_byteCentre {j : Nat} (hj : j < 10) :
    levelAt (byteTimeline c b y) (edgeAt c y.t + off c (2 * j + 1)) =
      if j = 0 then .low else if j ≤ 8 then levelOfBit (b.getLsbD (j - 1)) else .high := by
  obtain ⟨hge, hlt⟩ := exactCentre_in_bit hc hexact y.t j
  exact driveByte_level hc hline rfl (by omega) hge hlt

/-- The byte sampled at the data-bit centres is the byte sent (R81, R118). -/
theorem sampledByte_eq_of_driven {v : Byte} (hv : SampledByte c (byteTimeline c b y) (edgeAt c y.t) v) : v = b := by
  apply BitVec.eq_of_getLsbD_eq
  intro i hi
  have hlevel := levelAt_byteCentre (b := b) hc hline hexact (j := i + 1) (by omega)
  rw [if_neg (by omega), if_pos (by omega), Nat.add_sub_cancel] at hlevel
  rw [hv i hi, show 2 * i + 3 = 2 * (i + 1) + 1 by omega, hlevel]
  cases b.getLsbD i <;> rfl

omit hline in
/-- The stop bit's centre lies within the timeline (R122, R203). -/
theorem stopCentre_le_last : edgeAt c y.t + off c 19 ≤ (byteTimeline c b y).lastSample := by
  obtain ⟨-, hlt⟩ := exactCentre_in_bit hc hexact y.t 9
  rw [byteTimeline_lastSample]
  exact hlt.le.trans (edgeAt_mono c (by omega))

end

/-! ### The command -/

/-- A synthesis command that fits leaves the line that its run drives (R201). -/
theorem synth_of_synthesize {cost : Nat} {run : Synth → Synth} {s u : State}
    (hfits : synthFits s.cfg cost s.synth = true) (h : synthesize cost run s = .next u) : u.synth = run s.synth := by
  rw [synthesize_of_fits hfits] at h
  cases h
  rfl

/-- Settles O50: `BD.BYTE` anchors at the start bit's fall, samples the byte sent, and finds the stop bit high. -/
theorem synthesizedByteDecodesToItself : Obligations.SynthesizedByteDecodesToItself := by
  intro b s u v hc hexact hs hfits hbyte hcfg htlb hrun hpast hbefore
  have hsynth := synth_of_synthesize (run := driveByte s.cfg b) hfits hbyte
  have heffect := exec_effect hbyte
  obtain ⟨hkept, -⟩ := heffect.keeps_inputs
  have ht := synthTimeline_legal (heffect.synthLegal hc hs)
  have hline := synthLegal_line hs
  obtain ⟨-, -, hhigh, -⟩ := hs
  rw [hkept, ← htlb] at ht
  rw [hsynth] at htlb
  simp only [← hcfg] at hc hexact hline htlb ht hbefore ⊢
  change v.tlb = byteTimeline v.cfg b s.synth at htlb
  have hfall := startBit_firstFall (b := b) hc hline hhigh hpast hbefore
  have hstop := stopCentre_le_last (b := b) (y := s.synth) hc hexact
  have hstopHigh := levelAt_byteCentre (b := b) hc hline hexact (j := 9) (by decide)
  rw [← htlb] at hfall hstop hstopHigh
  obtain ⟨w, hw, hexec⟩ := bdByteReadsAByteWithAHighStop v _ hc ht hrun hfall hstop hstopHigh
  rw [htlb] at hw
  obtain rfl := sampledByte_eq_of_driven hc hline hexact hw
  exact ⟨_, hexec, rfl⟩

end Sys2Proof.Proofs
end

section
/-! PROOFS. The utilities `UT.PAR` and `UT.REV` (R84, R85, R204, R213, R214): the bits of a PID byte and of a reversed
byte. -/

namespace Sys2Proof.Proofs

open Sys2Proof Sys2Proof.Machine Sys2Proof.Safety

/-- The two parity bits stand above the identifier (R85). -/
theorem parity_high_bits : ∀ id : BitVec 6,
    (parity id).getLsbD 6 = parity0 id ∧ (parity id).getLsbD 7 = parity1 id := by decide

/-- Settles O52: its words are its encodings, the other immediates are outside the id6 class, and it answers `parity`,
in which bits 0 to 5 are the identifier. -/
theorem utParAnswersThePidByte : Obligations.UtParAnswersThePidByte := by
  refine ⟨fun id => ?words, fun imm himm => ?reserved, fun id => ?answer⟩
  case words =>
    rw [← setWidth_id6_eq_append]
    exact decode_eq_ok_iff_encode.2 ⟨rfl, rfl⟩
  case reserved => exact wordRefused_of_imm_outside_class rfl (beq_false_of_ne himm)
  case answer =>
    obtain ⟨hbit6, hbit7⟩ := parity_high_bits id
    exact ⟨parity id, fun _ => rfl, extract_parity id, hbit6, hbit7⟩

/-- Bit `7 - i` of the reversed byte is bit `i` (R204). -/
theorem reverseBits_bit : ∀ (b : Byte), ∀ i < 8, (reverseBits b).getLsbD (7 - i) = b.getLsbD i := by decide

/-- Reversing twice gives the byte back: `7 - (7 - i) = i`. -/
theorem reverseBits_reverseBits (b : Byte) : reverseBits (reverseBits b) = b := by
  apply BitVec.eq_of_getLsbD_eq
  intro i hi
  calc (reverseBits (reverseBits b)).getLsbD i
    _ = (reverseBits (reverseBits b)).getLsbD (7 - (7 - i)) := by rw [Nat.sub_sub_self (Nat.le_of_lt_succ hi)]
    _ = (reverseBits b).getLsbD (7 - i) := reverseBits_bit (reverseBits b) (7 - i) (by omega)
    _ = b.getLsbD i := reverseBits_bit b i hi

/-- Settles O53: its words are its encodings, and it answers `reverseBits`, its own inverse. -/
theorem utRevAnswersTheReversal : Obligations.UtRevAnswersTheReversal := by
  refine ⟨fun _ => decode_eq_ok_iff_encode.2 ⟨rfl, rfl⟩, fun b =>
    ⟨reverseBits b, fun _ => rfl, reverseBits_bit b, fun s => ?_⟩⟩
  change Host.Outcome.next { s with response := some (.value (reverseBits (reverseBits b))) } = _
  rw [reverseBits_reverseBits]

end Sys2Proof.Proofs
end

section
/-! PROOFS. Exceptions: a reset asserted in a run (R234, R250, R251), and what a halted pass answers (R245). -/

namespace Sys2Proof.Proofs

open Sys2Proof Sys2Proof.Machine

/-! ### Reset in a run -/

/-- Illegal inputs have no reset state (R234). -/
theorem resetWith_of_illegal {inputs : ResetInputs} (h : ¬ InputsLegal inputs) : resetWith inputs = none := if_neg h

/-- The reset taken or refused, whatever the state: what outlives it is the rest of the inbox and the mark. -/
theorem turnOf_assertReset (inputs : ResetInputs) (s : State) :
    turnOf .illegalReset (assertReset inputs s) =
      if InputsLegal inputs then .hold { State.ofInputs inputs with inbox := s.inbox, refused := s.refused }
      else .refuse .illegalReset := by
  by_cases h : InputsLegal inputs
  · rw [if_pos h, assertReset, resetWith_of_legal h]
    rfl
  · rw [if_neg h, assertReset, resetWith_of_illegal h]
    rfl

/-- A command in progress does not hold off a reset (R69, R250). -/
theorem nextTurn_of_reset {s : State} {inputs : ResetInputs} {rest : List HostInput}
    (hin : s.inbox = .reset inputs :: rest) :
    nextTurn s = turnOf .illegalReset (assertReset inputs { s with inbox := rest }) := by
  cases hreq : s.request with
  | none => simp only [nextTurn, acceptNext, hreq, hin]
  | some i => simp only [nextTurn, acceptSuspended, hreq, hin]

/-- A reset next in the inbox is taken if its inputs are legal, and refused otherwise. -/
theorem step_of_reset {s : State} {inputs : ResetInputs} {rest : List HostInput}
    (hin : s.inbox = .reset inputs :: rest) :
    step s = if InputsLegal inputs then .next { State.ofInputs inputs with inbox := rest, refused := s.refused }
      else .refused .illegalReset := by
  rw [step, nextTurn_of_reset hin, turnOf_assertReset]
  by_cases h : InputsLegal inputs
  · simp only [if_pos h]
  · simp only [if_neg h]

/-- The positions up to the greatest are those that fit `SAMPLE_W` (R68, R234). -/
theorem le_maxSample_iff {c : Cfg} {x : Nat} : x ≤ maxSample c ↔ x < 2 ^ c.sampleW :=
  Nat.le_sub_one_iff_lt (Nat.two_pow_pos _)

/-- The values that fit 8 bits (R20). -/
theorem fitsByte_iff {n : Nat} : n < 2 ^ 8 ↔ n ≤ 255 := Nat.lt_succ_iff

/-- Settles O9: the conditions written out are `InputsLegal`, which the reset tests, with the widths as bounds. -/
theorem resetTakesExactlyTheLegalInputs : Obligations.ResetTakesExactlyTheLegalInputs := by
  intro s inputs rest hin c tl legal
  have hlegal : legal ↔ InputsLegal inputs := by
    simp only [legal, c, tl, InputsLegal, CfgLegal, TimelineLegal, le_maxSample_iff, fitsByte_iff, and_assoc]
  rw [step_of_reset hin, hlegal]
  exact ⟨fun h => if_pos h, fun h => if_neg h⟩

/-! ### A halted pass -/

/-- `BD.BRK` and `BD.BYTE` of a halted pass (R245). -/
theorem runDecode_of_halted {i : Instr} {dec : Cfg → Timeline → Pass → Read Decoded} {answer : Decoded → Response}
    {s : State} (hhalt : s.pass.halted ≠ .run) : runDecode i dec answer s = .next (answerHalted s) := if_neg hhalt

/-- `FSM.STEP` of a halted pass (R151, R245). -/
theorem execFsmStep_of_halted {s : State} (hhalt : s.pass.halted ≠ .run) :
    execFsmStep s = .next (answerHalted s) := if_neg hhalt

/-- A synthesis command does the same beside any pass. -/
theorem KeepsToSynth.withPass {f : State → Host.Outcome State Fault Refusal} (hf : KeepsToSynth f) {s t : State}
    (p : Pass) (h : f s = .next t) : f { s with pass := p } = .next { t with pass := p } := by
  obtain ⟨hframe, hany⟩ := hf s t h
  refine (hany p s.tlb s.events s.ckt).trans (congrArg _ ?_)
  rw [hframe]

/-- Settles O26: the halted pass is each command's first test; of the others, the synthesis commands keep to the
synthesizer, and a `CK` or `UT` command has one outcome, which names no pass. -/
theorem haltedPassAnswersHalted : Obligations.HaltedPassAnswersHalted := by
  refine ⟨fun s hhalt => ?halted, fun s t i p hi h => ?others⟩
  case halted =>
    obtain ⟨-, hstop⟩ := fsmStopCancelsARunningPass
    exact ⟨execFsmStep_of_halted hhalt, runDecode_of_halted hhalt, runDecode_of_halted hhalt, (hstop s).2 hhalt⟩
  case others =>
    cases i with
    | bdBrk | bdByte | fsmStep | fsmStop => simp at hi
    | syIdle n => exact (execSyIdle_keepsToSynth n).withPass p h
    | syBrk => exact (synthesize_keepsToSynth _ _).withPass p h
    | syByte b => exact (synthesize_keepsToSynth _ _).withPass p h
    | syPid id => exact (execSyPid_keepsToSynth id).withPass p h
    | syData b => exact (execSyData_keepsToSynth b).withPass p h
    | syChk => exact (synthesize_keepsToSynth _ _).withPass p h
    | ckClr | ckAdd | ckRes | utPar | utRev =>
      cases h
      rfl

end Sys2Proof.Proofs
end
